-- ==== Sys2Proof/Word.lean ====
section
/-!
DEFINITION. The values the PRE computes with: scalar words, bytes, register numbers and the three kinds of polynomial
(spec/00_scope.md rules R11, R12, R14, R16, R17; spec/10_state.md rules R21 to R24).
-/

namespace Sys2Proof

/-- A scalar register, an address, an instruction word or a CSR (R11, R21, R40). -/
abbrev Word := BitVec 32

/-- One byte of local memory (R60). -/
abbrev Byte := BitVec 8

/-- The number of a scalar register X0-X7 (R21). -/
abbrev XReg := Fin 8

/-- The number of a BitPoly register B0-B7 (R22). -/
abbrev BReg := Fin 8

/-- The number of a TernaryPoly register T0-T7 (R23). -/
abbrev TReg := Fin 8

/-- The number of a TruncRing register Z0-Z7 (R24). -/
abbrev ZReg := Fin 8

/-- A BitPoly: N bits packed into machine words (R22, R64), held as the number whose binary digits they are, so bit k of
the polynomial is bit k of the number. N is a parameter of the part, so the width is a check (`BitPoly.wf`) and not a type. -/
abbrev BitPoly := Nat

/-- Bit k of a BitPoly (R12). -/
def BitPoly.bit (p : BitPoly) (k : Nat) : Bool := Nat.testBit p k

/-- A TernaryPoly: its sign plane and its nonzero plane (R23). -/
structure TernaryPoly where
  /-- the sign plane -/
  s : BitPoly
  /-- the nonzero plane -/
  a : BitPoly
  deriving DecidableEq, Repr

/-- A TruncRing value: its coefficients c(0), c(1), ..., c(N-1) in order (R24). -/
abbrev TruncPoly := List Nat

end Sys2Proof
end

