-- ==== Sys2Proof/Config.lean ====
section
/-!
DEFINITION. What a part fixes (spec/00_scope.md rules R7 to R9) and the values the spec leaves free.
The ring degree, the modulus, the memory size and the presence of the accelerated path are plain data (`Params`); the
machine's state carries them, so one model covers every part. What the spec leaves open is an opaque constant: nothing in
Lean can evaluate it, so a claim that is proved holds for every choice.
-/

namespace Sys2Proof

/-- The implementation parameters of rule R7 that are numbers or flags. -/
structure Params where
  /-- N, the number of coefficients of every polynomial -/
  n : Nat
  /-- LOG_Q, the base-2 logarithm of the TruncRing modulus -/
  logQ : Nat
  /-- MEM_BYTES, the size of local memory in bytes -/
  memBytes : Nat
  /-- ACCEL, whether the accelerated RMUL path exists -/
  accel : Bool
  deriving DecidableEq, Repr

/-- The reference configuration of rule R9, with the accelerated path present (rule R9 allows either value).
DESIGN CHOICE, notes/assumptions/1.md. -/
def Params.reference : Params := { n := 701, logQ := 13, memBytes := 65536, accel := true }

/-- INV_NONINV (R7, R131): what TINV writes for a non-invertible value `v`, as the residue modulo 3 of each coefficient.
A fixed function of the part and of `v`, of which nothing is known. notes/assumptions/4.md. -/
opaque Config.invNonInv : Params → TernaryPoly → Nat → Fin 3

/-- What the byte at an address of local memory holds after the reset number `epoch`, until it is written (R79).
notes/assumptions/3.md. -/
opaque Config.powerOnByte : Nat → Nat → Byte

/-- LAT less one (R7, R275): a number for each opcode, N, LOG_Q, MEM_BYTES and, for RMUL only, CFG.ACCEL_EN.
notes/assumptions/6.md. -/
opaque Config.latencyLessOne : BitVec 6 → Nat → Nat → Nat → Bool → Nat

end Sys2Proof
end

