-- ==== Sys2Proof/Machine/State.lean ====
section
/-!
DEFINITION. The state of the PRE as plain data (spec/10_state.md rules R20 to R55), the host's steps as data
(spec/60_exceptions.md rule R245), the reasons a step stops, and the state after reset (rule R55).
-/

namespace Sys2Proof.Machine

/-- The fault causes of rule R221, the only values ERRCAUSE ever holds. -/
inductive Cause where
  | none
  | fetchRange
  | illegal
  | misaligned
  | memRange
  | operandRange
  | aborted
  deriving DecidableEq, Repr

/-- Local memory (R60): the listed cells, by rising address, are the bytes written since memory was last wholly set.
An unlisted byte is 0 after a WIPE (R268) and what the last reset left there otherwise (R79). -/
structure Memory where
  /-- the bytes written, strictly rising by address -/
  cells : List Host.Cell
  /-- whether a WIPE came after the last reset -/
  wiped : Bool
  /-- the number of the last reset; the MODEL's own, it tells one draw of unspecified bytes from the next -/
  epoch : Nat
  deriving DecidableEq, Repr

/-- One access of the host, or the reset input (R78, R40, R245, R260). -/
inductive HostAct where
  /-- a read of `width` bytes at `offset` of the CSR window (R40) -/
  | csrRead (offset width : Nat)
  /-- a write of `width` bytes at `offset` of the CSR window (R40) -/
  | csrWrite (offset width : Nat) (data : Word)
  /-- HostMemRead(addr, n) (R78) -/
  | memRead (addr n : Nat)
  /-- HostMemWrite(addr, n, v) (R78) -/
  | memWrite (addr n : Nat) (v : Word)
  /-- the reset input is asserted (R260) -/
  | reset
  deriving DecidableEq, Repr

/-- Which agent takes a step (R18, R232). -/
inductive Turn where
  | sequencer
  | host (a : HostAct)
  deriving DecidableEq, Repr

/-- The state of the PRE and of its interface to the host. -/
structure State where
  /-- the parameters of the part (R7); no step changes them -/
  params : Params
  /-- the program counter (R28) -/
  pc : Word
  /-- X0-X7 (R21) -/
  x : Vector Word 8
  /-- B0-B7 (R22) -/
  b : Vector BitPoly 8
  /-- T0-T7 (R23) -/
  t : Vector TernaryPoly 8
  /-- Z0-Z7 (R24) -/
  z : Vector TruncPoly 8
  /-- local memory (R60) -/
  mem : Memory
  /-- CFG bit 0, ACCEL_EN (R46) -/
  accelEn : Bool
  /-- CFG bit 31, LOCK (R46) -/
  lock : Bool
  /-- CTRL bit 3, IE (R47) -/
  ie : Bool
  /-- STATUS bit 0, BUSY (R48) -/
  busy : Bool
  /-- STATUS bit 1, DONE (R48) -/
  done : Bool
  /-- STATUS bit 2, ERR (R48) -/
  err : Bool
  /-- ENTRY bits 31:2, the start address divided by 4 (R49) -/
  entry : BitVec 30
  /-- the PC register: the pc at which the last run ended (R50) -/
  pcReg : Word
  /-- ERRCAUSE (R51) -/
  errCause : Cause
  /-- ERRPC (R52) -/
  errPc : Word
  /-- ERRINFO (R53) -/
  errInfo : Word
  /-- the MODEL's own: who steps next, and what the host does (R232: any interleaving); once empty, the sequencer alone steps -/
  agenda : List Turn
  /-- the MODEL's own: the values the host's reads gave it, the latest first -/
  replies : List Word
  deriving DecidableEq, Repr

/-- No step of this model stops with a fault: every fault of the spec ends the run with the effect of rule R227, which is
a next state (`Sys2Proof.Machine.raise`). The type is therefore empty. -/
inductive Fault where
  deriving DecidableEq, Repr

/-- Why a step has no meaning. -/
inductive Refusal where
  /-- An instruction whose meaning is not written yet, by its mnemonic. Raised by an arm of `exec` only (none is left). Safe. -/
  | notModelled (mnemonic : String)
  /-- The host accesses local memory while BUSY = 1 (R72, R247, U8). Raised by a host step. Safe: the model has no such step. -/
  | hostMemoryWhileBusy
  /-- The host accesses local memory out of range, misaligned or at a width not in 1, 2, 4 (R78, R247, U8). Raised by a
  host step. Safe: the model has no such step. -/
  | hostMemoryAccess
  /-- The host accesses the CSR window other than by an aligned 32-bit access (R40, R247, U9). Raised by a host step.
  Safe: the model has no such step. -/
  | hostCsrAccess
  deriving DecidableEq, Repr

/-- The zero value of a BitPoly (R55). -/
def zeroBitPoly : BitPoly := 0

/-- The zero value of a TernaryPoly: both planes all 0 (R55). -/
def zeroTernary : TernaryPoly := { s := 0, a := 0 }

/-- The zero value of a TruncRing register: N coefficients all 0 (R55). -/
def zeroTrunc (n : Nat) : TruncPoly := List.replicate n 0

/-- The state of a part right after reset number `epoch` (R55, R260 to R262). -/
def resetState (p : Params) (epoch : Nat) : State :=
  { params := p
    pc := 0
    x := Vector.replicate 8 0
    b := Vector.replicate 8 zeroBitPoly
    t := Vector.replicate 8 zeroTernary
    z := Vector.replicate 8 (zeroTrunc p.n)
    mem := { cells := [], wiped := false, epoch := epoch }
    accelEn := false
    lock := false
    ie := false
    busy := false
    done := false
    err := false
    entry := 0
    pcReg := 0
    errCause := .none
    errPc := 0
    errInfo := 0
    agenda := []
    replies := [] }

/-- The machine right after its first reset, in the reference configuration (R55, R9). -/
def State.reset : State := resetState Params.reference 0

end Sys2Proof.Machine
end

