-- ==== Sys2Proof/Machine/Mem.lean ====
section
/-!
DEFINITION. Reading and writing local memory (spec/20_memory.md rules R60, R61, R70, R79), on the one canonical list of cells.
-/

namespace Sys2Proof.Machine

/-- What an unlisted byte reads as: 0 after a WIPE (R268), else the unspecified byte the last reset left (R79). -/
def Memory.unlisted (m : Memory) (a : Nat) : Byte :=
  if m.wiped then 0 else Config.powerOnByte m.epoch a

/-- The cells at addresses `a` and above. -/
def cellsFrom (cs : List Host.Cell) (a : Nat) : List Host.Cell := cs.dropWhile fun c => decide (c.1 < a)

/-- The cells below address `a`. -/
def cellsBelow (cs : List Host.Cell) (a : Nat) : List Host.Cell := cs.takeWhile fun c => decide (c.1 < a)

/-- The byte at `a`, given the cells at `a` and above. -/
def byteAt (m : Memory) (cs : List Host.Cell) (a : Nat) : Byte :=
  match cs with
  | [] => m.unlisted a
  | c :: _ => if c.1 = a then c.2 else m.unlisted a

/-- The byte at address `a`, MemRead(a, 1) (R13). -/
def Memory.read (m : Memory) (a : Nat) : Byte := byteAt m (cellsFrom m.cells a) a

/-- The `n` bytes at `a` and above, where `cs` holds every cell at `a` and above. -/
def readFrom (m : Memory) (cs : List Host.Cell) (a : Nat) : Nat → List Byte
  | 0 => []
  | n + 1 => byteAt m (cellsFrom cs a) a :: readFrom m (cellsFrom cs a) (a + 1) n

/-- The `n` bytes at addresses `a .. a+n-1`, the bytes of MemRead(a, n) (R13). -/
def Memory.readBytes (m : Memory) (a n : Nat) : List Byte := readFrom m m.cells a n

/-- The cells that hold the bytes `vs` from address `a` on; a byte equal to what is read unlisted is not listed. -/
def newCells (m : Memory) (a : Nat) : List Byte → List Host.Cell
  | [] => []
  | v :: vs => if m.wiped && v == 0 then newCells m (a + 1) vs else (a, v) :: newCells m (a + 1) vs

/-- Write the bytes `vs` to the addresses from `a` on, MemWrite(a, n, v) (R13). -/
def Memory.writeBytes (m : Memory) (a : Nat) (vs : List Byte) : Memory :=
  { m with cells := cellsBelow m.cells a ++ (newCells m a vs ++ cellsFrom m.cells (a + vs.length)) }

/-- Memory with every byte 0 (R268). -/
def Memory.wipe (m : Memory) : Memory := { m with cells := [], wiped := true }

/-- The canonical form: addresses strictly rise, and no listed byte is known to be what it would read as unlisted. -/
def Memory.wf (m : Memory) : Bool :=
  decide (m.cells.Pairwise fun c d => c.1 < d.1) && (!m.wiped || m.cells.all fun c => c.2 != 0)

/-- Every listed address lies in a memory of `size` bytes (R60). -/
def Memory.inside (m : Memory) (size : Nat) : Bool := m.cells.all fun c => decide (c.1 < size)

end Sys2Proof.Machine
end

