-- ==== Sys2Proof/Machine/Operands.lean ====
section
/-!
DEFINITION. Every operand form: register reads and writes, the four immediates, the effective address, and the derived sizes
of a part (spec/00_scope.md rule R8, spec/20_memory.md rule R63, spec/30_encoding.md rules R82 and R83).
-/

namespace Sys2Proof

/-- Q = 2^LOG_Q, the TruncRing modulus (R7). -/
def Params.q (p : Params) : Nat := 2 ^ p.logQ

/-- WORDS = ceil(N / 64), the number of 64-bit words of one bit-plane (R8). -/
def Params.words (p : Params) : Nat := (p.n + 63) / 64

/-- BITS_IN_LAST_WORD = N - 64*(WORDS-1), the bits of a bit-plane that its last word holds, 1 to 64 of them (R8). -/
def Params.bitsInLastWord (p : Params) : Nat := p.n - 64 * (p.words - 1)

/-- Word j of a bit-plane: its bits 64j to 64j+63 (R22). -/
def BitPoly.word (v : BitPoly) (j : Nat) : Nat := v >>> (64 * j) % 2 ^ 64

/-- BP_BYTES, the memory size of one BitPoly (R8). -/
def Params.bpBytes (p : Params) : Nat := 8 * p.words

/-- TP_BYTES, the memory size of one TernaryPoly (R8). -/
def Params.tpBytes (p : Params) : Nat := 2 * p.bpBytes

/-- RP_BYTES, the memory size of one TruncRing value (R8). -/
def Params.rpBytes (p : Params) : Nat := 2 * p.n

end Sys2Proof

namespace Sys2Proof.Machine

/-- X[r] (R12, R21). -/
def getX (s : State) (r : XReg) : Word := s.x.get r

/-- B[r] (R12, R22). -/
def getB (s : State) (r : BReg) : BitPoly := s.b.get r

/-- T[r] (R12, R23). -/
def getT (s : State) (r : TReg) : TernaryPoly := s.t.get r

/-- Z[r] (R12, R24). -/
def getZ (s : State) (r : ZReg) : TruncPoly := s.z.get r

/-- X[r] <- v (R12). -/
def setX (r : XReg) (v : Word) (s : State) : State := { s with x := s.x.set r.val v r.isLt }

/-- B[r] <- v (R12). -/
def setB (r : BReg) (v : BitPoly) (s : State) : State := { s with b := s.b.set r.val v r.isLt }

/-- T[r] <- v (R12). -/
def setT (r : TReg) (v : TernaryPoly) (s : State) : State := { s with t := s.t.set r.val v r.isLt }

/-- Z[r] <- v (R12). -/
def setZ (r : ZReg) (v : TruncPoly) (s : State) : State := { s with z := s.z.set r.val v r.isLt }

/-- uimm = zext_32(imm16) (R82). -/
def uimm (imm : BitVec 16) : Word := imm.setWidth 32

/-- simm = sext_32(imm16) (R82). -/
def simm (imm : BitVec 16) : Word := imm.signExtend 32

/-- hiimm: imm16 in the high half, zeros below (R82). -/
def hiimm (imm : BitVec 16) : Word := imm ++ 0#16

/-- woff = sext_32(imm16) * 4 modulo 2^32 (R82). -/
def woff (imm : BitVec 16) : Word := imm.signExtend 32 * 4

/-- EA = (X[base] + zext_32(imm16)) mod 2^32 (R63). -/
def effAddr (s : State) (base : XReg) (imm : BitVec 16) : Word := getX s base + uimm imm

/-- ENTRY as a word: its low two bits are 0 (R49). -/
def entryWord (s : State) : Word := s.entry ++ 0#2

end Sys2Proof.Machine
end

