-- ==== Sys2Proof/Machine/Ops.lean ====
section
/-!
DEFINITION. The operations instructions share: advancing and moving the pc (spec/10_state.md rule R28), ending a run with
its registers zeroed (spec/70_reset_and_hazards.md rule R267), TAKING A FAULT (spec/60_exceptions.md rule R227), and the
checks of a memory access (rules R67 to R69). The PRE has no return from a fault (R228): a run begins again by START (R265).
-/

namespace Sys2Proof.Machine

/-- What a step answers. -/
abbrev Result := Host.Outcome State Fault Refusal

/-- pc <- (pc + 4) mod 2^32 (R28). -/
def advance (s : State) : State := { s with pc := s.pc + 4 }

/-- pc <- (pc + 4 * sext_32(imm16)) mod 2^32, from the address of the branch itself (R28). -/
def jumpBy (imm : BitVec 16) (s : State) : State := { s with pc := s.pc + woff imm }

/-- Every X, B, T and Z register is zero (R267). -/
def zeroRegisters (s : State) : State :=
  { s with
    x := Vector.replicate 8 0
    b := Vector.replicate 8 zeroBitPoly
    t := Vector.replicate 8 zeroTernary
    z := Vector.replicate 8 (zeroTrunc s.params.n) }

/-- TAKING A FAULT: the effect of rule R227 with cause `c` and info `info` on the instruction at pc. The cause, the pc and
the info are saved, the PC register takes the pc, the registers are zeroed, ERR is set and BUSY falls. Memory is kept. -/
def raise (c : Cause) (info : Word) (s : State) : State :=
  { zeroRegisters s with
    errCause := c
    errPc := s.pc
    errInfo := info
    pcReg := s.pc
    err := true
    busy := false }

/-- The end of a run by HALT (R192). -/
def endByHalt (s : State) : State :=
  { zeroRegisters s with
    pcReg := s.pc
    done := true
    busy := false }

/-- START while idle: the status and the fault registers are cleared, pc takes ENTRY, and BUSY rises (R265). -/
def startRun (s : State) : State :=
  { s with
    done := false
    err := false
    errCause := .none
    errPc := 0
    errInfo := 0
    pc := entryWord s
    busy := true }

/-- WIPE while idle: every byte of memory and every register is zero; no CSR changes (R268). -/
def wipe (s : State) : State := { zeroRegisters s with mem := s.mem.wipe }

/-- The checks of one access of `size` bytes at `ea`: alignment first, then range, computed without wrap (R67, R68, R69);
`done` is the state if both pass. -/
def checked (s : State) (ea : Word) (align size : Nat) (done : State) : Result :=
  if ea.toNat % align ≠ 0 then .next (raise .misaligned ea s)
  else if ea.toNat + size > s.params.memBytes then .next (raise .memRange ea s)
  else .next done

/-- The bytes `vs` written at `ea` (R13, R61). -/
def storeBytes (ea : Word) (vs : List Byte) (s : State) : State :=
  { s with mem := s.mem.writeBytes ea.toNat vs }

/-- The `n` bytes read at `ea` (R13, R61). -/
def loadBytes (s : State) (ea : Word) (n : Nat) : List Byte := s.mem.readBytes ea.toNat n

end Sys2Proof.Machine
end

