-- ==== Sys2Proof/Machine/Bytes.lean ====
section
/-!
DEFINITION. Byte order and bit order, said once: numbers from little-endian bytes and back (spec/20_memory.md rules R61,
R64, R66), numbers from a list of bits, and the 16-bit halfwords of a TruncRing buffer.
-/

namespace Sys2Proof.Machine

/-- The number that little-endian bytes hold, the byte at the lowest address first (R61, R13). -/
def leNat : List Byte → Nat
  | [] => 0
  | b :: bs => b.toNat + 256 * leNat bs

/-- The low `n` bytes of a number, least significant first (R61, R13). -/
def toBytes : Nat → Nat → List Byte
  | 0, _ => []
  | n + 1, v => BitVec.ofNat 8 v :: toBytes n (v / 256)

/-- The number whose bit k is entry k of the list (R64). -/
def ofBits : List Bool → Nat
  | [] => 0
  | b :: bs => b.toNat + 2 * ofBits bs

/-- The 16-bit little-endian values of a buffer, the lowest address first (R66). -/
def halfwords : List Byte → List Nat
  | lo :: hi :: rest => leNat [lo, hi] :: halfwords rest
  | _ => []

end Sys2Proof.Machine
end

