-- ==== Sys2Proof/Machine/Ring.lean ====
section
/-!
DEFINITION. The arithmetic of the three rings (spec/00_scope.md rules R14 to R16, spec/40_bitpoly.md, spec/41_ternary.md,
spec/42_truncring.md) on values, with no machine state.
-/

namespace Sys2Proof.Machine

/-- The N-bit value whose bit k is `f k` for k < N, with every bit at and above N zero (R22). -/
def bitsOf (n : Nat) (f : Nat → Bool) : BitPoly := ofBits ((List.range n).map f)

/-- A number cut to its low N bits: the masking of R64 and R181. -/
def maskBits (n v : Nat) : BitPoly := v % 2 ^ n

/-- Cyclic right rotation: bit (k + sh) mod N moves to bit k (R103). -/
def rotateRight (n : Nat) (p : BitPoly) (sh : Nat) : BitPoly := bitsOf n fun k => Nat.testBit p ((k + sh) % n)

/-- Coefficient k of the cyclic product: the sum over i of a(i) * b((k - i) mod N), on unbounded integers (R121, R153).
`cyclicConv` computes all N of them at once; `Sys2Proof.Laws.cyclicConv_eq` says that they are these. -/
def convCoeff (n : Nat) (a b : List Nat) (k : Nat) : Nat :=
  ((List.range n).map fun i => a.getD i 0 * b.getD ((k + n - i) % n) 0).sum

/-- The number whose digits in base 2^w are the entries of the list, the first entry the lowest. -/
def packDigits (w : Nat) : List Nat → Nat
  | [] => 0
  | c :: cs => c + 2 ^ w * packDigits w cs

/-- Digit k of a number in base 2^w. -/
def digitAt (w p k : Nat) : Nat := (p >>> (w * k)) % 2 ^ w

/-- The N cyclic sums of the digits of a product: digit k and digit N + k meet, because x^N = 1. -/
def foldDigits (n w p : Nat) : List Nat := (List.range n).map fun k => digitAt w p k + digitAt w p (n + k)

/-- A digit width at which no coefficient of the product of two coefficient lists overflows its digit. -/
def digitWidth (a b : List Nat) : Nat := Nat.log2 (a.sum * b.sum) + 1

/-- The N coefficients of the product modulo x^N - 1, on unbounded integers (R121, R153): the lists are packed as the
digits of two numbers, the numbers are multiplied, and the digits of the product are folded. -/
def cyclicConv (n : Nat) (a b : List Nat) : List Nat :=
  foldDigits n (digitWidth (a.take n) (b.take n))
    (packDigits (digitWidth (a.take n) (b.take n)) (a.take n) * packDigits (digitWidth (a.take n) (b.take n)) (b.take n))

/-- Coefficient k of a ternary value as a residue modulo 3: (0,0) is 0, (0,1) is 1, (1,1) is 2 (R16).
The pair (1,0), which no instruction writes, is read as -1 (DEDUCED, notes/assumptions/5.md). -/
def tritAt (v : TernaryPoly) (k : Nat) : Nat :=
  if Nat.testBit v.s k then 2 else if Nat.testBit v.a k then 1 else 0

/-- The N coefficients of a ternary value, each in 0, 1, 2 (R16). -/
def trits (n : Nat) (v : TernaryPoly) : List Nat := (List.range n).map (tritAt v)

/-- ENC: the ternary value with the given residues: 0 is (0,0), 1 is (0,1), 2 is (1,1) (R16, R123). -/
def encodeTrits (e : List Nat) : TernaryPoly :=
  { s := ofBits (e.map fun v => v == 2), a := ofBits (e.map fun v => v != 0) }

/-- CONV3: the product modulo x^N - 1, each coefficient modulo 3 (R121). -/
def conv3 (n : Nat) (v w : TernaryPoly) : List Nat := (cyclicConv n (trits n v) (trits n w)).map fun c => c % 3

/-- RED: subtract the last coefficient from every coefficient, modulo 3 (R122). -/
def reduceTrits (n : Nat) (c : List Nat) : List Nat := c.map fun v => (v + 3 - c.getD (n - 1) 0) % 3

/-- ENC(RED(CONV3(v, w))), the product modulo PHI in canonical form (R126). -/
def ternaryMul (n : Nat) (v w : TernaryPoly) : TernaryPoly := encodeTrits (reduceTrits n (conv3 n v w))

/-- ONE, the identity element (R123). -/
def ternaryOne : TernaryPoly := { s := 0, a := 1 }

/-- The Frobenius map applied `e` times, v(x) to v(x^(3^e)): raising to the power 3^e permutes the coefficient positions,
and does so on each plane (R133). The position that moves to j is j * 3^(N-1-e) mod N, since 3^(N-1) = 1 modulo N. -/
def ternaryFrobenius (n e : Nat) (v : TernaryPoly) : TernaryPoly :=
  { s := bitsOf n fun j => Nat.testBit v.s (j * 3 ^ (n - 1 - e) % n)
    a := bitsOf n fun j => Nat.testBit v.a (j * 3 ^ (n - 1 - e) % n) }

/-- The power 1 + 3 + ... + 3^(m-1) of `v`, by doubling `m` (R133); `fuel` is at least the number of binary digits of `m`. -/
def repunitPower (n : Nat) (v : TernaryPoly) : Nat → Nat → TernaryPoly
  | 0, _ => ternaryOne
  | fuel + 1, m =>
    if m = 0 then ternaryOne else
    let half := repunitPower n v fuel (m / 2)
    let double := ternaryMul n half (ternaryFrobenius n (m / 2) half)
    if m % 2 = 1 then ternaryMul n v (ternaryFrobenius n 1 double) else double

/-- The power 3^(N-1) - 2 of `v`, which is 1 + 2 * 3 * (1 + 3 + ... + 3^(N-3)) (R133). Every value `v` of the ring has
`v^(3^(N-1)) = v`, so this is the inverse of `v` whenever `v` has one. -/
def inverseCandidate (n : Nat) (v : TernaryPoly) : TernaryPoly :=
  ternaryMul n v (ternaryFrobenius n 1
    (ternaryMul n (repunitPower n v (Nat.log2 n + 1) (n - 2)) (repunitPower n v (Nat.log2 n + 1) (n - 2))))

/-- INV_NONINV: the value TINV writes for a non-invertible input, well formed and otherwise free (R131). -/
def nonInvertibleResult (p : Params) (v : TernaryPoly) : TernaryPoly :=
  encodeTrits ((List.range p.n).map fun k => (Config.invNonInv p v k).val)

/-- The ternary inverse of R130: the canonical value whose product with `v` is ONE if there is one, else INV_NONINV.
The candidate is canonical, being a product; it is accepted only if the product of R130 is ONE. -/
def ternaryInverse (p : Params) (v : TernaryPoly) : TernaryPoly :=
  if ternaryMul p.n v (inverseCandidate p.n v) = ternaryOne then inverseCandidate p.n v else nonInvertibleResult p v

/-- The product of two TruncRing values modulo x^N - 1 and modulo Q (R153); the portable and the accelerated path both
compute it (R154). -/
def truncMul (n q : Nat) (a b : TruncPoly) : TruncPoly := (cyclicConv n a b).map fun c => c % q

/-- Every coefficient times the multiplier, modulo Q (R157). -/
def truncScale (q m : Nat) (a : TruncPoly) : TruncPoly := a.map fun c => c * (m % q) % q

/-- Every coefficient negated modulo Q (R158). -/
def truncNeg (q : Nat) (a : TruncPoly) : TruncPoly := a.map fun c => (q - c) % q

/-- A ternary residue in the truncated ring: 0 to 0, 1 to 1, 2 (that is -1) to Q-1, modulo Q (R159). -/
def liftTrit (q t : Nat) : Nat := (if t = 2 then q - 1 else t) % q

/-- The lift of a ternary value, coefficient by coefficient, with no reduction modulo PHI (R159). -/
def truncOfTernary (n q : Nat) (v : TernaryPoly) : TruncPoly := (trits n v).map (liftTrit q)

end Sys2Proof.Machine
end

