-- ==== Sys2Proof/Machine/Sampler.lean ====
section
/-!
DEFINITION. The sampler instructions SAMPB and SAMPT (spec/43_sampler.md): pure functions of the bytes they read.
-/

namespace Sys2Proof.Machine

/-- The BitPoly at address `ea`: bit k is bit k mod 8 of byte k div 8, and padding bits are ignored (R64, R181). -/
def loadBitPoly (s : State) (ea : Word) : BitPoly :=
  maskBits s.params.n (leNat (loadBytes s ea s.params.bpBytes))

/-- The raw nonzero plane of the TernaryPoly at `ea`, at EA + BP_BYTES (R65, R182). -/
def loadSecondPlane (s : State) (ea : Word) : BitPoly :=
  maskBits s.params.n (leNat (s.mem.readBytes (ea.toNat + s.params.bpBytes) s.params.bpBytes))

/-- The validity repair: the nonzero plane or the sign plane, so that (1,0) becomes (1,1), that is -1 (R182). -/
def repair (sign raw : BitPoly) : TernaryPoly := { s := sign, a := raw ||| sign }

/-- SAMPB: B[d] <- the N bits at EA (R181). -/
def execSampb (d : BReg) (s1 : XReg) (imm : BitVec 16) (s : State) : Result :=
  checked s (effAddr s s1 imm) 8 s.params.bpBytes
    (advance (setB d (loadBitPoly s (effAddr s s1 imm)) s))

/-- SAMPT: T[d] <- the repaired ternary value whose raw planes lie at EA (R182). -/
def execSampt (d : TReg) (s1 : XReg) (imm : BitVec 16) (s : State) : Result :=
  checked s (effAddr s s1 imm) 8 s.params.tpBytes
    (advance (setT d (repair (loadBitPoly s (effAddr s s1 imm)) (loadSecondPlane s (effAddr s s1 imm))) s))

end Sys2Proof.Machine
end

