-- ==== Sys2Proof/Machine/Sequencer.lean ====
section
/-!
DEFINITION. The sequencer instructions NOP, HALT, LI, LUI, ADDI, LW, SW, JMP and DJNZ (spec/44_sequencer.md).
-/

namespace Sys2Proof.Machine

/-- NOP: only the pc advances (R190). -/
def execNop (s : State) : Result := .next (advance s)

/-- HALT: the run ends with DONE (R192). -/
def execHalt (s : State) : Result := .next (endByHalt s)

/-- LI: X[d] <- zext_32(imm16) (R193). -/
def execLi (d : XReg) (imm : BitVec 16) (s : State) : Result := .next (advance (setX d (uimm imm) s))

/-- LUI: X[d] <- imm16 in the high half, zeros below (R194). -/
def execLui (d : XReg) (imm : BitVec 16) (s : State) : Result := .next (advance (setX d (hiimm imm) s))

/-- ADDI: X[d] <- (X[s1] + sext_32(imm16)) mod 2^32 (R195). -/
def execAddi (d s1 : XReg) (imm : BitVec 16) (s : State) : Result :=
  .next (advance (setX d (getX s s1 + simm imm) s))

/-- LW: X[d] <- the little-endian word at EA (R196). -/
def execLw (d s1 : XReg) (imm : BitVec 16) (s : State) : Result :=
  checked s (effAddr s s1 imm) 4 4
    (advance (setX d (BitVec.ofNat 32 (leNat (loadBytes s (effAddr s s1 imm) 4))) s))

/-- SW: the four bytes of X[s2] at EA (R199). -/
def execSw (s1 s2 : XReg) (imm : BitVec 16) (s : State) : Result :=
  checked s (effAddr s s1 imm) 4 4
    (advance (storeBytes (effAddr s s1 imm) (toBytes 4 (getX s s2).toNat) s))

/-- JMP: the pc moves by the word-scaled offset (R197). -/
def execJmp (imm : BitVec 16) (s : State) : Result := .next (jumpBy imm s)

/-- DJNZ: X[d] is decremented modulo 2^32, and the pc moves by the offset unless it became 0 (R198). -/
def execDjnz (d : XReg) (imm : BitVec 16) (s : State) : Result :=
  if getX s d - 1 ≠ 0 then .next (jumpBy imm (setX d (getX s d - 1) s))
  else .next (advance (setX d (getX s d - 1) s))

end Sys2Proof.Machine
end

