-- ==== Sys2Proof/Machine/BitPoly.lean ====
section
/-!
DEFINITION. The BitPoly instructions BST, BXOR and BROTR (spec/40_bitpoly.md).
-/

namespace Sys2Proof.Machine

/-- The BP_BYTES bytes of a BitPoly in memory: bit k in bit k mod 8 of byte k div 8, padding bits 0 (R64, R101). -/
def bitPolyBytes (p : Params) (v : BitPoly) : List Byte := toBytes p.bpBytes (maskBits p.n v)

/-- BST: the bytes of B[s2] at EA (R101). -/
def execBst (s1 : XReg) (s2 : BReg) (imm : BitVec 16) (s : State) : Result :=
  checked s (effAddr s s1 imm) 8 s.params.bpBytes
    (advance (storeBytes (effAddr s s1 imm) (bitPolyBytes s.params (getB s s2)) s))

/-- BXOR: B[d] <- B[s1] xor B[s2], bit by bit (R102). -/
def execBxor (d s1 s2 : BReg) (s : State) : Result := .next (advance (setB d (getB s s1 ^^^ getB s s2) s))

/-- BROTR: B[d] <- B[s1] rotated right by X[s2], which must not exceed N (R103). -/
def execBrotr (d s1 : BReg) (s2 : XReg) (s : State) : Result :=
  if (getX s s2).toNat > s.params.n then .next (raise .operandRange (getX s s2) s)
  else .next (advance (setB d (rotateRight s.params.n (getB s s1) (getX s s2).toNat) s))

end Sys2Proof.Machine
end

