-- ==== Sys2Proof/Machine/Ternary.lean ====
section
/-!
DEFINITION. The TernaryPoly instructions TST, TMUL and TINV (spec/41_ternary.md).
-/

namespace Sys2Proof.Machine

/-- The TP_BYTES bytes of a TernaryPoly in memory: the sign plane, then the nonzero plane (R65, R125). -/
def ternaryBytes (p : Params) (v : TernaryPoly) : List Byte := bitPolyBytes p v.s ++ bitPolyBytes p v.a

/-- TST: the bytes of T[s2] at EA (R125). -/
def execTst (s1 : XReg) (s2 : TReg) (imm : BitVec 16) (s : State) : Result :=
  checked s (effAddr s s1 imm) 8 s.params.tpBytes
    (advance (storeBytes (effAddr s s1 imm) (ternaryBytes s.params (getT s s2)) s))

/-- TMUL: T[d] <- ENC(RED(CONV3(T[s1], T[s2]))) (R126). -/
def execTmul (d s1 s2 : TReg) (s : State) : Result :=
  .next (advance (setT d (ternaryMul s.params.n (getT s s1) (getT s s2)) s))

/-- TINV: T[d] <- the inverse of T[s1] modulo PHI, or INV_NONINV (R130, R131). -/
def execTinv (d s1 : TReg) (s : State) : Result :=
  .next (advance (setT d (ternaryInverse s.params (getT s s1)) s))

end Sys2Proof.Machine
end

