-- ==== Sys2Proof/Machine/TruncRing.lean ====
section
/-!
DEFINITION. The TruncRing instructions RLD, RST, RMUL, RSCALE, RNEG and RFROMT (spec/42_truncring.md).
-/

namespace Sys2Proof.Machine

/-- The TruncRing value at `ea`: the low LOG_Q bits of each of N halfwords (R66, R150). -/
def loadTrunc (s : State) (ea : Word) : TruncPoly :=
  (halfwords (loadBytes s ea s.params.rpBytes)).map fun v => v % s.params.q

/-- The RP_BYTES bytes of a TruncRing value in memory: coefficient k as a halfword at 2k (R66, R151). -/
def truncBytes (p : Params) (c : TruncPoly) : List Byte :=
  (List.range p.n).flatMap fun k => toBytes 2 (c.getD k 0)

/-- RLD: Z[d] <- the value at EA (R150). -/
def execRld (d : ZReg) (s1 : XReg) (imm : BitVec 16) (s : State) : Result :=
  checked s (effAddr s s1 imm) 2 s.params.rpBytes
    (advance (setZ d (loadTrunc s (effAddr s s1 imm)) s))

/-- RST: the bytes of Z[s2] at EA (R151). -/
def execRst (s1 : XReg) (s2 : ZReg) (imm : BitVec 16) (s : State) : Result :=
  checked s (effAddr s s1 imm) 2 s.params.rpBytes
    (advance (storeBytes (effAddr s s1 imm) (truncBytes s.params (getZ s s2)) s))

/-- RMUL: Z[d] <- the product modulo Q and modulo x^N - 1; CFG.ACCEL_EN does not matter (R153, R154). -/
def execRmul (d s1 s2 : ZReg) (s : State) : Result :=
  .next (advance (setZ d (truncMul s.params.n s.params.q (getZ s s1) (getZ s s2)) s))

/-- RSCALE: Z[d] <- every coefficient of Z[s1] times the immediate, modulo Q (R157). -/
def execRscale (d s1 : ZReg) (imm : BitVec 16) (s : State) : Result :=
  .next (advance (setZ d (truncScale s.params.q (uimm imm).toNat (getZ s s1)) s))

/-- RNEG: Z[d] <- every coefficient of Z[s1] negated modulo Q (R158). -/
def execRneg (d s1 : ZReg) (s : State) : Result :=
  .next (advance (setZ d (truncNeg s.params.q (getZ s s1)) s))

/-- RFROMT: Z[d] <- the lift of T[s1], coefficient by coefficient (R159). -/
def execRfromt (d : ZReg) (s1 : TReg) (s : State) : Result :=
  .next (advance (setZ d (truncOfTernary s.params.n s.params.q (getT s s1)) s))

end Sys2Proof.Machine
end

