-- ==== Sys2Proof/Syntax.lean ====
section
/-!
DEFINITION. The instructions of the PRE, one constructor for each row of spec/opcode_table.json, in the table's order
(spec/30_encoding.md rules R81 to R84). Register operands are numbers of the file the row names; an immediate is the
16 bits of the word, which each meaning reads as rule R82 says.
-/

namespace Sys2Proof

/-- An instruction. Every term is well formed: rule R83 makes each 3-bit register field and each 16-bit immediate legal. -/
inductive Instr where
  /-- NOP (R190) -/
  | nop
  /-- HALT (R192) -/
  | halt
  /-- LI xd, uimm (R193) -/
  | li (d : XReg) (imm : BitVec 16)
  /-- LUI xd, imm (R194) -/
  | lui (d : XReg) (imm : BitVec 16)
  /-- ADDI xd, xs1, simm (R195) -/
  | addi (d s1 : XReg) (imm : BitVec 16)
  /-- LW xd, uimm(xs1) (R196) -/
  | lw (d s1 : XReg) (imm : BitVec 16)
  /-- SW xs2, uimm(xs1) (R199) -/
  | sw (s1 s2 : XReg) (imm : BitVec 16)
  /-- JMP woff (R197) -/
  | jmp (imm : BitVec 16)
  /-- DJNZ xd, woff (R198) -/
  | djnz (d : XReg) (imm : BitVec 16)
  /-- SAMPB bd, uimm(xs1) (R181) -/
  | sampb (d : BReg) (s1 : XReg) (imm : BitVec 16)
  /-- BST bs2, uimm(xs1) (R101) -/
  | bst (s1 : XReg) (s2 : BReg) (imm : BitVec 16)
  /-- BXOR bd, bs1, bs2 (R102) -/
  | bxor (d s1 s2 : BReg)
  /-- BROTR bd, bs1, xs2 (R103) -/
  | brotr (d s1 : BReg) (s2 : XReg)
  /-- SAMPT td, uimm(xs1) (R182) -/
  | sampt (d : TReg) (s1 : XReg) (imm : BitVec 16)
  /-- TST ts2, uimm(xs1) (R125) -/
  | tst (s1 : XReg) (s2 : TReg) (imm : BitVec 16)
  /-- TMUL td, ts1, ts2 (R126) -/
  | tmul (d s1 s2 : TReg)
  /-- TINV td, ts1 (R130) -/
  | tinv (d s1 : TReg)
  /-- RLD zd, uimm(xs1) (R150) -/
  | rld (d : ZReg) (s1 : XReg) (imm : BitVec 16)
  /-- RST zs2, uimm(xs1) (R151) -/
  | rst (s1 : XReg) (s2 : ZReg) (imm : BitVec 16)
  /-- RMUL zd, zs1, zs2 (R153) -/
  | rmul (d s1 s2 : ZReg)
  /-- RSCALE zd, zs1, uimm (R157) -/
  | rscale (d s1 : ZReg) (imm : BitVec 16)
  /-- RNEG zd, zs1 (R158) -/
  | rneg (d s1 : ZReg)
  /-- RFROMT zd, ts1 (R159) -/
  | rfromt (d : ZReg) (s1 : TReg)
  deriving DecidableEq, Repr

end Sys2Proof
end

