-- ==== Sys2Proof/Machine/Dispatch.lean ====
section
/-!
DEFINITION. The meaning of every instruction, one arm for each constructor of `Instr`.
-/

namespace Sys2Proof.Machine

def exec (i : Instr) (s : State) : Host.Outcome State Fault Refusal :=
  match i with
  | .nop => Sys2Proof.Machine.execNop s
  | .halt => Sys2Proof.Machine.execHalt s
  | .li d imm => Sys2Proof.Machine.execLi d imm s
  | .lui d imm => Sys2Proof.Machine.execLui d imm s
  | .addi d s1 imm => Sys2Proof.Machine.execAddi d s1 imm s
  | .lw d s1 imm => Sys2Proof.Machine.execLw d s1 imm s
  | .sw s1 s2 imm => Sys2Proof.Machine.execSw s1 s2 imm s
  | .jmp imm => Sys2Proof.Machine.execJmp imm s
  | .djnz d imm => Sys2Proof.Machine.execDjnz d imm s
  | .sampb d s1 imm => Sys2Proof.Machine.execSampb d s1 imm s
  | .bst s1 s2 imm => Sys2Proof.Machine.execBst s1 s2 imm s
  | .bxor d s1 s2 => Sys2Proof.Machine.execBxor d s1 s2 s
  | .brotr d s1 s2 => Sys2Proof.Machine.execBrotr d s1 s2 s
  | .sampt d s1 imm => Sys2Proof.Machine.execSampt d s1 imm s
  | .tst s1 s2 imm => Sys2Proof.Machine.execTst s1 s2 imm s
  | .tmul d s1 s2 => Sys2Proof.Machine.execTmul d s1 s2 s
  | .tinv d s1 => Sys2Proof.Machine.execTinv d s1 s
  | .rld d s1 imm => Sys2Proof.Machine.execRld d s1 imm s
  | .rst s1 s2 imm => Sys2Proof.Machine.execRst s1 s2 imm s
  | .rmul d s1 s2 => Sys2Proof.Machine.execRmul d s1 s2 s
  | .rscale d s1 imm => Sys2Proof.Machine.execRscale d s1 imm s
  | .rneg d s1 => Sys2Proof.Machine.execRneg d s1 s
  | .rfromt d s1 => Sys2Proof.Machine.execRfromt d s1 s

end Sys2Proof.Machine
end

