-- ==== Sys2Proof/Decode.lean ====
section
/-!
DEFINITION. The decoder, total on every list of bytes, and the encoder (spec/30_encoding.md rules R80 to R86).
An instruction is one 32-bit word, little-endian. The decoder refuses a word by name; every such word is illegal (R85).
-/

namespace Sys2Proof

open Sys2Proof.Machine (leNat toBytes)

/-- Why bytes are no instruction. -/
inductive DecodeError where
  /-- fewer than the four bytes of a word (R80); a fetch always reads four -/
  | truncated
  /-- the opcode is not in the table (R86) -/
  | reservedOpcode
  /-- rsv = w[16] is 1 (R85) -/
  | reservedBit
  /-- a field that the row marks unused is not zero (R83, R85) -/
  | unusedField
  deriving DecidableEq, Repr

/-- The fields of an instruction word (R81). -/
structure Fields where
  op : BitVec 6
  d : BitVec 3
  s1 : BitVec 3
  s2 : BitVec 3
  rsv : BitVec 1
  imm : BitVec 16
  deriving DecidableEq, Repr

/-- The fields of a word: op = w[31:26], d = w[25:23], s1 = w[22:20], s2 = w[19:17], rsv = w[16], imm16 = w[15:0] (R81). -/
def fieldsOf (w : Word) : Fields :=
  { op := w.extractLsb' 26 6, d := w.extractLsb' 23 3, s1 := w.extractLsb' 20 3, s2 := w.extractLsb' 17 3,
    rsv := w.extractLsb' 16 1, imm := w.extractLsb' 0 16 }

/-- The word with the given fields (R81). -/
def packFields (f : Fields) : Word := f.op ++ f.d ++ f.s1 ++ f.s2 ++ f.rsv ++ f.imm

/-- The register a 3-bit field names; every value names one (R81, R83). -/
def regOf (f : BitVec 3) : Fin 8 := f.toFin

/-- The 3-bit field that names a register. -/
def fieldOf (r : Fin 8) : BitVec 3 := BitVec.ofFin r

/-- An instruction if the fields its row marks unused are zero, else the refusal (R85). -/
def ifUnusedZero (zero : Bool) (i : Instr) : Except DecodeError Instr :=
  if zero then .ok i else .error .unusedField

/-- The instruction with the given fields (R84, R85). -/
def decodeFields (f : Fields) : Except DecodeError Instr :=
  let d := regOf f.d
  let s1 := regOf f.s1
  let s2 := regOf f.s2
  let noD := f.d == 0
  let noS1 := f.s1 == 0
  let noS2 := f.s2 == 0
  let noImm := f.imm == 0
  if f.rsv ≠ 0 then .error .reservedBit else
  match f.op with
  | 0x00#6 => ifUnusedZero (noD && noS1 && noS2 && noImm) .nop
  | 0x01#6 => ifUnusedZero (noD && noS1 && noS2 && noImm) .halt
  | 0x02#6 => ifUnusedZero (noS1 && noS2) (.li d f.imm)
  | 0x03#6 => ifUnusedZero (noS1 && noS2) (.lui d f.imm)
  | 0x04#6 => ifUnusedZero noS2 (.addi d s1 f.imm)
  | 0x05#6 => ifUnusedZero noS2 (.lw d s1 f.imm)
  | 0x06#6 => ifUnusedZero noD (.sw s1 s2 f.imm)
  | 0x07#6 => ifUnusedZero (noD && noS1 && noS2) (.jmp f.imm)
  | 0x08#6 => ifUnusedZero (noS1 && noS2) (.djnz d f.imm)
  | 0x10#6 => ifUnusedZero noS2 (.sampb d s1 f.imm)
  | 0x11#6 => ifUnusedZero noD (.bst s1 s2 f.imm)
  | 0x12#6 => ifUnusedZero noImm (.bxor d s1 s2)
  | 0x13#6 => ifUnusedZero noImm (.brotr d s1 s2)
  | 0x18#6 => ifUnusedZero noS2 (.sampt d s1 f.imm)
  | 0x19#6 => ifUnusedZero noD (.tst s1 s2 f.imm)
  | 0x1A#6 => ifUnusedZero noImm (.tmul d s1 s2)
  | 0x1B#6 => ifUnusedZero (noS2 && noImm) (.tinv d s1)
  | 0x20#6 => ifUnusedZero noS2 (.rld d s1 f.imm)
  | 0x21#6 => ifUnusedZero noD (.rst s1 s2 f.imm)
  | 0x22#6 => ifUnusedZero noImm (.rmul d s1 s2)
  | 0x23#6 => ifUnusedZero noS2 (.rscale d s1 f.imm)
  | 0x24#6 => ifUnusedZero (noS2 && noImm) (.rneg d s1)
  | 0x25#6 => ifUnusedZero (noS2 && noImm) (.rfromt d s1)
  | _ => .error .reservedOpcode

/-- The instruction an instruction word stands for, or why it is illegal (R85). -/
def decodeWord (w : Word) : Except DecodeError Instr := decodeFields (fieldsOf w)

/-- The decoder on bytes: it takes the four bytes of one word (R80) and answers the instruction and the bytes left over. -/
def decodeBytes : List Byte → Except DecodeError (Instr × List Byte)
  | b0 :: b1 :: b2 :: b3 :: rest =>
    match decodeWord (BitVec.ofNat 32 (leNat [b0, b1, b2, b3])) with
    | .ok i => .ok (i, rest)
    | .error e => .error e
  | _ => .error .truncated

/-- The opcode of an instruction (R84). -/
def opcodeOf : Instr → BitVec 6
  | .nop => 0x00#6
  | .halt => 0x01#6
  | .li _ _ => 0x02#6
  | .lui _ _ => 0x03#6
  | .addi _ _ _ => 0x04#6
  | .lw _ _ _ => 0x05#6
  | .sw _ _ _ => 0x06#6
  | .jmp _ => 0x07#6
  | .djnz _ _ => 0x08#6
  | .sampb _ _ _ => 0x10#6
  | .bst _ _ _ => 0x11#6
  | .bxor _ _ _ => 0x12#6
  | .brotr _ _ _ => 0x13#6
  | .sampt _ _ _ => 0x18#6
  | .tst _ _ _ => 0x19#6
  | .tmul _ _ _ => 0x1A#6
  | .tinv _ _ => 0x1B#6
  | .rld _ _ _ => 0x20#6
  | .rst _ _ _ => 0x21#6
  | .rmul _ _ _ => 0x22#6
  | .rscale _ _ _ => 0x23#6
  | .rneg _ _ => 0x24#6
  | .rfromt _ _ => 0x25#6

/-- Fields with the given opcode and operands; an unused field is 0 (R83). -/
def mkFields (op : BitVec 6) (d s1 s2 : Fin 8) (imm : BitVec 16) : Fields :=
  { op := op, d := fieldOf d, s1 := fieldOf s1, s2 := fieldOf s2, rsv := 0, imm := imm }

/-- The fields that encode an instruction (R84). -/
def encodeFields (i : Instr) : Fields :=
  match i with
  | .nop => mkFields (opcodeOf i) 0 0 0 0
  | .halt => mkFields (opcodeOf i) 0 0 0 0
  | .li d imm => mkFields (opcodeOf i) d 0 0 imm
  | .lui d imm => mkFields (opcodeOf i) d 0 0 imm
  | .addi d s1 imm => mkFields (opcodeOf i) d s1 0 imm
  | .lw d s1 imm => mkFields (opcodeOf i) d s1 0 imm
  | .sw s1 s2 imm => mkFields (opcodeOf i) 0 s1 s2 imm
  | .jmp imm => mkFields (opcodeOf i) 0 0 0 imm
  | .djnz d imm => mkFields (opcodeOf i) d 0 0 imm
  | .sampb d s1 imm => mkFields (opcodeOf i) d s1 0 imm
  | .bst s1 s2 imm => mkFields (opcodeOf i) 0 s1 s2 imm
  | .bxor d s1 s2 => mkFields (opcodeOf i) d s1 s2 0
  | .brotr d s1 s2 => mkFields (opcodeOf i) d s1 s2 0
  | .sampt d s1 imm => mkFields (opcodeOf i) d s1 0 imm
  | .tst s1 s2 imm => mkFields (opcodeOf i) 0 s1 s2 imm
  | .tmul d s1 s2 => mkFields (opcodeOf i) d s1 s2 0
  | .tinv d s1 => mkFields (opcodeOf i) d s1 0 0
  | .rld d s1 imm => mkFields (opcodeOf i) d s1 0 imm
  | .rst s1 s2 imm => mkFields (opcodeOf i) 0 s1 s2 imm
  | .rmul d s1 s2 => mkFields (opcodeOf i) d s1 s2 0
  | .rscale d s1 imm => mkFields (opcodeOf i) d s1 0 imm
  | .rneg d s1 => mkFields (opcodeOf i) d s1 0 0
  | .rfromt d s1 => mkFields (opcodeOf i) d s1 0 0

/-- The word that encodes an instruction (R84). -/
def encode (i : Instr) : Word := packFields (encodeFields i)

/-- The four bytes of an instruction as local memory holds them (R61, R80). -/
def encodeBytes (i : Instr) : List Byte := toBytes 4 (encode i).toNat

/-- The instruction the decoder reads from a table word `w` of `nbits` bits; every bit above them is 0. -/
def decodeTableWord (nbits w : Nat) : Option Instr :=
  match decodeBytes (toBytes 4 (w % 2 ^ nbits)) with
  | .ok (i, _) => some i
  | .error _ => none

end Sys2Proof
end

