-- ==== Sys2Proof/Machine/Fetch.lean ====
section
/-!
DEFINITION. Fetching and decoding the instruction at pc (spec/44_sequencer.md rule R191, spec/60_exceptions.md rules R223
and R229), and placing a word where the next fetch reads it.
-/

namespace Sys2Proof.Machine

/-- What a fetch gives: a fault with its info, or an instruction. -/
inductive Fetched where
  | fault (c : Cause) (info : Word)
  | instr (i : Instr)
  deriving DecidableEq, Repr

/-- The four bytes at pc (R80). -/
def fetchBytes (s : State) : List Byte := s.mem.readBytes s.pc.toNat 4

/-- The word at pc, little-endian (R80, R61). -/
def fetchWord (s : State) : Word := BitVec.ofNat 32 (leNat (fetchBytes s))

/-- Fetch and decode: FETCH_RANGE before the word is read, then ILLEGAL with the word as info (R191, R229). -/
def fetch (s : State) : Fetched :=
  if s.pc.toNat + 4 > s.params.memBytes then .fault .fetchRange s.pc
  else match decodeBytes (fetchBytes s) with
    | .ok (i, _) => .instr i
    | .error _ => .fault .illegal (fetchWord s)

/-- The host has started a run if none is in progress (R265). -/
def running (s : State) : State := if s.busy then s else startRun s

/-- The pc at which a word can be placed: pc itself, or 0 where four bytes at pc do not lie in memory. -/
def placeable (s : State) : State := if s.pc.toNat + 4 > s.params.memBytes then { s with pc := 0 } else s

/-- The sequencer steps next: host steps that stand before its next turn are dropped. -/
def sequencerNext (s : State) : State :=
  { s with agenda := s.agenda.dropWhile fun t => t != .sequencer }

/-- The four bytes of a table word placed at pc. -/
def placeWord (s : State) (nbits w : Nat) : State :=
  { s with mem := s.mem.writeBytes s.pc.toNat (toBytes 4 (w % 2 ^ nbits)) }

end Sys2Proof.Machine
end

