-- ==== Sys2Proof/Machine/Flags.lean ====
section
/-!
DEFINITION. The PRE has no flags, condition codes or predicates, and no instruction but HALT and a fault touches a status
bit (spec/10_state.md rule R30). What stands here instead of flag computations is what is computed from the status bits:
the STATUS word (R48), the IRQ output (R54) and the cause code of ERRCAUSE (R51, R221).
-/

namespace Sys2Proof.Machine

/-- A bit at its place in a 32-bit register. -/
def bitAt (v : Bool) (k : Nat) : Word := if v then 1#32 <<< k else 0

/-- STATUS: BUSY in bit 0, DONE in bit 1, ERR in bit 2, zeros above (R48). -/
def statusWord (s : State) : Word := bitAt s.busy 0 ||| bitAt s.done 1 ||| bitAt s.err 2

/-- IRQ = CTRL.IE and (STATUS.DONE or STATUS.ERR) (R54). -/
def irq (s : State) : Bool := s.ie && (s.done || s.err)

/-- The code of a fault cause (R221). -/
def causeCode : Cause → Word
  | .none => 0
  | .fetchRange => 1
  | .illegal => 2
  | .misaligned => 3
  | .memRange => 4
  | .operandRange => 5
  | .aborted => 6

end Sys2Proof.Machine
end

