-- ==== Sys2Proof/Machine/Csr.lean ====
section
/-!
DEFINITION. The host's register window: what a 32-bit read gives and what a 32-bit write does (spec/10_state.md rules R40
to R54, spec/60_exceptions.md rule R230, spec/70_reset_and_hazards.md rules R265 and R268).
-/

namespace Sys2Proof.Machine

/-- PARAM_Q: LOG_Q in bits 4:0, WORD_BITS = 64 in bits 15:8, zeros elsewhere (R44). -/
def paramQWord (p : Params) : Word := BitVec.ofNat 32 (p.logQ % 32) ||| BitVec.ofNat 32 64 <<< 8

/-- CFG: ACCEL_EN in bit 0, LOCK in bit 31, zeros between (R46). -/
def cfgWord (s : State) : Word := bitAt s.accelEn 0 ||| bitAt s.lock 31

/-- PC: the next instruction's address while a run is in progress, else the pc at which the last run ended (R50). -/
def pcWord (s : State) : Word := if s.busy then s.pc else s.pcReg

/-- The value of a 32-bit read at a window offset; an unmapped offset reads 0 (R40 to R53). -/
def csrValue (s : State) (offset : Nat) : Word :=
  match offset with
  | 0x000 => 0x50524531#32
  | 0x004 => BitVec.ofNat 32 (s.params.n % 65536)
  | 0x008 => paramQWord s.params
  | 0x00C => BitVec.ofNat 32 s.params.memBytes
  | 0x010 => bitAt s.params.accel 0
  | 0x014 => cfgWord s
  | 0x018 => bitAt s.ie 3
  | 0x01C => statusWord s
  | 0x020 => entryWord s
  | 0x024 => pcWord s
  | 0x028 => causeCode s.errCause
  | 0x02C => s.errPc
  | 0x030 => s.errInfo
  | _ => 0

/-- A write of CFG: no effect while locked or busy; else ACCEL_EN takes bit 0 if the part has the path, and LOCK is set by
bit 31 (R46). -/
def writeCfg (v : Word) (s : State) : State :=
  if s.lock || s.busy then s
  else { s with accelEn := v.getLsbD 0 && s.params.accel, lock := s.lock || v.getLsbD 31 }

/-- The ABORT action bit: while busy, the run ends by rule R227 with cause ABORTED and info 0; else nothing (R47, R230). -/
def abortAction (act : Bool) (s : State) : State := if act && s.busy then raise .aborted 0 s else s

/-- The WIPE action bit: while idle, memory and registers are zeroed; else nothing (R47, R268). -/
def wipeAction (act : Bool) (s : State) : State := if act && !s.busy then wipe s else s

/-- The START action bit: while idle, a run starts; else nothing (R47, R265). -/
def startAction (act : Bool) (s : State) : State := if act && !s.busy then startRun s else s

/-- A write of CTRL: bit 3 is stored into IE, and the action bits act in the order ABORT, WIPE, START, each tested against
BUSY as it stands then (R47). -/
def writeCtrl (v : Word) (s : State) : State :=
  startAction (v.getLsbD 0) (wipeAction (v.getLsbD 2) (abortAction (v.getLsbD 1) { s with ie := v.getLsbD 3 }))

/-- A write of STATUS: DONE and ERR are cleared by ones (R48). -/
def writeStatus (v : Word) (s : State) : State :=
  { s with done := s.done && !v.getLsbD 1, err := s.err && !v.getLsbD 2 }

/-- A write of ENTRY: bits 31:2 are stored while idle; no effect while busy (R49). -/
def writeEntry (v : Word) (s : State) : State := if s.busy then s else { s with entry := v.extractLsb' 2 30 }

/-- A 32-bit write at a window offset; a read-only register and an unmapped offset ignore it (R40 to R53). -/
def csrUpdate (offset : Nat) (v : Word) (s : State) : State :=
  match offset with
  | 0x014 => writeCfg v s
  | 0x018 => writeCtrl v s
  | 0x01C => writeStatus v s
  | 0x020 => writeEntry v s
  | _ => s

end Sys2Proof.Machine
end

