-- ==== Sys2Proof/Machine/HostPort.lean ====
section
/-!
DEFINITION. One step of the host: an access of the CSR window, an access of local memory, or the reset input
(spec/20_memory.md rule R78, spec/60_exceptions.md rules R245 and R247, spec/70_reset_and_hazards.md rule R260).
An access that breaks a duty of the host is refused by name: the spec gives no result for it (R247).
-/

namespace Sys2Proof.Machine

/-- The access is an aligned 32-bit access of the 256-byte window (R40). -/
def csrAccessOk (offset width : Nat) : Bool := width == 4 && offset % 4 == 0 && decide (offset + 4 ≤ 256)

/-- The access has width 1, 2 or 4, is aligned, and lies in local memory (R78). -/
def hostAccessOk (s : State) (addr n : Nat) : Bool :=
  (n == 1 || n == 2 || n == 4) && addr % n == 0 && decide (addr + n ≤ s.params.memBytes)

/-- The host is given a value. -/
def reply (v : Word) (s : State) : State := { s with replies := v :: s.replies }

/-- The reset input: every piece of state takes its value of rule R55, and memory is unspecified again (R260, R79).
What the host does next and what it has read are the host's, and stay. -/
def resetInput (s : State) : State :=
  { resetState s.params (s.mem.epoch + 1) with agenda := s.agenda, replies := s.replies }

/-- A read of the CSR window (R40, R247). -/
def hostCsrRead (offset width : Nat) (s : State) : Result :=
  if csrAccessOk offset width then .next (reply (csrValue s offset) s) else .refused .hostCsrAccess

/-- A write of the CSR window (R40, R247). -/
def hostCsrWrite (offset width : Nat) (data : Word) (s : State) : Result :=
  if csrAccessOk offset width then .next (csrUpdate offset data s) else .refused .hostCsrAccess

/-- HostMemRead(addr, n) (R78). -/
def hostMemRead (addr n : Nat) (s : State) : Result :=
  if s.busy then .refused .hostMemoryWhileBusy
  else if hostAccessOk s addr n then .next (reply (BitVec.ofNat 32 (leNat (s.mem.readBytes addr n))) s)
  else .refused .hostMemoryAccess

/-- HostMemWrite(addr, n, v): the low 8n bits of v (R78). -/
def hostMemWrite (addr n : Nat) (v : Word) (s : State) : Result :=
  if s.busy then .refused .hostMemoryWhileBusy
  else if hostAccessOk s addr n then .next { s with mem := s.mem.writeBytes addr (toBytes n v.toNat) }
  else .refused .hostMemoryAccess

/-- The effect of one host step. -/
def hostStep (a : HostAct) (s : State) : Result :=
  match a with
  | .csrRead offset width => hostCsrRead offset width s
  | .csrWrite offset width data => hostCsrWrite offset width data s
  | .memRead addr n => hostMemRead addr n s
  | .memWrite addr n v => hostMemWrite addr n v s
  | .reset => .next (resetInput s)

end Sys2Proof.Machine
end

