-- ==== Sys2Proof/Machine/Step.lean ====
section
/-!
DEFINITION. One step of the machine: the agent whose turn it is steps (spec/00_scope.md rule R18, spec/60_exceptions.md
rules R220 and R232). A sequencer step fetches, decodes and executes one instruction (spec/44_sequencer.md rule R191).
-/

namespace Sys2Proof.Machine

/-- One sequencer step: nothing while idle (R220); else fetch, decode and execute, or take the fetch's fault (R191). -/
def sequencerStep (s : State) : Result :=
  if s.busy then
    match fetch s with
    | .fault c info => .next (raise c info s)
    | .instr i => exec i s
  else .next s

/-- One step: the agenda's next turn, or the sequencer's where the agenda is empty. -/
def step (s : State) : Host.Outcome State Fault Refusal :=
  match s.agenda with
  | [] => sequencerStep s
  | .sequencer :: rest => sequencerStep { s with agenda := rest }
  | .host a :: rest => hostStep a { s with agenda := rest }

/-- `s` with the table word `w` of `nbits` bits where the next step fetches: a run is in progress, the sequencer is next,
and the word's bytes lie at pc. It stands for the host loading a program and writing CTRL.START. notes/assumptions/8.md. -/
def State.withFetchWord (s : State) (nbits w : Nat) : State :=
  placeWord (sequencerNext (placeable (running s))) nbits w

end Sys2Proof.Machine
end

