-- ==== Sys2Proof/Machine/Pseudo.lean ====
section
/-!
DEFINITION. The pseudo-instructions of the assembly language and their expansions (spec/30_encoding.md rule R89). They are
a reading aid (R19): the machine runs the instructions they stand for.
-/

namespace Sys2Proof.Machine

/-- MV xd, xs (R89). -/
def pseudoMv (d s1 : XReg) : List Instr := [.addi d s1 0]

/-- J target, with the word offset of the target (R89). -/
def pseudoJ (imm : BitVec 16) : List Instr := [.jmp imm]

/-- The low half of LI32's value (R89): ADDI adds it sign-extended. -/
def li32Low (v : Word) : BitVec 16 := v.extractLsb' 0 16

/-- The high half LI32 loads: ((v - lo) mod 2^32) >> 16 with lo the sign-extended low half (R89). -/
def li32High (v : Word) : BitVec 16 := (v - (li32Low v).signExtend 32).extractLsb' 16 16

/-- LI32 xd, v: LI where v is below 65536, else LUI and ADDI (R89). -/
def pseudoLi32 (d : XReg) (v : Word) : List Instr :=
  if v.toNat < 65536 then [.li d (li32Low v)] else [.lui d (li32High v), .addi d d (li32Low v)]

/-- LOOP xd, n (R89). -/
def pseudoLoop (d : XReg) (n : BitVec 16) : List Instr := [.li d n]

end Sys2Proof.Machine
end

