-- ==== Sys2Proof/WellFormed.lean ====
section
/-!
DEFINITION. What is well formed: the parameters of a part (rule R7), the three kinds of polynomial (rule R17) and an
instruction word (rules R84 and R85). A term of `Instr` needs no check of its own: its types admit the legal operands only.
-/

namespace Sys2Proof

/-- The constraints of rule R7 on the parameters of a part. -/
structure Params.WF (p : Params) : Prop where
  prime : Nat.Prime p.n
  five_le_n : 5 ≤ p.n
  n_le : p.n ≤ 65535
  one_le_logQ : 1 ≤ p.logQ
  logQ_le : p.logQ ≤ 16
  mem_mod : p.memBytes % 8 = 0
  mem_ge : 4096 ≤ p.memBytes
  mem_le : p.memBytes ≤ 2 ^ 32

/-- A BitPoly of degree `n` is well formed: its bits at and above N are zero (R17, R22). -/
def BitPoly.wf (n : Nat) (p : BitPoly) : Bool := decide (p < 2 ^ n)

/-- A TernaryPoly is well formed: both planes are, and no coefficient is (1,0), that is, every bit of the sign plane is
in the nonzero plane too (R17, R23). -/
def TernaryPoly.wf (n : Nat) (v : TernaryPoly) : Bool :=
  BitPoly.wf n v.s && BitPoly.wf n v.a && v.s &&& v.a == v.s

/-- A ternary value is canonical: well formed, with coefficient N-1 zero (R17, R122). -/
def TernaryPoly.canonical (n : Nat) (v : TernaryPoly) : Bool :=
  v.wf n && !v.a.testBit (n - 1)

/-- A TruncRing value is well formed: N coefficients, each in [0, Q) (R17, R24). -/
def TruncPoly.wf (n logQ : Nat) (c : TruncPoly) : Bool :=
  c.length == n && c.all fun v => decide (v < 2 ^ logQ)

/-- One row of the opcode map of rule R84: a word selects it when the bits under `mask` are those of `value`. -/
structure OpRow where
  value : Word
  mask : Word
  deriving DecidableEq, Repr

/-- The word selects the row: (w and mask) = match (R84). -/
def OpRow.selects (r : OpRow) (w : Word) : Bool := w &&& r.mask == r.value

/-- The row of rule R84 of each instruction. -/
def Instr.row : Instr → OpRow
  | .nop        => ⟨0x00000000#32, 0xFFFFFFFF#32⟩
  | .halt       => ⟨0x04000000#32, 0xFFFFFFFF#32⟩
  | .li _ _     => ⟨0x08000000#32, 0xFC7F0000#32⟩
  | .lui _ _    => ⟨0x0C000000#32, 0xFC7F0000#32⟩
  | .addi _ _ _ => ⟨0x10000000#32, 0xFC0F0000#32⟩
  | .lw _ _ _   => ⟨0x14000000#32, 0xFC0F0000#32⟩
  | .sw _ _ _   => ⟨0x18000000#32, 0xFF810000#32⟩
  | .jmp _      => ⟨0x1C000000#32, 0xFFFF0000#32⟩
  | .djnz _ _   => ⟨0x20000000#32, 0xFC7F0000#32⟩
  | .sampb _ _ _ => ⟨0x40000000#32, 0xFC0F0000#32⟩
  | .bst _ _ _  => ⟨0x44000000#32, 0xFF810000#32⟩
  | .bxor _ _ _ => ⟨0x48000000#32, 0xFC01FFFF#32⟩
  | .brotr _ _ _ => ⟨0x4C000000#32, 0xFC01FFFF#32⟩
  | .sampt _ _ _ => ⟨0x60000000#32, 0xFC0F0000#32⟩
  | .tst _ _ _  => ⟨0x64000000#32, 0xFF810000#32⟩
  | .tmul _ _ _ => ⟨0x68000000#32, 0xFC01FFFF#32⟩
  | .tinv _ _   => ⟨0x6C000000#32, 0xFC0FFFFF#32⟩
  | .rld _ _ _  => ⟨0x80000000#32, 0xFC0F0000#32⟩
  | .rst _ _ _  => ⟨0x84000000#32, 0xFF810000#32⟩
  | .rmul _ _ _ => ⟨0x88000000#32, 0xFC01FFFF#32⟩
  | .rscale _ _ _ => ⟨0x8C000000#32, 0xFC0F0000#32⟩
  | .rneg _ _   => ⟨0x90000000#32, 0xFC0FFFFF#32⟩
  | .rfromt _ _ => ⟨0x94000000#32, 0xFC0FFFFF#32⟩

/-- The rows of rule R84, in the table's order. -/
def opRows : List OpRow :=
  [.nop, .halt, .li 0 0, .lui 0 0, .addi 0 0 0, .lw 0 0 0, .sw 0 0 0, .jmp 0, .djnz 0 0].map Instr.row
  ++ [.sampb 0 0 0, .bst 0 0 0, .bxor 0 0 0, .brotr 0 0 0, .sampt 0 0 0, .tst 0 0 0, .tmul 0 0 0, .tinv 0 0].map Instr.row
  ++ [.rld 0 0 0, .rst 0 0 0, .rmul 0 0 0, .rscale 0 0 0, .rneg 0 0, .rfromt 0 0].map Instr.row

/-- An instruction word is well formed when it selects a row of rule R84; any other word is illegal (R85). -/
def wordWellFormed (w : Word) : Bool := opRows.any fun r => r.selects w

end Sys2Proof
end

