-- ==== Sys2Proof/Safety.lean ====
section
/-!
DEFINITION. What is safe, in the terms claims use: the invariant of the machine, the memory access and the fault of each
instruction, the bytes it stores to, and what an observer of a run sees (spec/70_reset_and_hazards.md rule R276).
-/

namespace Sys2Proof.Machine

/-- Every X, B, T and Z register is zero (R27, R267). -/
def registersZero (s : State) : Prop :=
  (∀ r, getX s r = 0) ∧ (∀ r, getB s r = zeroBitPoly) ∧ (∀ r, getT s r = zeroTernary)
    ∧ ∀ r, getZ s r = zeroTrunc s.params.n

/-- Every polynomial register holds a well-formed value (R22, R23, R24). -/
structure RegistersWF (s : State) : Prop where
  b : ∀ r, BitPoly.wf s.params.n (getB s r) = true
  t : ∀ r, TernaryPoly.wf s.params.n (getT s r) = true
  z : ∀ r, TruncPoly.wf s.params.n s.params.logQ (getZ s r) = true

/-- Local memory is in canonical form and lies inside 0 .. MEM_BYTES-1 (R60). -/
structure MemoryWF (s : State) : Prop where
  canonical : s.mem.wf = true
  inside : s.mem.inside s.params.memBytes = true

/-- The status rules: DONE and ERR are never both 1 (R48), both are 0 and the fault registers 0 during a run (R265), the
fault registers are 0 after a HALT (R51), a cause stands while ERR does (R227), and ACCEL_EN needs the path (R46). -/
structure StatusWF (s : State) : Prop where
  exclusive : ¬ (s.done = true ∧ s.err = true)
  busy_status : s.busy = true → s.done = false ∧ s.err = false
  busy_fault : s.busy = true → s.errCause = .none ∧ s.errPc = 0 ∧ s.errInfo = 0
  done_fault : s.done = true → s.errCause = .none ∧ s.errPc = 0 ∧ s.errInfo = 0
  err_cause : s.err = true → s.errCause ≠ .none
  accel : s.accelEn = true → s.params.accel = true

/-- The invariant of the machine, which every step keeps. -/
structure Inv (s : State) : Prop where
  params : s.params.WF
  mem : MemoryWF s
  regs : RegistersWF s
  status : StatusWF s
  /-- pc is a multiple of 4 (R28) -/
  pc_aligned : s.pc.toNat % 4 = 0
  /-- every register is zero while no run is in progress (R27) -/
  idle_zero : s.busy = false → registersZero s
  /-- the PC register holds the pc while no run is in progress (R50) -/
  idle_pc : s.busy = false → s.pcReg = s.pc

/-- The next step is a sequencer step. -/
def sequencerTurn (s : State) : Prop := s.agenda = [] ∨ ∃ rest, s.agenda = .sequencer :: rest

/-- The state a step hands to the agent whose turn it is: its turn is taken off the agenda. -/
def turnTaken (s : State) : State := { s with agenda := s.agenda.tail }

/-- From `s` to `t` only the pc may change. -/
def ChangesPc (s t : State) : Prop := { t with pc := s.pc } = s

/-- From `s` to `t` only the pc and X[d] may change. -/
def ChangesX (d : XReg) (s t : State) : Prop :=
  { t with pc := s.pc, x := s.x } = s ∧ ∀ r, r ≠ d → getX t r = getX s r

/-- From `s` to `t` only the pc and B[d] may change. -/
def ChangesB (d : BReg) (s t : State) : Prop :=
  { t with pc := s.pc, b := s.b } = s ∧ ∀ r, r ≠ d → getB t r = getB s r

/-- From `s` to `t` only the pc and T[d] may change. -/
def ChangesT (d : TReg) (s t : State) : Prop :=
  { t with pc := s.pc, t := s.t } = s ∧ ∀ r, r ≠ d → getT t r = getT s r

/-- From `s` to `t` only the pc and Z[d] may change. -/
def ChangesZ (d : ZReg) (s t : State) : Prop :=
  { t with pc := s.pc, z := s.z } = s ∧ ∀ r, r ≠ d → getZ t r = getZ s r

/-- From `s` to `t` only the pc and the `size` bytes from address `first` on may change. -/
def ChangesMem (first size : Nat) (s t : State) : Prop :=
  { t with pc := s.pc, mem := s.mem } = s ∧ ∀ a, a < first ∨ first + size ≤ a → t.mem.read a = s.mem.read a

/-- From `s` to `t` a fault is taken, with cause `c` and info `info`: the effect of rule R227 and no other. -/
structure FaultTaken (c : Cause) (info : Word) (s t : State) : Prop where
  cause : t.errCause = c
  errPc : t.errPc = s.pc
  errInfo : t.errInfo = info
  pcReg : t.pcReg = s.pc
  err : t.err = true
  busy : t.busy = false
  zero : registersZero t
  rest : { t with
    x := s.x, b := s.b, t := s.t, z := s.z, errCause := s.errCause, errPc := s.errPc, errInfo := s.errInfo
    pcReg := s.pcReg, err := s.err, busy := s.busy } = s

/-- From `s` to `t` the run ends by HALT: the effect of rule R192 and no other. -/
structure HaltTaken (s t : State) : Prop where
  pcReg : t.pcReg = s.pc
  done : t.done = true
  busy : t.busy = false
  zero : registersZero t
  rest : { t with x := s.x, b := s.b, t := s.t, z := s.z, pcReg := s.pcReg, done := s.done, busy := s.busy } = s

/-- The instruction is the meaning of one word and of no other: the word with the fields op, d, s1, s2, rsv and imm16
(R81, R84). -/
def IsWordOf (i : Instr) (f : Fields) : Prop := ∀ w : Word, decodeWord w = .ok i ↔ w = packFields f

/-- One memory access: its address, the alignment it needs and its size in bytes (R62). -/
structure Access where
  ea : Word
  align : Nat
  size : Nat
  deriving DecidableEq, Repr

/-- The memory access of an instruction, by the table of rule R62; the other instructions make none. -/
def accessOf (i : Instr) (s : State) : Option Access :=
  match i with
  | .lw _ s1 imm => some ⟨effAddr s s1 imm, 4, 4⟩
  | .sw s1 _ imm => some ⟨effAddr s s1 imm, 4, 4⟩
  | .sampb _ s1 imm => some ⟨effAddr s s1 imm, 8, s.params.bpBytes⟩
  | .bst s1 _ imm => some ⟨effAddr s s1 imm, 8, s.params.bpBytes⟩
  | .sampt _ s1 imm => some ⟨effAddr s s1 imm, 8, s.params.tpBytes⟩
  | .tst s1 _ imm => some ⟨effAddr s s1 imm, 8, s.params.tpBytes⟩
  | .rld _ s1 imm => some ⟨effAddr s s1 imm, 2, s.params.rpBytes⟩
  | .rst s1 _ imm => some ⟨effAddr s s1 imm, 2, s.params.rpBytes⟩
  | .nop | .halt | .li _ _ | .lui _ _ | .addi _ _ _ | .jmp _ | .djnz _ _ => none
  | .bxor _ _ _ | .brotr _ _ _ | .tmul _ _ _ | .tinv _ _ => none
  | .rmul _ _ _ | .rscale _ _ _ | .rneg _ _ | .rfromt _ _ => none

/-- The access of `size` bytes at `ea` is aligned and in range (R67, R68). -/
def accessOk (s : State) (a : Access) : Prop :=
  a.ea.toNat % a.align = 0 ∧ a.ea.toNat + a.size ≤ s.params.memBytes

/-- The instruction `i` faults on the access `a` as rules R67 to R69 say: MISALIGNED where the address is no multiple of
the alignment, else MEM_RANGE where the bytes do not fit. -/
def FaultsOnAccess (i : Instr) (s : State) (a : Access) : Prop :=
  (a.ea.toNat % a.align ≠ 0 → ∃ t, exec i s = .next t ∧ FaultTaken .misaligned a.ea s t) ∧
  (a.ea.toNat % a.align = 0 → a.ea.toNat + a.size > s.params.memBytes →
    ∃ t, exec i s = .next t ∧ FaultTaken .memRange a.ea s t)

/-- The fault an instruction raises, with its info, or none if it completes: alignment before range for the eight memory
instructions, the shift range for BROTR, and none for the others (R221, R222, R229, R231). -/
def faultOf (i : Instr) (s : State) : Option (Cause × Word) :=
  match accessOf i s with
  | some a =>
    if a.ea.toNat % a.align ≠ 0 then some (.misaligned, a.ea)
    else if a.ea.toNat + a.size > s.params.memBytes then some (.memRange, a.ea)
    else none
  | none =>
    match i with
    | .brotr _ _ s2 => if (getX s s2).toNat > s.params.n then some (.operandRange, getX s s2) else none
    | _ => none

/-- The bytes an instruction stores to when it does not fault: first address and length. -/
def storeOf (i : Instr) (s : State) : Option (Nat × Nat) :=
  match i with
  | .sw s1 _ imm => some ((effAddr s s1 imm).toNat, 4)
  | .bst s1 _ imm => some ((effAddr s s1 imm).toNat, s.params.bpBytes)
  | .tst s1 _ imm => some ((effAddr s s1 imm).toNat, s.params.tpBytes)
  | .rst s1 _ imm => some ((effAddr s s1 imm).toNat, s.params.rpBytes)
  | .nop | .halt | .li _ _ | .lui _ _ | .addi _ _ _ | .lw _ _ _ | .jmp _ | .djnz _ _ => none
  | .sampb _ _ _ | .bxor _ _ _ | .brotr _ _ _ | .sampt _ _ _ | .tmul _ _ _ | .tinv _ _ => none
  | .rld _ _ _ | .rmul _ _ _ | .rscale _ _ _ | .rneg _ _ | .rfromt _ _ => none

/-- Address `a` is one of the bytes the instruction stores to. -/
def storesTo (i : Instr) (s : State) (a : Nat) : Prop :=
  ∃ first size, storeOf i s = some (first, size) ∧ first ≤ a ∧ a < first + size

/-- What an observer of a run sees of one sequencer step (R276): the pc, the fetched word, the effective address if any,
and the latency of the opcode. A fetch out of range has no word, and a step that faults has no latency (R275). -/
structure Observation where
  pc : Word
  word : Option Word
  ea : Option Word
  latency : Option Nat
  deriving DecidableEq, Repr

/-- LAT(op): a positive number that depends on the opcode, N, LOG_Q, MEM_BYTES and, for RMUL only, CFG.ACCEL_EN (R275). -/
def latencyOf (s : State) (i : Instr) : Nat :=
  Config.latencyLessOne (opcodeOf i) s.params.n s.params.logQ s.params.memBytes (opcodeOf i == 0x22#6 && s.accelEn) + 1

/-- What an observer sees of the sequencer step from `s` (R276). -/
def observe (s : State) : Observation :=
  if s.pc.toNat + 4 > s.params.memBytes then ⟨s.pc, none, none, none⟩
  else match fetch s with
    | .fault _ _ => ⟨s.pc, some (fetchWord s), none, none⟩
    | .instr i => ⟨s.pc, some (fetchWord s), (accessOf i s).map (·.ea),
        if faultOf i s = none then some (latencyOf s i) else none⟩

/-- The base register of the eight memory instructions (R63). -/
def baseOf (i : Instr) : Option XReg :=
  match i with
  | .lw _ s1 _ | .sw s1 _ _ | .sampb _ s1 _ | .bst s1 _ _ | .sampt _ s1 _ | .tst s1 _ _ | .rld _ s1 _ | .rst s1 _ _ => some s1
  | .nop | .halt | .li _ _ | .lui _ _ | .addi _ _ _ | .jmp _ | .djnz _ _ => none
  | .bxor _ _ _ | .brotr _ _ _ | .tmul _ _ _ | .tinv _ _ => none
  | .rmul _ _ _ | .rscale _ _ _ | .rneg _ _ | .rfromt _ _ => none

/-- How a run ends: by HALT, by which fault, or by ABORT (R266, R276); reset also stops it (R266). -/
inductive RunEnd where
  | halt
  | fault (c : Cause)
  | abort
  | reset
  deriving DecidableEq, Repr

/-- Whether the sequencer step from a busy state ends the run, and how: by the fault of its fetch, by HALT, or by the fault
of its instruction (R191, R192, R227). -/
def sequencerEnd (s : State) : Option RunEnd :=
  match fetch s with
  | .fault c _ => some (.fault c)
  | .instr i => if i = .halt then some .halt else (faultOf i s).map fun f => .fault f.1

/-- Whether a host step ends the run in progress, and how: a write of CTRL with its ABORT bit, or reset (R47, R230, R260). -/
def hostEnd (a : HostAct) : Option RunEnd :=
  match a with
  | .csrRead _ _ | .memRead _ _ | .memWrite _ _ _ => none
  | .csrWrite offset width v => if width = 4 ∧ offset = 0x018 ∧ v.getLsbD 1 = true then some .abort else none
  | .reset => some .reset

/-- Whether the next step ends the run in progress, and how (R266). -/
def stepEnd (s : State) : Option RunEnd :=
  match s.agenda with
  | [] => sequencerEnd s
  | .sequencer :: _ => sequencerEnd s
  | .host a :: _ => hostEnd a

/-- What an observer sees of the next step: a sequencer step is observed, and a host step is the host's own (R276). -/
def stepObserved (s : State) : List Observation :=
  match s.agenda with
  | [] => [observe s]
  | .sequencer :: _ => [observe s]
  | .host _ :: _ => []

/-- The trace of a run: what is observed of its sequencer steps, in order, and its end if it has ended (R276). -/
structure Trace where
  steps : List Observation
  ending : Option RunEnd
  deriving DecidableEq, Repr

/-- The trace of the run in progress, over its next `n` steps (R276). A host step that breaks a duty has no step (R247), and
the trace stops before it. notes/assumptions/15.md. -/
def runTrace : Nat → State → Trace
  | 0, _ => ⟨[], none⟩
  | n + 1, s =>
    if s.busy then
      match step s with
      | .next t =>
        match stepEnd s with
        | none => ⟨stepObserved s ++ (runTrace n t).steps, (runTrace n t).ending⟩
        | some e => ⟨stepObserved s, some e⟩
      | .fault _ => ⟨[], none⟩
      | .refused _ => ⟨[], none⟩
    else ⟨[], none⟩

/-- Where secrets may lie beside the B, T and Z registers: the X registers and the memory bytes that may differ (R276). -/
structure Secrets where
  x : XReg → Prop
  mem : Nat → Prop

/-- Two states that differ at most in the B, T and Z registers, in secret X registers and in secret bytes of memory (R276). -/
structure PublicEq (sec : Secrets) (s s' : State) : Prop where
  rest : { s' with x := s.x, b := s.b, t := s.t, z := s.z, mem := s.mem } = s
  x : ∀ r, ¬ sec.x r → getX s' r = getX s r
  mem : ∀ a, ¬ sec.mem a → s'.mem.read a = s.mem.read a

/-- The step from two such states keeps secrets out of what is observed, the program's duty of rule R276: no fetched byte
differs, no secret register is a base or a DJNZ counter, and a BROTR shift, which may be secret, exceeds N in both or in
neither. -/
structure Discreet (sec : Secrets) (s s' : State) : Prop where
  fetched : ∀ k < 4, sec.mem (s.pc.toNat + k) → s'.mem.read (s.pc.toNat + k) = s.mem.read (s.pc.toNat + k)
  base : ∀ i r, fetch s = .instr i → baseOf i = some r → ¬ sec.x r
  counter : ∀ d imm, fetch s = .instr (.djnz d imm) → ¬ sec.x d
  shift : ∀ d s1 s2, fetch s = .instr (.brotr d s1 s2) →
    ((getX s s2).toNat ≤ s.params.n ↔ (getX s' s2).toNat ≤ s.params.n)

/-- Whether X[r] may differ after `i` has completed: an immediate is public, ADDI copies its source's secrecy, and LW loads
a secret where it reads a secret byte that differs. -/
def xSecretAfter (sec : Secrets) (i : Instr) (s s' : State) (r : XReg) : Prop :=
  match i with
  | .li d _ | .lui d _ => r ≠ d ∧ sec.x r
  | .addi d s1 _ => if r = d then sec.x s1 else sec.x r
  | .lw d s1 imm =>
    if r = d then ∃ k < 4, sec.mem ((effAddr s s1 imm).toNat + k)
      ∧ s'.mem.read ((effAddr s s1 imm).toNat + k) ≠ s.mem.read ((effAddr s s1 imm).toNat + k)
    else sec.x r
  | .nop | .halt | .sw _ _ _ | .jmp _ | .djnz _ _ | .sampb _ _ _ | .bst _ _ _ | .bxor _ _ _ | .brotr _ _ _ => sec.x r
  | .sampt _ _ _ | .tst _ _ _ | .tmul _ _ _ | .tinv _ _ | .rld _ _ _ | .rst _ _ _ | .rmul _ _ _ => sec.x r
  | .rscale _ _ _ | .rneg _ _ | .rfromt _ _ => sec.x r

/-- Whether byte `a` may differ after `i` has completed: SW stores a secret where its data register is one, and a stored
ring value is always one. -/
def memSecretAfter (sec : Secrets) (i : Instr) (s : State) (a : Nat) : Prop :=
  (storesTo i s a ∧ ∀ s1 s2 imm, i = .sw s1 s2 imm → sec.x s2) ∨ (¬ storesTo i s a ∧ sec.mem a)

/-- Where secrets may lie after a sequencer step: a fetch or an instruction that faults moves none. -/
def sequencerSecrets (sec : Secrets) (s s' : State) : Secrets :=
  match fetch s with
  | .fault _ _ => sec
  | .instr i => if faultOf i s = none then ⟨xSecretAfter sec i s s', memSecretAfter sec i s⟩ else sec

/-- Where secrets may lie after the next step: a host step of a run moves none. -/
def secretsAfter (sec : Secrets) (s s' : State) : Secrets :=
  match s.agenda with
  | [] => sequencerSecrets sec s s'
  | .sequencer :: _ => sequencerSecrets sec s s'
  | .host _ :: _ => sec

/-- Every sequencer step of the next `n` steps of two runs is discreet. -/
def DiscreetRun : Nat → Secrets → State → State → Prop
  | 0, _, _, _ => True
  | n + 1, sec, s, s' => (sequencerTurn s → Discreet sec s s')
    ∧ ∀ t t', step s = .next t → step s' = .next t' → DiscreetRun n (secretsAfter sec s s') t t'

/-- The host step breaks a duty of rule R247: it accesses local memory during a run, or out of range, misaligned or at a
width not in 1, 2, 4, or it accesses the CSR window other than by an aligned 32-bit access. -/
def BreaksDuty (a : HostAct) (s : State) : Prop :=
  match a with
  | .csrRead offset width => ¬ (width = 4 ∧ offset % 4 = 0 ∧ offset < 256)
  | .csrWrite offset width _ => ¬ (width = 4 ∧ offset % 4 = 0 ∧ offset < 256)
  | .memRead addr n => s.busy = true ∨ ¬ (n = 1 ∨ n = 2 ∨ n = 4) ∨ addr % n ≠ 0 ∨ addr + n > s.params.memBytes
  | .memWrite addr n _ => s.busy = true ∨ ¬ (n = 1 ∨ n = 2 ∨ n = 4) ∨ addr % n ≠ 0 ∨ addr + n > s.params.memBytes
  | .reset => False

/-- `v` is an inverse of `w` in the sense of rule R130: canonical, with RED(CONV3(w, v)) = [1, 0, ..., 0]. -/
def IsTernaryInverse (n : Nat) (w v : TernaryPoly) : Prop :=
  TernaryPoly.canonical n v = true ∧ reduceTrits n (conv3 n w v) = 1 :: List.replicate (n - 1) 0

/-- The TruncRing value with `c` at coefficient `j` and 0 elsewhere. -/
def truncMonomial (n c j : Nat) : TruncPoly := (List.range n).map fun k => if k = j then c else 0

/-- Coefficient-wise addition modulo Q, which rule R155 speaks of. -/
def truncAdd (q : Nat) (a b : TruncPoly) : TruncPoly := List.zipWith (fun x y => (x + y) % q) a b

/-- Instructions executed one after the other. -/
def execList : List Instr → State → Result
  | [], s => .next s
  | i :: is, s =>
    match exec i s with
    | .next t => execList is t
    | .fault r => .fault r
    | .refused r => .refused r

end Sys2Proof.Machine
end

