-- ==== Sys2Proof/Certificates/Slice0/Obligations.lean ====
section
/-!
DEFINITION. The statements for the provers, each a definition `Obligations.<Name> : Prop`. They hold over all states and all
parts (every `State.params`), unless a hypothesis says otherwise; they are listed in OBLIGATIONS.json.
-/

open Sys2Proof Sys2Proof.Machine

/-! ## Encoding and decoding -/

/-- R90: the encoding examples of the spec, word by word. -/
def Obligations.SpecWordsDecode : Prop :=
  decodeWord 0x4C840000#32 = .ok (.brotr 1 0 2) ∧ decodeWord 0x69020000#32 = .ok (.tmul 2 0 1)
    ∧ decodeWord 0x14A00010#32 = .ok (.lw 1 2 0x0010#16) ∧ decodeWord 0x2180FFFF#32 = .ok (.djnz 3 0xFFFF#16)
    ∧ decodeWord 0x4C850000#32 = .error .reservedBit
    ∧ encode (.brotr 1 0 2) = 0x4C840000#32 ∧ encode (.tmul 2 0 1) = 0x69020000#32
    ∧ encode (.lw 1 2 0x0010#16) = 0x14A00010#32 ∧ encode (.djnz 3 0xFFFF#16) = 0x2180FFFF#32

/-- R80, R81, R84: decoding the bytes of an encoded instruction gives it back and leaves the bytes after it, for every
instruction and every operand. -/
def Obligations.DecodeOfEncode : Prop :=
  ∀ (i : Instr) (rest : List Byte), decodeBytes (encodeBytes i ++ rest) = .ok (i, rest)

/-- R85: a word decodes exactly when it selects a row of the opcode map, no word selects two rows, a decoded word selects
the row of its instruction and is the only word that decodes to it, and a word that selects no row raises ILLEGAL. -/
def Obligations.WordsDecodeByTheTable : Prop :=
  (∀ w : Word, (∃ i, decodeWord w = .ok i) ↔ wordWellFormed w = true)
    ∧ (∀ w : Word, (opRows.filter fun r => r.selects w).length ≤ 1)
    ∧ (∀ (w : Word) (i : Instr), decodeWord w = .ok i → i.row.selects w = true ∧ encode i = w)
    ∧ (∀ s : State, s.busy = true → sequencerTurn s → s.pc.toNat + 4 ≤ s.params.memBytes →
        wordWellFormed (fetchWord s) = false →
        ∃ t, step s = .next t ∧ FaultTaken .illegal (fetchWord s) (turnTaken s) t)

/-! ## The step -/

/-- R191: while BUSY, a sequencer step raises FETCH_RANGE where the four bytes at pc do not lie in memory, raises ILLEGAL
where they are no instruction, and otherwise is the execution of the decoded instruction. -/
def Obligations.StepRunsTheDecodedInstruction : Prop :=
  ∀ s : State, s.busy = true → sequencerTurn s →
    (s.pc.toNat + 4 > s.params.memBytes → ∃ t, step s = .next t ∧ FaultTaken .fetchRange s.pc (turnTaken s) t)
    ∧ (s.pc.toNat + 4 ≤ s.params.memBytes →
        (∀ i rest, decodeBytes (fetchBytes s) = .ok (i, rest) → step s = exec i (turnTaken s))
        ∧ (∀ e, decodeBytes (fetchBytes s) = .error e →
            ∃ t, step s = .next t ∧ FaultTaken .illegal (fetchWord s) (turnTaken s) t))

/-- While BUSY = 0 the sequencer's turn changes nothing but the agenda. R220 says that the idle sequencer has no step and
holds what it holds; that a turn of its passes is the model's reading (notes/assumptions/13.md, DEDUCED). -/
def Obligations.IdleSequencerChangesNothing : Prop :=
  ∀ s : State, s.busy = false → sequencerTurn s → step s = .next (turnTaken s)

/-- A word placed for the next fetch is the instruction the very next step executes, in every state of a part with at
least four bytes of memory (notes/assumptions/8.md: the placing is the model's). -/
def Obligations.PlacedWordRunsNext : Prop :=
  ∀ (s : State) (w : Nat) (i : Instr), 4 ≤ s.params.memBytes → decodeTableWord 32 w = some i →
    step (s.withFetchWord 32 w) = exec i (turnTaken (s.withFetchWord 32 w))

/-! ## Sequencer instructions -/

/-- R190: NOP is the word 0 and no other, any other word with op = 0 is illegal, and NOP only advances the pc. -/
def Obligations.NopOnlyAdvances : Prop :=
  IsWordOf .nop ⟨0x00, 0, 0, 0, 0, 0⟩
  ∧ (∀ w : Word, w.extractLsb' 26 6 = 0#6 → w ≠ 0#32 → ∃ e, decodeWord w = .error e)
  ∧ ∀ s : State, ∃ t, exec .nop s = .next t ∧ t.pc = s.pc + 4 ∧ ChangesPc s t

/-- R192: HALT ends the run, IRQ is then IE, and no other instruction and no host step but reset ends a run without ERR. -/
def Obligations.HaltEndsTheRun : Prop :=
  IsWordOf .halt ⟨0x01, 0, 0, 0, 0, 0⟩
  ∧ (∀ s : State, ∃ t, exec .halt s = .next t ∧ HaltTaken s t ∧ irq t = s.ie)
  ∧ ∀ s t : State, s.busy = true → step s = .next t → t.busy = false → t.err = false →
      (∃ rest, s.agenda = .host .reset :: rest) ∨ (sequencerTurn s ∧ fetch s = .instr .halt)

/-- R193, R194, R195: LI loads the immediate zero-extended, LUI loads it into the high half, and ADDI adds it as a signed
number modulo 2^32. -/
def Obligations.ScalarImmediates : Prop :=
  ∀ (s : State) (d s1 : XReg) (imm : BitVec 16),
    IsWordOf (.li d imm) ⟨0x02, fieldOf d, 0, 0, 0, imm⟩
    ∧ IsWordOf (.lui d imm) ⟨0x03, fieldOf d, 0, 0, 0, imm⟩
    ∧ IsWordOf (.addi d s1 imm) ⟨0x04, fieldOf d, fieldOf s1, 0, 0, imm⟩
    ∧ (∃ t, exec (.li d imm) s = .next t ∧ (getX t d).toNat = imm.toNat ∧ t.pc = s.pc + 4 ∧ ChangesX d s t)
    ∧ (∃ t, exec (.lui d imm) s = .next t ∧ (getX t d).toNat = imm.toNat * 65536 ∧ t.pc = s.pc + 4 ∧ ChangesX d s t)
    ∧ ∃ t, exec (.addi d s1 imm) s = .next t
      ∧ ((getX t d).toNat : Int) = (((getX s s1).toNat : Int) + imm.toInt) % 2 ^ 32
      ∧ t.pc = s.pc + 4 ∧ ChangesX d s t

/-- R63: the effective address of every memory instruction, and that a memory instruction that completes changes no scalar
register but the destination of LW: the base register is not updated. -/
def Obligations.EffectiveAddressAndBase : Prop :=
  (∀ (s : State) (base : XReg) (imm : BitVec 16),
    (effAddr s base imm).toNat = ((getX s base).toNat + imm.toNat) % 2 ^ 32)
  ∧ ∀ (i : Instr) (s : State) (a : Access), accessOf i s = some a → accessOk s a →
      ∃ t, exec i s = .next t ∧ ∀ r, (∀ s1 imm, i ≠ .lw r s1 imm) → getX t r = getX s r

/-- R196: LW loads the little-endian word at EA, or faults on the access. -/
def Obligations.LwLoadsTheWord : Prop :=
  ∀ (s : State) (d s1 : XReg) (imm : BitVec 16),
    IsWordOf (.lw d s1 imm) ⟨0x05, fieldOf d, fieldOf s1, 0, 0, imm⟩
    ∧ (accessOk s ⟨effAddr s s1 imm, 4, 4⟩ → ∃ t, exec (.lw d s1 imm) s = .next t
      ∧ (getX t d).toNat = (s.mem.read (effAddr s s1 imm).toNat).toNat
          + 256 * (s.mem.read ((effAddr s s1 imm).toNat + 1)).toNat
          + 65536 * (s.mem.read ((effAddr s s1 imm).toNat + 2)).toNat
          + 16777216 * (s.mem.read ((effAddr s s1 imm).toNat + 3)).toNat
      ∧ t.pc = s.pc + 4 ∧ ChangesX d s t)
    ∧ FaultsOnAccess (.lw d s1 imm) s ⟨effAddr s s1 imm, 4, 4⟩

/-- R199: SW stores the four bytes of X[s2], the least significant first, or faults on the access. -/
def Obligations.SwStoresTheWord : Prop :=
  ∀ (s : State) (s1 s2 : XReg) (imm : BitVec 16),
    IsWordOf (.sw s1 s2 imm) ⟨0x06, 0, fieldOf s1, fieldOf s2, 0, imm⟩
    ∧ (accessOk s ⟨effAddr s s1 imm, 4, 4⟩ → ∃ t, exec (.sw s1 s2 imm) s = .next t
      ∧ (∀ k < 4, (t.mem.read ((effAddr s s1 imm).toNat + k)).toNat = (getX s s2).toNat / 256 ^ k % 256)
      ∧ t.pc = s.pc + 4 ∧ ChangesMem (effAddr s s1 imm).toNat 4 s t)
    ∧ FaultsOnAccess (.sw s1 s2 imm) s ⟨effAddr s s1 imm, 4, 4⟩

/-- R197: JMP moves the pc by four times the signed immediate, modulo 2^32. -/
def Obligations.JmpMovesThePc : Prop :=
  ∀ (s : State) (imm : BitVec 16), IsWordOf (.jmp imm) ⟨0x07, 0, 0, 0, 0, imm⟩ ∧ ∃ t, exec (.jmp imm) s = .next t
    ∧ (t.pc.toNat : Int) = ((s.pc.toNat : Int) + 4 * imm.toInt) % 2 ^ 32 ∧ ChangesPc s t

/-- R198: DJNZ decrements X[d] modulo 2^32 and branches unless it became 0. -/
def Obligations.DjnzDecrementsAndBranches : Prop :=
  ∀ (s : State) (d : XReg) (imm : BitVec 16), IsWordOf (.djnz d imm) ⟨0x08, fieldOf d, 0, 0, 0, imm⟩
    ∧ ∃ t, exec (.djnz d imm) s = .next t
    ∧ ((getX t d).toNat : Int) = (((getX s d).toNat : Int) - 1) % 2 ^ 32
    ∧ (t.pc.toNat : Int) = ((s.pc.toNat : Int) + if getX s d = 1 then 4 else 4 * imm.toInt) % 2 ^ 32
    ∧ ChangesX d s t

/-! ## BitPoly and sampler instructions -/

/-- R181: SAMPB loads the N bits at EA and ignores the padding, or faults on the access. -/
def Obligations.SampbLoadsTheBits : Prop :=
  ∀ (s : State) (d : BReg) (s1 : XReg) (imm : BitVec 16),
    IsWordOf (.sampb d s1 imm) ⟨0x10, fieldOf d, fieldOf s1, 0, 0, imm⟩
    ∧ (accessOk s ⟨effAddr s s1 imm, 8, s.params.bpBytes⟩ → ∃ t, exec (.sampb d s1 imm) s = .next t
      ∧ (∀ k, (getB t d).testBit k
          = (decide (k < s.params.n) && (s.mem.read ((effAddr s s1 imm).toNat + k / 8)).getLsbD (k % 8)))
      ∧ t.pc = s.pc + 4 ∧ ChangesB d s t)
    ∧ FaultsOnAccess (.sampb d s1 imm) s ⟨effAddr s s1 imm, 8, s.params.bpBytes⟩

/-- R101: BST stores the N bits of B[s2] and zero padding, or faults on the access. -/
def Obligations.BstStoresTheBits : Prop :=
  ∀ (s : State) (s1 : XReg) (s2 : BReg) (imm : BitVec 16),
    IsWordOf (.bst s1 s2 imm) ⟨0x11, 0, fieldOf s1, fieldOf s2, 0, imm⟩
    ∧ (accessOk s ⟨effAddr s s1 imm, 8, s.params.bpBytes⟩ → ∃ t, exec (.bst s1 s2 imm) s = .next t
      ∧ (∀ j < s.params.bpBytes, ∀ b < 8, (t.mem.read ((effAddr s s1 imm).toNat + j)).getLsbD b
          = (decide (8 * j + b < s.params.n) && (getB s s2).testBit (8 * j + b)))
      ∧ t.pc = s.pc + 4 ∧ ChangesMem (effAddr s s1 imm).toNat s.params.bpBytes s t)
    ∧ FaultsOnAccess (.bst s1 s2 imm) s ⟨effAddr s s1 imm, 8, s.params.bpBytes⟩

/-- R102: BXOR is the exclusive or, bit by bit. -/
def Obligations.BxorXorsTheBits : Prop :=
  ∀ (s : State) (d s1 s2 : BReg), IsWordOf (.bxor d s1 s2) ⟨0x12, fieldOf d, fieldOf s1, fieldOf s2, 0, 0⟩
    ∧ ∃ t, exec (.bxor d s1 s2) s = .next t
    ∧ (∀ k, (getB t d).testBit k = ((getB s s1).testBit k ^^ (getB s s2).testBit k))
    ∧ t.pc = s.pc + 4 ∧ ChangesB d s t

/-- R103: BROTR moves bit (k + sh) mod N to bit k for a shift of at most N, and raises OPERAND_RANGE(sh) above. -/
def Obligations.BrotrRotatesRight : Prop :=
  ∀ (s : State) (d s1 : BReg) (s2 : XReg),
    IsWordOf (.brotr d s1 s2) ⟨0x13, fieldOf d, fieldOf s1, fieldOf s2, 0, 0⟩
    ∧ ((getX s s2).toNat ≤ s.params.n → ∃ t, exec (.brotr d s1 s2) s = .next t
      ∧ (∀ k, (getB t d).testBit k
          = (decide (k < s.params.n) && (getB s s1).testBit ((k + (getX s s2).toNat) % s.params.n)))
      ∧ t.pc = s.pc + 4 ∧ ChangesB d s t)
    ∧ ((getX s s2).toNat > s.params.n →
        ∃ t, exec (.brotr d s1 s2) s = .next t ∧ FaultTaken .operandRange (getX s s2) s t)

/-- R104: rotation is multiplication by x^(N - sh): the identity at 0 and N, undone by N - sh, and additive in the shift. -/
def Obligations.RotationIsRingMultiplication : Prop :=
  ∀ (n : Nat) (v : BitPoly), 0 < n → BitPoly.wf n v = true →
    (∀ sh ≤ n, ∀ k < n, (rotateRight n v sh).testBit ((k + (n - sh)) % n) = v.testBit k)
    ∧ rotateRight n v 0 = v ∧ rotateRight n v n = v
    ∧ (∀ sh ≤ n, rotateRight n (rotateRight n v sh) (n - sh) = v)
    ∧ ∀ a b, a + b ≤ n → rotateRight n (rotateRight n v a) b = rotateRight n v (a + b)

/-- R182: SAMPT loads the sign plane, repairs the nonzero plane with it, and ignores the padding, or faults on the access. -/
def Obligations.SamptRepairsTheSample : Prop :=
  ∀ (s : State) (d : TReg) (s1 : XReg) (imm : BitVec 16),
    IsWordOf (.sampt d s1 imm) ⟨0x18, fieldOf d, fieldOf s1, 0, 0, imm⟩
    ∧ (accessOk s ⟨effAddr s s1 imm, 8, s.params.tpBytes⟩ → ∃ t, exec (.sampt d s1 imm) s = .next t
      ∧ (∀ k, (getT t d).s.testBit k
          = (decide (k < s.params.n) && (s.mem.read ((effAddr s s1 imm).toNat + k / 8)).getLsbD (k % 8)))
      ∧ (∀ k, (getT t d).a.testBit k = (decide (k < s.params.n)
          && ((s.mem.read ((effAddr s s1 imm).toNat + s.params.bpBytes + k / 8)).getLsbD (k % 8)
            || (s.mem.read ((effAddr s s1 imm).toNat + k / 8)).getLsbD (k % 8))))
      ∧ t.pc = s.pc + 4 ∧ ChangesT d s t)
    ∧ FaultsOnAccess (.sampt d s1 imm) s ⟨effAddr s s1 imm, 8, s.params.tpBytes⟩

/-- R183: the bias of the repair. Of the 4^N pairs of raw planes, 2^m give a ternary value with m coefficients -1: each
coefficient is 0 with probability 1/4, +1 with 1/4 and -1 with 1/2, independently. -/
def Obligations.SamplerBias : Prop :=
  ∀ (n : Nat) (v : TernaryPoly), TernaryPoly.wf n v = true →
    ((Finset.range (2 ^ n) ×ˢ Finset.range (2 ^ n)).filter fun raw => repair raw.1 raw.2 = v).card
      = 2 ^ ((List.range n).countP fun k => tritAt v k == 2)

/-! ## Ternary instructions -/

/-- R125: TST stores the sign plane and then the nonzero plane, with zero padding, or faults on the access. -/
def Obligations.TstStoresThePlanes : Prop :=
  ∀ (s : State) (s1 : XReg) (s2 : TReg) (imm : BitVec 16),
    IsWordOf (.tst s1 s2 imm) ⟨0x19, 0, fieldOf s1, fieldOf s2, 0, imm⟩
    ∧ (accessOk s ⟨effAddr s s1 imm, 8, s.params.tpBytes⟩ → ∃ t, exec (.tst s1 s2 imm) s = .next t
      ∧ (∀ j < s.params.bpBytes, ∀ b < 8,
          (t.mem.read ((effAddr s s1 imm).toNat + j)).getLsbD b
            = (decide (8 * j + b < s.params.n) && (getT s s2).s.testBit (8 * j + b))
          ∧ (t.mem.read ((effAddr s s1 imm).toNat + s.params.bpBytes + j)).getLsbD b
            = (decide (8 * j + b < s.params.n) && (getT s s2).a.testBit (8 * j + b)))
      ∧ t.pc = s.pc + 4 ∧ ChangesMem (effAddr s s1 imm).toNat s.params.tpBytes s t)
    ∧ FaultsOnAccess (.tst s1 s2 imm) s ⟨effAddr s s1 imm, 8, s.params.tpBytes⟩

/-- R121, R122, R126: coefficient k of TMUL's result is c(k) - c(N-1) modulo 3, where c is the cyclic product; the result is
well formed, and canonical where N is not 0. -/
def Obligations.TmulIsTheReducedProduct : Prop :=
  ∀ (s : State) (d s1 s2 : TReg), IsWordOf (.tmul d s1 s2) ⟨0x1A, fieldOf d, fieldOf s1, fieldOf s2, 0, 0⟩
    ∧ ∃ t, exec (.tmul d s1 s2) s = .next t
    ∧ (∀ k < s.params.n, (tritAt (getT t d) k : Int)
        = ((∑ i ∈ Finset.range s.params.n,
              tritAt (getT s s1) i * tritAt (getT s s2) ((k + s.params.n - i) % s.params.n) : Nat)
          - (∑ i ∈ Finset.range s.params.n,
              tritAt (getT s s1) i * tritAt (getT s s2) ((s.params.n - 1 + s.params.n - i) % s.params.n) : Nat) : Int) % 3)
    ∧ (0 < s.params.n → TernaryPoly.canonical s.params.n (getT t d) = true)
    ∧ t.pc = s.pc + 4 ∧ ChangesT d s t

/-- R127: adding a multiple of PHI to the first operand does not change the product that TMUL writes. -/
def Obligations.UnreducedInputsSameProduct : Prop :=
  ∀ (s : State) (d r s1 s2 : TReg) (m : Nat), 0 < s.params.n →
    (∀ k < s.params.n, tritAt (getT s r) k = (tritAt (getT s s1) k + m) % 3) →
    exec (.tmul d r s2) s = exec (.tmul d s1 s2) s

/-- R130: TINV writes the canonical inverse of T[s1] modulo PHI where there is one, and INV_NONINV where there is none. -/
def Obligations.TinvIsTheInverse : Prop :=
  ∀ (s : State) (d s1 : TReg), s.params.WF → IsWordOf (.tinv d s1) ⟨0x1B, fieldOf d, fieldOf s1, 0, 0, 0⟩
    ∧ ∃ t, exec (.tinv d s1) s = .next t
    ∧ (∀ v, IsTernaryInverse s.params.n (getT s s1) v → getT t d = v)
    ∧ ((¬ ∃ v, IsTernaryInverse s.params.n (getT s s1) v) → getT t d = nonInvertibleResult s.params (getT s s1))
    ∧ t.pc = s.pc + 4 ∧ ChangesT d s t

/-- R131, R132: a value with all N coefficients equal has no inverse, and TINV of it completes with INV_NONINV, which is
well formed, and changes nothing else but the pc, so that no fault is taken. -/
def Obligations.ConstantValuesAreNotInvertible : Prop :=
  ∀ (s : State) (d s1 : TReg), s.params.WF → (∀ k < s.params.n, tritAt (getT s s1) k = tritAt (getT s s1) 0) →
    (¬ ∃ v, IsTernaryInverse s.params.n (getT s s1) v)
    ∧ ∃ t, exec (.tinv d s1) s = .next t ∧ getT t d = nonInvertibleResult s.params (getT s s1)
      ∧ TernaryPoly.wf s.params.n (getT t d) = true ∧ t.pc = s.pc + 4 ∧ ChangesT d s t

/-- R134: TMUL of TINV(A) and A is ONE for every invertible A. -/
def Obligations.InverseLaw : Prop :=
  ∀ (s : State) (d e s1 : TReg) (w : TernaryPoly), s.params.WF → d ≠ s1 → IsTernaryInverse s.params.n (getT s s1) w →
    ∃ t u, exec (.tinv d s1) s = .next t ∧ exec (.tmul e d s1) t = .next u ∧ getT u e = ternaryOne

/-! ## TruncRing instructions -/

/-- R150: RLD loads N halfwords modulo Q, or faults on the access. -/
def Obligations.RldLoadsTheCoefficients : Prop :=
  ∀ (s : State) (d : ZReg) (s1 : XReg) (imm : BitVec 16),
    IsWordOf (.rld d s1 imm) ⟨0x20, fieldOf d, fieldOf s1, 0, 0, imm⟩
    ∧ (accessOk s ⟨effAddr s s1 imm, 2, s.params.rpBytes⟩ → ∃ t, exec (.rld d s1 imm) s = .next t
      ∧ (getZ t d).length = s.params.n
      ∧ (∀ k < s.params.n, (getZ t d).getD k 0 = ((s.mem.read ((effAddr s s1 imm).toNat + 2 * k)).toNat
          + 256 * (s.mem.read ((effAddr s s1 imm).toNat + 2 * k + 1)).toNat) % 2 ^ s.params.logQ)
      ∧ t.pc = s.pc + 4 ∧ ChangesZ d s t)
    ∧ FaultsOnAccess (.rld d s1 imm) s ⟨effAddr s s1 imm, 2, s.params.rpBytes⟩

/-- R151: RST stores each coefficient as a little-endian halfword, or faults on the access. -/
def Obligations.RstStoresTheCoefficients : Prop :=
  ∀ (s : State) (s1 : XReg) (s2 : ZReg) (imm : BitVec 16),
    IsWordOf (.rst s1 s2 imm) ⟨0x21, 0, fieldOf s1, fieldOf s2, 0, imm⟩
    ∧ (accessOk s ⟨effAddr s s1 imm, 2, s.params.rpBytes⟩ → ∃ t, exec (.rst s1 s2 imm) s = .next t
      ∧ (∀ k < s.params.n,
          (t.mem.read ((effAddr s s1 imm).toNat + 2 * k)).toNat = (getZ s s2).getD k 0 % 256
          ∧ (t.mem.read ((effAddr s s1 imm).toNat + 2 * k + 1)).toNat = (getZ s s2).getD k 0 / 256 % 256)
      ∧ t.pc = s.pc + 4 ∧ ChangesMem (effAddr s s1 imm).toNat s.params.rpBytes s t)
    ∧ FaultsOnAccess (.rst s1 s2 imm) s ⟨effAddr s s1 imm, 2, s.params.rpBytes⟩

/-- R153: RMUL is the cyclic product modulo Q; the portable and the accelerated path give the same value (R154). -/
def Obligations.RmulIsTheProduct : Prop :=
  ∀ (s : State) (d s1 s2 : ZReg),
    IsWordOf (.rmul d s1 s2) ⟨0x22, fieldOf d, fieldOf s1, fieldOf s2, 0, 0⟩
    ∧ (∃ t, exec (.rmul d s1 s2) s = .next t
      ∧ (getZ t d).length = s.params.n
      ∧ (∀ k < s.params.n, (getZ t d).getD k 0
          = (∑ i ∈ Finset.range s.params.n,
              (getZ s s1).getD i 0 * (getZ s s2).getD ((k + s.params.n - i) % s.params.n) 0) % 2 ^ s.params.logQ)
      ∧ t.pc = s.pc + 4 ∧ ChangesZ d s t)
    ∧ ∃ t t', exec (.rmul d s1 s2) { s with accelEn := false } = .next t
      ∧ exec (.rmul d s1 s2) { s with accelEn := true } = .next t' ∧ { t with accelEn := true } = t'

/-- R157, R158: RSCALE multiplies every coefficient by the immediate modulo Q, and RNEG negates every coefficient. -/
def Obligations.RscaleAndRneg : Prop :=
  ∀ (s : State) (d s1 : ZReg) (imm : BitVec 16),
    IsWordOf (.rscale d s1 imm) ⟨0x23, fieldOf d, fieldOf s1, 0, 0, imm⟩
    ∧ IsWordOf (.rneg d s1) ⟨0x24, fieldOf d, fieldOf s1, 0, 0, 0⟩
    ∧ (∃ t, exec (.rscale d s1 imm) s = .next t
      ∧ (getZ t d).length = (getZ s s1).length
      ∧ (∀ k, (getZ t d).getD k 0 = (getZ s s1).getD k 0 * imm.toNat % 2 ^ s.params.logQ)
      ∧ t.pc = s.pc + 4 ∧ ChangesZ d s t)
    ∧ ∃ t, exec (.rneg d s1) s = .next t
      ∧ (getZ t d).length = (getZ s s1).length
      ∧ (∀ k, (getZ t d).getD k 0 = (2 ^ s.params.logQ - (getZ s s1).getD k 0) % 2 ^ s.params.logQ)
      ∧ t.pc = s.pc + 4 ∧ ChangesZ d s t

/-- R159: RFROMT lifts each coefficient: 0 to 0, +1 to 1, -1 to Q - 1, modulo Q. -/
def Obligations.RfromtLifts : Prop :=
  ∀ (s : State) (d : ZReg) (s1 : TReg), IsWordOf (.rfromt d s1) ⟨0x25, fieldOf d, fieldOf s1, 0, 0, 0⟩
    ∧ ∃ t, exec (.rfromt d s1) s = .next t
    ∧ (getZ t d).length = s.params.n
    ∧ (∀ k < s.params.n, (getZ t d).getD k 0
        = (if tritAt (getT s s1) k = 2 then 2 ^ s.params.logQ - 1 else tritAt (getT s s1) k) % 2 ^ s.params.logQ)
    ∧ t.pc = s.pc + 4 ∧ ChangesZ d s t

/-- R155: the ring laws of RMUL, RSCALE and RNEG on well-formed values. -/
def Obligations.TruncRingLaws : Prop :=
  ∀ (p : Params) (a b c : TruncPoly) (m : Nat), p.WF → TruncPoly.wf p.n p.logQ a = true →
    TruncPoly.wf p.n p.logQ b = true → TruncPoly.wf p.n p.logQ c = true →
    truncMul p.n p.q a b = truncMul p.n p.q b a
    ∧ truncMul p.n p.q (truncMul p.n p.q a b) c = truncMul p.n p.q a (truncMul p.n p.q b c)
    ∧ truncMul p.n p.q (truncMonomial p.n 1 0) a = a
    ∧ truncMul p.n p.q a (truncAdd p.q b c) = truncAdd p.q (truncMul p.n p.q a b) (truncMul p.n p.q a c)
    ∧ truncScale p.q m a = truncMul p.n p.q (truncMonomial p.n (m % p.q) 0) a
    ∧ truncNeg p.q a = truncScale p.q (p.q - 1) a
    ∧ ∀ j < p.n, ∀ i < p.n, (truncMul p.n p.q (truncMonomial p.n 1 j) a).getD ((i + j) % p.n) 0 = a.getD i 0

/-- R101, R125, R150, R151, R181, R182: loading back what a store wrote gives the value, for each kind of polynomial. -/
def Obligations.StoredValuesReload : Prop :=
  ∀ (s : State) (s1 : XReg) (imm : BitVec 16), s.params.WF → RegistersWF s →
    (∀ (d r : BReg), accessOk s ⟨effAddr s s1 imm, 8, s.params.bpBytes⟩ →
      ∃ t u, exec (.bst s1 r imm) s = .next t ∧ exec (.sampb d s1 imm) t = .next u ∧ getB u d = getB s r)
    ∧ (∀ (d r : TReg), accessOk s ⟨effAddr s s1 imm, 8, s.params.tpBytes⟩ →
      ∃ t u, exec (.tst s1 r imm) s = .next t ∧ exec (.sampt d s1 imm) t = .next u ∧ getT u d = getT s r)
    ∧ (∀ (d r : ZReg), accessOk s ⟨effAddr s s1 imm, 2, s.params.rpBytes⟩ →
      ∃ t u, exec (.rst s1 r imm) s = .next t ∧ exec (.rld d s1 imm) t = .next u ∧ getZ u d = getZ s r)

/-! ## Rules over all instructions -/

/-- R221, R222, R224, R229, R231: an instruction faults exactly where `faultOf` says, with the effect of R227 and nothing
written; otherwise it completes with no fault taken: no fault register, no ERR, and no BUSY but HALT's changes. -/
def Obligations.FaultsAreExactlyThese : Prop :=
  ∀ (i : Instr) (s : State), ∃ t, exec i s = .next t
    ∧ (∀ c info, faultOf i s = some (c, info) → FaultTaken c info s t)
    ∧ (faultOf i s = none → t.errCause = s.errCause ∧ t.errPc = s.errPc ∧ t.errInfo = s.errInfo ∧ t.err = s.err
        ∧ (i ≠ .halt → t.busy = s.busy ∧ t.done = s.done ∧ t.pcReg = s.pcReg))

/-- R70, R79: an instruction leaves every byte it does not store to, and one that faults leaves every byte. -/
def Obligations.MemoryFrame : Prop :=
  ∀ (i : Instr) (s : State), ∃ t, exec i s = .next t
    ∧ (∀ a, ¬ storesTo i s a → t.mem.read a = s.mem.read a)
    ∧ (faultOf i s ≠ none → t.mem = s.mem)

/-- R29, R240: no sequencer step changes CFG, IE, ENTRY or the part, or gives the host a value. -/
def Obligations.ProgramsCannotReachTheCsrs : Prop :=
  ∀ s : State, sequencerTurn s → ∃ t, step s = .next t
    ∧ t.accelEn = s.accelEn ∧ t.lock = s.lock ∧ t.ie = s.ie ∧ t.entry = s.entry ∧ t.params = s.params
    ∧ t.replies = s.replies

/-- R22, R23, R24: no instruction breaks the well-formedness of the polynomial registers. -/
def Obligations.InstructionsKeepRegistersWellFormed : Prop :=
  ∀ (i : Instr) (s : State), RegistersWF s → ∃ t, exec i s = .next t ∧ RegistersWF t

/-- R28: no instruction makes the pc anything but a multiple of 4. -/
def Obligations.PcStaysAligned : Prop :=
  ∀ (i : Instr) (s : State), s.pc.toNat % 4 = 0 → ∃ t, exec i s = .next t ∧ t.pc.toNat % 4 = 0

/-- R22, R23, R24, R27, R28, R48, R50, R51, R60: every step of either agent keeps the invariant. -/
def Obligations.EveryStepKeepsTheInvariant : Prop :=
  ∀ s t : State, Inv s → step s = .next t → Inv t

/-- The invariant holds right after reset, in the reference configuration and in every other. -/
def Obligations.ResetMeetsTheInvariant : Prop :=
  Inv State.reset ∧ ∀ (p : Params) (epoch : Nat), p.WF → Inv (resetState p epoch)

/-- R276: constant time. Two states of a run that differ only in the B, T and Z registers and where secrets lie give, for a
discreet sequencer step, the same observation and the same end, and next states that differ only there again, or in the
info of an OPERAND_RANGE fault; and two such runs whose sequencer steps are discreet have the same trace. A BROTR shift of
0..N may be secret. With no secret X register and every byte of memory secret, it says that the trace is a function of
the public state, the agenda, the bytes that fetches and LW read and whether a shift exceeds N (notes/assumptions/6.md
and 15.md: the free latency, and where the model places secrets and the host's steps in a trace). -/
def Obligations.ConstantTime : Prop :=
  (∀ (sec : Secrets) (s s' : State), PublicEq sec s s' → s.busy = true → sequencerTurn s → Discreet sec s s' →
    observe s' = observe s ∧ stepEnd s' = stepEnd s
      ∧ ∃ t t', step s = .next t ∧ step s' = .next t'
        ∧ PublicEq (secretsAfter sec s s') t { t' with errInfo := t.errInfo }
        ∧ (stepEnd s ≠ some (.fault .operandRange) → t'.errInfo = t.errInfo))
  ∧ ∀ (n : Nat) (sec : Secrets) (s s' : State), PublicEq sec s s' → s.busy = true → DiscreetRun n sec s s' →
    runTrace n s' = runTrace n s

/-- R248, R266: when a run ends in a step other than reset, exactly one of DONE and ERR is 1, every register is 0, and
ERRCAUSE says whether it ended by a fault. It ends by HALT, by a fault of cause 1 to 5, by ABORT or by reset, as `stepEnd`
says, and a step that is no end leaves it in progress; a write of CTRL that aborts may start the next run. -/
def Obligations.RunEndState : Prop :=
  ∀ s t : State, Inv s → step s = .next t → s.busy = true →
    (t.busy = false → (∀ rest, s.agenda ≠ .host .reset :: rest) →
      (t.done = !t.err) ∧ registersZero t ∧ (t.err = true ↔ t.errCause ≠ .none))
    ∧ (stepEnd s = none → t.busy = true)
    ∧ (stepEnd s = some .halt → t.busy = false ∧ t.done = true ∧ t.err = false ∧ t.errCause = .none)
    ∧ (∀ c, stepEnd s = some (.fault c) →
        t.busy = false ∧ t.done = false ∧ t.err = true ∧ t.errCause = c ∧ c ≠ .none ∧ c ≠ .aborted)
    ∧ (stepEnd s = some .abort → registersZero t ∧ t.done = false
        ∧ (t.busy = false → t.err = true ∧ t.errCause = .aborted))
    ∧ (stepEnd s = some .reset → t.busy = false ∧ t.done = false ∧ t.err = false)

/-- R89: LI32 leaves its value in the register it names, and MV a copy, with nothing else changed but the pc. -/
def Obligations.PseudoInstructionsExpand : Prop :=
  ∀ (s : State) (d s1 : XReg) (v : Word),
    (∃ t, execList (pseudoLi32 d v) s = .next t ∧ getX t d = v ∧ ChangesX d s t
      ∧ t.pc = s.pc + 4 * BitVec.ofNat 32 (pseudoLi32 d v).length)
    ∧ ∃ t, execList (pseudoMv d s1) s = .next t ∧ getX t d = getX s s1 ∧ ChangesX d s t ∧ t.pc = s.pc + 4

/-! ## The host, START, ABORT, WIPE and reset -/

/-- R265: START while idle clears the status and the fault registers, takes ENTRY into pc and sets BUSY; while busy it does
nothing. The write stores bit 3 into IE (R47). -/
def Obligations.StartBeginsARun : Prop :=
  ∀ (s : State) (v : Word), v.getLsbD 0 = true → v.getLsbD 1 = false → v.getLsbD 2 = false →
    (s.busy = false → ∃ t, hostStep (.csrWrite 0x018 4 v) s = .next t
      ∧ t.busy = true ∧ t.done = false ∧ t.err = false ∧ t.errCause = .none ∧ t.errPc = 0 ∧ t.errInfo = 0
      ∧ t.pc.toNat = 4 * s.entry.toNat
      ∧ { t with
          busy := s.busy, done := s.done, err := s.err, errCause := s.errCause, errPc := s.errPc
          errInfo := s.errInfo, pc := s.pc } = { s with ie := v.getLsbD 3 })
    ∧ (s.busy = true → hostStep (.csrWrite 0x018 4 v) s = .next { s with ie := v.getLsbD 3 })

/-- R230: ABORT while busy ends the run with the effect of R227, cause ABORTED, info 0 and the pc of the next instruction;
while idle it does nothing. -/
def Obligations.AbortEndsTheRun : Prop :=
  ∀ (s : State) (v : Word), v.getLsbD 0 = false → v.getLsbD 1 = true → v.getLsbD 2 = false →
    (s.busy = true → ∃ t, hostStep (.csrWrite 0x018 4 v) s = .next t
      ∧ FaultTaken .aborted 0 { s with ie := v.getLsbD 3 } t)
    ∧ (s.busy = false → hostStep (.csrWrite 0x018 4 v) s = .next { s with ie := v.getLsbD 3 })

/-- R268: WIPE while idle zeroes every byte of memory and every register and changes no CSR; while busy it does nothing. -/
def Obligations.WipeZeroesMemoryAndRegisters : Prop :=
  ∀ (s : State) (v : Word), v.getLsbD 0 = false → v.getLsbD 1 = false → v.getLsbD 2 = true →
    (s.busy = false → ∃ t, hostStep (.csrWrite 0x018 4 v) s = .next t
      ∧ (∀ a, t.mem.read a = 0) ∧ registersZero t
      ∧ { t with mem := s.mem, x := s.x, b := s.b, t := s.t, z := s.z } = { s with ie := v.getLsbD 3 })
    ∧ (s.busy = true → hostStep (.csrWrite 0x018 4 v) s = .next { s with ie := v.getLsbD 3 })

/-- R47: a write with several action bits has the effects of three writes in the order ABORT, WIPE, START, each with the
same IE; with all three while busy it aborts, wipes and starts again; CTRL reads IE in bit 3 and 0 elsewhere. -/
def Obligations.CtrlActionsInOrder : Prop :=
  (∀ (s : State) (v : Word), ∃ s1 s2 s3, hostStep (.csrWrite 0x018 4 (v &&& 0xA#32)) s = .next s1
      ∧ hostStep (.csrWrite 0x018 4 (v &&& 0xC#32)) s1 = .next s2
      ∧ hostStep (.csrWrite 0x018 4 (v &&& 0x9#32)) s2 = .next s3
      ∧ hostStep (.csrWrite 0x018 4 v) s = .next s3)
  ∧ (∀ (s : State) (k : Nat), (csrValue s 0x018).getLsbD k = if k = 3 then s.ie else false)
  ∧ ∀ (s : State) (v : Word), s.busy = true → v.getLsbD 0 = true → v.getLsbD 1 = true → v.getLsbD 2 = true →
    ∃ t, hostStep (.csrWrite 0x018 4 v) s = .next t ∧ t.busy = true ∧ t.done = false ∧ t.err = false
      ∧ t.errCause = .none ∧ t.pc.toNat = 4 * s.entry.toNat ∧ t.pcReg = s.pc ∧ registersZero t
      ∧ (∀ a, t.mem.read a = 0) ∧ t.ie = v.getLsbD 3 ∧ t.entry = s.entry

/-- R27: at every START the X, B, T and Z registers are zero. -/
def Obligations.RegistersZeroAtStart : Prop :=
  ∀ (s t : State) (v : Word), Inv s → s.busy = false → hostStep (.csrWrite 0x018 4 v) s = .next t → t.busy = true →
    registersZero t

/-- R46: a write of CFG is dropped while locked or busy, stores ACCEL_EN where the part has the path, and sets LOCK, which
no host step but reset clears; the bits between read 0. -/
def Obligations.CfgWriteRules : Prop :=
  (∀ (s : State) (v : Word),
    (s.lock = true ∨ s.busy = true → hostStep (.csrWrite 0x014 4 v) s = .next s)
    ∧ (s.lock = false → s.busy = false → hostStep (.csrWrite 0x014 4 v) s
        = .next { s with accelEn := v.getLsbD 0 && s.params.accel, lock := v.getLsbD 31 }))
  ∧ (∀ (s : State) (k : Nat), (csrValue s 0x014).getLsbD k = if k = 0 then s.accelEn else if k = 31 then s.lock else false)
  ∧ (∀ (a : HostAct) (s t : State), a ≠ .reset → s.lock = true → hostStep a s = .next t →
      t.lock = true ∧ t.accelEn = s.accelEn)
  ∧ ∀ (p : Params) (epoch : Nat), csrValue (resetState p epoch) 0x014 = 0

/-- R48: STATUS reads BUSY, DONE and ERR; ones written to bits 1 and 2 clear DONE and ERR and change nothing else. -/
def Obligations.StatusClearsByOnes : Prop :=
  (∀ (s : State) (v : Word), hostStep (.csrWrite 0x01C 4 v) s
    = .next { s with done := s.done && !v.getLsbD 1, err := s.err && !v.getLsbD 2 })
  ∧ ∀ (s : State) (k : Nat), (csrValue s 0x01C).getLsbD k
      = if k = 0 then s.busy else if k = 1 then s.done else if k = 2 then s.err else false

/-- R49: ENTRY keeps bits 31:2 of what is written while idle, reads as a multiple of 4, and ignores a write while busy. -/
def Obligations.EntryIsAMultipleOfFour : Prop :=
  (∀ (s : State) (v : Word), s.busy = false → ∃ t, hostStep (.csrWrite 0x020 4 v) s = .next t
    ∧ (csrValue t 0x020).toNat = v.toNat / 4 * 4 ∧ { t with entry := s.entry } = s)
  ∧ (∀ (s : State) (v : Word), s.busy = true → hostStep (.csrWrite 0x020 4 v) s = .next s)
  ∧ (∀ s : State, (csrValue s 0x020).toNat % 4 = 0)
  ∧ ∀ (p : Params) (epoch : Nat), csrValue (resetState p epoch) 0x020 = 0

/-- R50: PC reads the next instruction's address during a run and the pc of its end afterwards, until
a START or reset, and ignores writes. -/
def Obligations.PcRegisterReads : Prop :=
  (∀ s : State, s.busy = true → csrValue s 0x024 = s.pc)
  ∧ (∀ s t : State, HaltTaken s t → csrValue t 0x024 = s.pc)
  ∧ (∀ (c : Cause) (info : Word) (s t : State), FaultTaken c info s t → csrValue t 0x024 = s.pc)
  ∧ (∀ (p : Params) (epoch : Nat), csrValue (resetState p epoch) 0x024 = 0)
  ∧ (∀ s t : State, s.busy = false → t.busy = false → step s = .next t → (∀ rest, s.agenda ≠ .host .reset :: rest) →
      csrValue t 0x024 = csrValue s 0x024)
  ∧ ∀ (s : State) (v : Word), hostStep (.csrWrite 0x024 4 v) s = .next s

/-- R41 to R45: the constant CSRs of a part, read through the window; writes to them have no effect. -/
def Obligations.ConstantCsrs : Prop :=
  ∀ s : State, s.params.WF →
    (hostStep (.csrRead 0x000 4) s = .next { s with replies := 0x50524531#32 :: s.replies })
    ∧ (hostStep (.csrRead 0x004 4) s = .next { s with replies := BitVec.ofNat 32 s.params.n :: s.replies })
    ∧ (hostStep (.csrRead 0x008 4) s = .next { s with replies := BitVec.ofNat 32 (s.params.logQ + 64 * 256) :: s.replies })
    ∧ (hostStep (.csrRead 0x00C 4) s
        = .next { s with replies := BitVec.ofNat 32 (s.params.memBytes % 2 ^ 32) :: s.replies })
    ∧ (hostStep (.csrRead 0x010 4) s = .next { s with replies := BitVec.ofNat 32 s.params.accel.toNat :: s.replies })
    ∧ ∀ (offset : Nat) (v : Word), offset ∈ [0x000, 0x004, 0x008, 0x00C, 0x010] →
        hostStep (.csrWrite offset 4 v) s = .next s

/-- R40, R51 to R53, R221: ERRCAUSE reads the code of each cause, ERRPC and ERRINFO read their fields, an unmapped offset
reads 0, and writes to any of them are ignored. -/
def Obligations.FaultAndUnmappedCsrs : Prop :=
  (∀ s : State,
    (s.errCause = .none → csrValue s 0x028 = 0) ∧ (s.errCause = .fetchRange → csrValue s 0x028 = 1)
    ∧ (s.errCause = .illegal → csrValue s 0x028 = 2) ∧ (s.errCause = .misaligned → csrValue s 0x028 = 3)
    ∧ (s.errCause = .memRange → csrValue s 0x028 = 4) ∧ (s.errCause = .operandRange → csrValue s 0x028 = 5)
    ∧ (s.errCause = .aborted → csrValue s 0x028 = 6)
    ∧ csrValue s 0x02C = s.errPc ∧ csrValue s 0x030 = s.errInfo)
  ∧ (∀ (s : State) (offset : Nat) (v : Word), offset % 4 = 0 → 0x028 ≤ offset → offset < 256 →
      hostStep (.csrWrite offset 4 v) s = .next s)
  ∧ ∀ (s : State) (offset : Nat), offset % 4 = 0 → 0x034 ≤ offset → offset < 256 →
      hostStep (.csrRead offset 4) s = .next { s with replies := 0 :: s.replies }

/-- R54: IRQ is IE and (DONE or ERR); it is 0 at reset, and the host clears it by ones written to STATUS or by clearing IE. -/
def Obligations.IrqIsALevel : Prop :=
  (∀ s : State, irq s = (s.ie && (s.done || s.err)))
  ∧ (∀ (p : Params) (epoch : Nat), irq (resetState p epoch) = false)
  ∧ (∀ (s t : State) (v : Word), v.getLsbD 1 = true → v.getLsbD 2 = true →
      hostStep (.csrWrite 0x01C 4 v) s = .next t → irq t = false)
  ∧ ∀ (s t : State) (v : Word), v.getLsbD 3 = false → hostStep (.csrWrite 0x018 4 v) s = .next t → irq t = false

/-- The host memory port reads and writes 1, 2 or 4 little-endian bytes while idle and changes no register and no CSR (R78);
any other access of memory breaks a duty of the host (R78, R247), and that the model refuses it is the model's treatment, as
U8 advises (notes/assumptions/7.md, DEDUCED). -/
def Obligations.HostMemoryPort : Prop :=
  (∀ (s : State) (addr n : Nat) (v : Word), s.busy = true ∨ ¬ (n = 1 ∨ n = 2 ∨ n = 4) ∨ addr % n ≠ 0
      ∨ addr + n > s.params.memBytes →
    ∃ r r', hostStep (.memRead addr n) s = .refused r ∧ hostStep (.memWrite addr n v) s = .refused r')
  ∧ ∀ (s : State) (addr n : Nat) (v : Word), s.busy = false → n = 1 ∨ n = 2 ∨ n = 4 → addr % n = 0 →
    addr + n ≤ s.params.memBytes →
    (∃ w : Word, hostStep (.memRead addr n) s = .next { s with replies := w :: s.replies } ∧ w.toNat < 256 ^ n
      ∧ ∀ k < n, w.toNat / 256 ^ k % 256 = (s.mem.read (addr + k)).toNat)
    ∧ ∃ t, hostStep (.memWrite addr n v) s = .next t ∧ { t with mem := s.mem } = s
      ∧ (∀ k < n, (t.mem.read (addr + k)).toNat = v.toNat / 256 ^ k % 256)
      ∧ ∀ a, a < addr ∨ addr + n ≤ a → t.mem.read a = s.mem.read a

/-- R18, R40, R232, R247: the host's turn is its step, a read of the CSR window gives it the register's value and changes
nothing else, and a host step is refused exactly where it breaks a duty of the host. That turns stand in an agenda is the
model's choice (notes/assumptions/2.md, DESIGN CHOICE), and so is the refusal (notes/assumptions/7.md, DEDUCED). -/
def Obligations.HostTurnsAndDuties : Prop :=
  (∀ (s : State) (a : HostAct) (rest : List Turn), s.agenda = .host a :: rest → step s = hostStep a (turnTaken s))
  ∧ (∀ (s : State) (offset : Nat), offset % 4 = 0 → offset < 256 →
      hostStep (.csrRead offset 4) s = .next { s with replies := csrValue s offset :: s.replies })
  ∧ ∀ (a : HostAct) (s : State), (BreaksDuty a s → ∃ r, hostStep a s = .refused r)
    ∧ (¬ BreaksDuty a s → ∃ t, hostStep a s = .next t)

/-- R260, R262: reset ends any run without DONE or ERR, zeroes every register and leaves memory unspecified. -/
def Obligations.ResetInput : Prop :=
  ∀ s : State, ∃ t, hostStep .reset s = .next t
    ∧ t.busy = false ∧ t.done = false ∧ t.err = false ∧ t.pc = 0 ∧ t.pcReg = 0 ∧ t.entry = 0 ∧ t.ie = false
    ∧ t.accelEn = false ∧ t.lock = false ∧ t.errCause = .none ∧ t.errPc = 0 ∧ t.errInfo = 0 ∧ registersZero t
    ∧ t.params = s.params ∧ irq t = false
    ∧ ∀ a, t.mem.read a = Config.powerOnByte (s.mem.epoch + 1) a

/-- R55, R262: the reset value of every CSR, as the host reads it, and of the pc and the registers. Memory, which R55 leaves
unspecified, is `Obligations.ResetInput`'s. -/
def Obligations.ResetValues : Prop :=
  ∀ (p : Params) (epoch : Nat), p.WF →
    (csrValue (resetState p epoch) 0x000 = 0x50524531#32)
    ∧ (csrValue (resetState p epoch) 0x004).toNat = p.n
    ∧ (csrValue (resetState p epoch) 0x008).toNat = p.logQ + 64 * 256
    ∧ (csrValue (resetState p epoch) 0x00C).toNat = p.memBytes % 2 ^ 32
    ∧ (csrValue (resetState p epoch) 0x010).toNat = p.accel.toNat
    ∧ (∀ offset ∈ [0x014, 0x018, 0x01C, 0x020, 0x024, 0x028, 0x02C, 0x030], csrValue (resetState p epoch) offset = 0)
    ∧ (resetState p epoch).pc = 0 ∧ registersZero (resetState p epoch) ∧ irq (resetState p epoch) = false
    ∧ (resetState p epoch).busy = false
end

