-- ==== Sys2Proof/Laws/Bytes.lean ====
section
/-!
SUPPORT. Byte order and bit order: the bits and the bytes of the numbers of Machine/Bytes.lean, and that reading back what
was written gives it.
-/

namespace Sys2Proof.Machine

theorem leNat_lt (bs : List Byte) : leNat bs < 256 ^ bs.length := by
  induction bs with
  | nil => simp [leNat]
  | cons b bs ih =>
    have := b.isLt
    simp only [leNat, List.length_cons, Nat.pow_succ]
    omega

/-- Bit k of a little-endian number is bit k mod 8 of byte k div 8 (R64). -/
theorem testBit_leNat (bs : List Byte) (k : Nat) :
    Nat.testBit (leNat bs) k = (bs.getD (k / 8) 0).getLsbD (k % 8) := by
  induction bs generalizing k with
  | nil => simp [leNat]
  | cons b bs ih =>
    simp only [leNat]
    rw [Nat.add_comm, show (256 : Nat) = 2 ^ 8 from rfl, Nat.testBit_two_pow_mul_add (leNat bs) b.isLt]
    split
    · rename_i h
      rw [Nat.div_eq_of_lt h, Nat.mod_eq_of_lt h]
      rfl
    · rename_i h
      rw [ih, show k / 8 = (k - 8) / 8 + 1 by omega, show k % 8 = (k - 8) % 8 by omega]
      rfl

@[simp] theorem length_toBytes (n v : Nat) : (toBytes n v).length = n := by
  induction n generalizing v with
  | zero => rfl
  | succ n ih => simp [toBytes, ih]

/-- Byte i of a number (R61). -/
theorem getD_toBytes (n v i : Nat) (h : i < n) : (toBytes n v).getD i 0 = BitVec.ofNat 8 (v / 256 ^ i) := by
  induction n generalizing v i with
  | zero => omega
  | succ n ih =>
    cases i with
    | zero => simp [toBytes]
    | succ i =>
      rw [toBytes, List.getD_cons_succ, ih _ _ (by omega), Nat.div_div_eq_div_mul, Nat.pow_succ, Nat.mul_comm]

/-- Reading back the bytes of a number gives its low bytes. -/
theorem leNat_toBytes (n v : Nat) : leNat (toBytes n v) = v % 256 ^ n := by
  induction n generalizing v with
  | zero => simp [toBytes, leNat, Nat.mod_one]
  | succ n ih =>
    rw [toBytes, leNat, ih, Nat.pow_succ, Nat.mul_comm (256 ^ n), Nat.mod_mul]
    simp

theorem ofBits_lt (l : List Bool) : ofBits l < 2 ^ l.length := by
  induction l with
  | nil => simp [ofBits]
  | cons b l ih =>
    have : b.toNat ≤ 1 := Bool.toNat_le b
    simp only [ofBits, List.length_cons, Nat.pow_succ]
    omega

/-- Bit k of the number of a list of bits is entry k. -/
theorem testBit_ofBits (l : List Bool) (k : Nat) : Nat.testBit (ofBits l) k = l.getD k false := by
  induction l generalizing k with
  | nil => simp [ofBits]
  | cons b l ih =>
    cases k with
    | zero => cases b <;> simp [ofBits, Nat.testBit_zero]
    | succ k =>
      have : (b.toNat + 2 * ofBits l) / 2 = ofBits l := by
        have := Bool.toNat_le b
        omega
      rw [ofBits, Nat.testBit_succ, this, ih, List.getD_cons_succ]

/-- The halfwords of a buffer of 2n bytes are n, and halfword k is the two bytes at 2k (R66). -/
theorem halfwords_spec (n : Nat) (bs : List Byte) (h : bs.length = 2 * n) :
    (halfwords bs).length = n ∧
      ∀ k < n, (halfwords bs).getD k 0 = (bs.getD (2 * k) 0).toNat + 256 * (bs.getD (2 * k + 1) 0).toNat := by
  induction n generalizing bs with
  | zero =>
    have : bs = [] := List.length_eq_zero_iff.mp h
    subst this
    simp [halfwords]
  | succ n ih =>
    match bs, h with
    | lo :: hi :: rest, h =>
      obtain ⟨h1, h2⟩ := ih rest (by simp only [List.length_cons] at h; omega)
      refine ⟨by simp [halfwords, h1], fun k hk => ?_⟩
      cases k with
      | zero => simp [halfwords, leNat]
      | succ k =>
        rw [halfwords, List.getD_cons_succ, h2 k (by omega)]
        rfl

end Sys2Proof.Machine
end

