-- ==== Sys2Proof/Laws/Decode.lean ====
section
/-!
SUPPORT. The fields of a word and the word of fields are inverse to each other, and so are a register number and its field,
and a word and its four bytes: the decoder and the encoder lose no bit (R80, R81).
-/

namespace Sys2Proof

open Sys2Proof.Machine

@[simp] theorem regOf_fieldOf (r : Fin 8) : regOf (fieldOf r) = r := rfl

@[simp] theorem fieldOf_regOf (f : BitVec 3) : fieldOf (regOf f) = f := rfl

@[simp] theorem fieldOf_zero : fieldOf 0 = 0 := rfl

theorem fieldsOf_packFields (f : Fields) : fieldsOf (packFields f) = f := by
  obtain ⟨op, d, s1, s2, rsv, imm⟩ := f
  simp only [fieldsOf, Fields.mk.injEq]
  refine ⟨?_, ?_, ?_, ?_, ?_, ?_⟩ <;>
  · refine BitVec.eq_of_getLsbD_eq fun i hi => ?_
    simp only [packFields, BitVec.getLsbD_append, BitVec.getLsbD_extractLsb']
    interval_cases i <;> simp

theorem packFields_fieldsOf (w : Word) : packFields (fieldsOf w) = w := by
  refine BitVec.eq_of_getLsbD_eq fun i hi => ?_
  simp only [packFields, fieldsOf, BitVec.getLsbD_append, BitVec.getLsbD_extractLsb']
  interval_cases i <;> simp

/-- The word that a word's four bytes hold, the lowest address first (R61, R80). -/
theorem wordOf_toBytes (w : Word) : BitVec.ofNat 32 (leNat (toBytes 4 w.toNat)) = w := by
  rw [leNat_toBytes]
  refine BitVec.eq_of_toNat_eq ?_
  have := w.isLt
  simp only [BitVec.toNat_ofNat]
  omega

end Sys2Proof
end

