-- ==== Sys2Proof/Laws/Memory.lean ====
section
/-!
SUPPORT. The laws of local memory: a read after a write gives the byte written there and leaves every other byte alone, the
bytes of a wide read are the reads of its addresses, and every operation keeps the canonical form.
-/

namespace Sys2Proof.Machine

/-- Skipping to a higher address after skipping to a lower one. -/
theorem cellsFrom_cellsFrom (cs : List Host.Cell) {a a' : Nat} (h : a ≤ a') :
    cellsFrom (cellsFrom cs a) a' = cellsFrom cs a' := by
  induction cs with
  | nil => rfl
  | cons c cs ih =>
    by_cases hc : c.1 < a
    · have hc' : c.1 < a' := by omega
      simpa [cellsFrom, hc, hc'] using ih
    · simp [cellsFrom, hc]

theorem readFrom_eq (m : Memory) (cs : List Host.Cell) (a n : Nat) :
    readFrom m cs a n = (List.range n).map fun i => byteAt m (cellsFrom cs (a + i)) (a + i) := by
  induction n generalizing cs a with
  | zero => rfl
  | succ n ih =>
    rw [readFrom, ih, List.range_succ_eq_map, List.map_cons, List.map_map]
    refine congrArg (List.cons _) (List.map_congr_left fun i _ => ?_)
    simp only [Function.comp_apply, Nat.succ_eq_add_one]
    rw [cellsFrom_cellsFrom cs (by omega), show a + 1 + i = a + (i + 1) by omega]

/-- The bytes of a wide read are the reads of its addresses, in order. -/
theorem readBytes_eq (m : Memory) (a n : Nat) :
    m.readBytes a n = (List.range n).map fun i => m.read (a + i) := readFrom_eq m m.cells a n

@[simp] theorem length_readBytes (m : Memory) (a n : Nat) : (m.readBytes a n).length = n := by
  simp [readBytes_eq]

theorem readBytes_getD (m : Memory) (a n k : Nat) (h : k < n) : (m.readBytes a n).getD k 0 = m.read (a + k) := by
  simp [readBytes_eq, List.getD_eq_getElem?_getD, h]

/-- Two memories that agree on the addresses of a wide read give the same bytes. -/
theorem readBytes_congr {m m' : Memory} {a n : Nat} (h : ∀ i < n, m.read (a + i) = m'.read (a + i)) :
    m.readBytes a n = m'.readBytes a n := by
  simp only [readBytes_eq]
  exact List.map_congr_left fun i hi => h i (List.mem_range.mp hi)

theorem newCells_range (m : Memory) (a : Nat) (vs : List Byte) :
    ∀ c ∈ newCells m a vs, a ≤ c.1 ∧ c.1 < a + vs.length := by
  induction vs generalizing a with
  | nil => simp [newCells]
  | cons v vs ih =>
    intro c hc
    simp only [newCells] at hc
    have tail : c ∈ newCells m (a + 1) vs → a ≤ c.1 ∧ c.1 < a + (v :: vs).length := fun h => by
      have := ih (a + 1) c h
      simp only [List.length_cons]; omega
    split at hc
    · exact tail hc
    · rcases List.mem_cons.mp hc with rfl | h
      · simp
      · exact tail h

theorem newCells_pairwise (m : Memory) (a : Nat) (vs : List Byte) :
    (newCells m a vs).Pairwise fun c d => c.1 < d.1 := by
  induction vs generalizing a with
  | nil => simp [newCells]
  | cons v vs ih =>
    simp only [newCells]
    split
    · exact ih (a + 1)
    · refine List.pairwise_cons.mpr ⟨fun c hc => ?_, ih (a + 1)⟩
      have := (newCells_range m (a + 1) vs c hc).1
      simp only; omega

theorem newCells_nonzero (m : Memory) (hw : m.wiped = true) (a : Nat) (vs : List Byte) :
    ∀ c ∈ newCells m a vs, c.2 ≠ 0 := by
  induction vs generalizing a with
  | nil => simp [newCells]
  | cons v vs ih =>
    intro c hc
    simp only [newCells] at hc
    split at hc
    · exact ih _ c hc
    · rename_i h
      rcases List.mem_cons.mp hc with rfl | h'
      · simpa [hw] using h
      · exact ih _ c h'

/-- Cells that all lie below `a` are skipped. -/
theorem cellsFrom_append_below (cs ds : List Host.Cell) (a : Nat) (h : ∀ c ∈ cs, c.1 < a) :
    cellsFrom (cs ++ ds) a = cellsFrom ds a := by
  induction cs with
  | nil => rfl
  | cons c cs ih =>
    have hc : c.1 < a := h c (by simp)
    simpa [cellsFrom, hc] using ih fun d hd => h d (by simp [hd])

/-- Where every cell of a list lies at `a` or above, nothing is skipped. -/
theorem cellsFrom_of_ge (cs : List Host.Cell) (a : Nat) (h : ∀ c ∈ cs, a ≤ c.1) : cellsFrom cs a = cs := by
  cases cs with
  | nil => rfl
  | cons c cs =>
    have hc := h c (by simp)
    simp [cellsFrom, List.dropWhile, show ¬ c.1 < a by omega]

theorem mem_cellsBelow {cs : List Host.Cell} {a : Nat} {c : Host.Cell} (h : c ∈ cellsBelow cs a) : c.1 < a := by
  simpa using List.mem_takeWhile_imp h

/-- The first of the cells at `a` and above lies at `a` or above. -/
theorem head_cellsFrom {cs : List Host.Cell} {a : Nat} {c : Host.Cell} {ds : List Host.Cell}
    (h : cellsFrom cs a = c :: ds) : a ≤ c.1 := by
  have := List.head?_dropWhile_not (p := fun c : Host.Cell => decide (c.1 < a)) (l := cs)
  unfold cellsFrom at h
  rw [h] at this
  simpa using this

/-- A byte is unlisted when the first cell at or above it lies above it. -/
theorem byteAt_cellsFrom_of_gt (m : Memory) (cs : List Host.Cell) {a b : Nat} (h : a < b) :
    byteAt m (cellsFrom cs b) a = m.unlisted a := by
  cases hc : cellsFrom cs b with
  | nil => rfl
  | cons c ds =>
    have := head_cellsFrom hc
    simp [byteAt, show ¬ c.1 = a by omega]

/-- The bytes just written, seen from an address in or below them. -/
theorem byteAt_newCells (m : Memory) (a : Nat) (vs : List Byte) (rest : List Host.Cell) (i : Nat) (hi : i < vs.length)
    (hrest : ∀ b, b < a + vs.length → byteAt m rest b = m.unlisted b)
    (hge : ∀ c ∈ rest.head?, a + vs.length ≤ c.1) :
    byteAt m (cellsFrom (newCells m a vs ++ rest) (a + i)) (a + i) = vs.getD i 0 := by
  induction vs generalizing a i with
  | nil => simp at hi
  | cons v vs ih =>
    have hge' : ∀ c ∈ rest.head?, a + 1 + vs.length ≤ c.1 := by
      intro c hc; have := hge c hc; simp only [List.length_cons] at this; omega
    have hrest' : ∀ b, b < a + 1 + vs.length → byteAt m rest b = m.unlisted b := by
      intro b hb; exact hrest b (by simp only [List.length_cons]; omega)
    have skip : ∀ b, b ≤ a + 1 → cellsFrom (newCells m (a + 1) vs ++ rest) b = newCells m (a + 1) vs ++ rest := by
      intro b hb
      cases hl : newCells m (a + 1) vs ++ rest with
      | nil => rfl
      | cons c ds =>
        have : a + 1 ≤ c.1 := by
          cases hn : newCells m (a + 1) vs with
          | nil =>
            rw [hn, List.nil_append] at hl
            have := hge' c (by simp [hl]); omega
          | cons d es =>
            rw [hn, List.cons_append] at hl
            injection hl with h1 _
            subst h1
            exact (newCells_range m (a + 1) vs d (by simp [hn])).1
        simp [cellsFrom, List.dropWhile, show ¬ c.1 < b by omega]
    cases i with
    | zero =>
      simp only [newCells, Nat.add_zero, List.getD_cons_zero]
      split
      · rename_i hz
        simp only [Bool.and_eq_true, beq_iff_eq] at hz
        rw [skip a (by omega)]
        cases hl : newCells m (a + 1) vs ++ rest with
        | nil => simp [byteAt, Memory.unlisted, hz.1, hz.2]
        | cons c ds =>
          have hs := skip (a + 1) (by omega)
          rw [hl] at hs
          have := head_cellsFrom hs
          simp [byteAt, show ¬ c.1 = a by omega, Memory.unlisted, hz.1, hz.2]
      · simp [cellsFrom, byteAt]
    | succ i =>
      simp only [List.length_cons, Nat.add_lt_add_iff_right] at hi
      simp only [newCells, List.getD_cons_succ]
      rw [show a + (i + 1) = a + 1 + i by omega]
      split
      · exact ih (a + 1) i hi hrest' hge'
      · have hlt : a < a + 1 + i := by omega
        rw [List.cons_append, show cellsFrom ((a, v) :: (newCells m (a + 1) vs ++ rest)) (a + 1 + i)
          = cellsFrom (newCells m (a + 1) vs ++ rest) (a + 1 + i) by simp [cellsFrom, hlt]]
        exact ih (a + 1) i hi hrest' hge'

/-- A byte that was written reads as what was written. -/
theorem read_writeBytes_inside (m : Memory) (a : Nat) (vs : List Byte) (i : Nat) (hi : i < vs.length) :
    (m.writeBytes a vs).read (a + i) = vs.getD i 0 := by
  have below : ∀ c ∈ cellsBelow m.cells a, c.1 < a + i := fun c hc => by have := mem_cellsBelow hc; omega
  show byteAt (m.writeBytes a vs) (cellsFrom (cellsBelow m.cells a ++ _) (a + i)) (a + i) = _
  rw [cellsFrom_append_below _ _ _ below]
  refine byteAt_newCells m a vs _ i hi (fun b hb => byteAt_cellsFrom_of_gt m _ hb) fun c hc => ?_
  cases hd : cellsFrom m.cells (a + vs.length) with
  | nil => simp [hd] at hc
  | cons d ds =>
    simp only [hd, List.head?_cons, Option.mem_def, Option.some.injEq] at hc
    subst hc; exact head_cellsFrom hd

/-- A byte outside the written addresses reads as before. -/
theorem read_writeBytes_outside (m : Memory) (a : Nat) (vs : List Byte) (b : Nat)
    (h : b < a ∨ a + vs.length ≤ b) : (m.writeBytes a vs).read b = m.read b := by
  show byteAt m (cellsFrom (cellsBelow m.cells a ++ (newCells m a vs ++ cellsFrom m.cells (a + vs.length))) b) b = m.read b
  rcases h with h | h
  · have later : ∀ ds : List Host.Cell, cellsFrom (newCells m a vs ++ cellsFrom m.cells (a + vs.length)) b = ds →
        byteAt m ds b = m.unlisted b := by
      rintro ds rfl
      cases hn : newCells m a vs with
      | nil =>
        rw [List.nil_append]
        cases hc : cellsFrom m.cells (a + vs.length) with
        | nil => rfl
        | cons c es =>
          have := head_cellsFrom hc
          simp [cellsFrom, List.dropWhile, show ¬ c.1 < b by omega, byteAt, show ¬ c.1 = b by omega]
      | cons c es =>
        have := (newCells_range m a vs c (by simp [hn])).1
        simp [cellsFrom, show ¬ c.1 < b by omega, byteAt, show ¬ c.1 = b by omega]
    have split : m.cells = cellsBelow m.cells a ++ cellsFrom m.cells a := (List.takeWhile_append_dropWhile).symm
    unfold Memory.read
    conv_rhs => rw [split]
    generalize hp : cellsBelow m.cells a = p
    have hpre : ∀ c ∈ p, c.1 < a := fun c hc => mem_cellsBelow (hp ▸ hc)
    clear hp split
    induction p with
    | nil =>
      rw [List.nil_append, List.nil_append, later _ rfl]
      cases hc : cellsFrom m.cells a with
      | nil => rfl
      | cons c es =>
        have := head_cellsFrom hc
        simp [cellsFrom, show ¬ c.1 < b by omega, byteAt, show ¬ c.1 = b by omega]
    | cons c p ih =>
      by_cases hc : c.1 < b
      · simpa [cellsFrom, hc] using ih fun d hd => hpre d (by simp [hd])
      · simp [cellsFrom, hc, byteAt]
  · have below : ∀ c ∈ cellsBelow m.cells a, c.1 < b := fun c hc => by have := mem_cellsBelow hc; omega
    have new : ∀ c ∈ newCells m a vs, c.1 < b := fun c hc => by have := newCells_range m a vs c hc; omega
    rw [cellsFrom_append_below _ _ _ below, cellsFrom_append_below _ _ _ new, cellsFrom_cellsFrom _ h]
    rfl

/-- Reading back a whole block that was written. -/
theorem readBytes_writeBytes (m : Memory) (a : Nat) (vs : List Byte) :
    (m.writeBytes a vs).readBytes a vs.length = vs := by
  rw [readBytes_eq]
  refine List.ext_getElem (by simp) fun i h1 h2 => ?_
  simp [read_writeBytes_inside m a vs i h2, List.getD_eq_getElem?_getD, h2]

/-- The list of cells rises strictly and, after a WIPE, lists no zero byte. -/
theorem wf_iff (m : Memory) :
    m.wf = true ↔ m.cells.Pairwise (fun c d => c.1 < d.1) ∧ (m.wiped = true → ∀ c ∈ m.cells, c.2 ≠ 0) := by
  cases hw : m.wiped <;> simp [Memory.wf, hw, List.all_eq_true]

/-- Writing keeps the canonical form. -/
theorem wf_writeBytes (m : Memory) (a : Nat) (vs : List Byte) (h : m.wf = true) : (m.writeBytes a vs).wf = true := by
  rw [wf_iff] at h ⊢
  obtain ⟨hp, hz⟩ := h
  have sub1 : (cellsBelow m.cells a).Sublist m.cells := List.takeWhile_sublist _
  have sub2 : (cellsFrom m.cells (a + vs.length)).Sublist m.cells := List.dropWhile_sublist _
  have high : ∀ c ∈ cellsFrom m.cells (a + vs.length), a + vs.length ≤ c.1 := by
    intro c hc
    cases hd : cellsFrom m.cells (a + vs.length) with
    | nil => simp [hd] at hc
    | cons d ds =>
      have h1 := head_cellsFrom hd
      have h2 := hd ▸ hp.sublist sub2
      rw [hd] at hc
      rcases List.mem_cons.mp hc with rfl | hc'
      · exact h1
      · have := List.rel_of_pairwise_cons h2 hc'; omega
  constructor
  · refine List.pairwise_append.mpr ⟨hp.sublist sub1, List.pairwise_append.mpr
      ⟨newCells_pairwise m a vs, hp.sublist sub2, fun c hc d hd => ?_⟩, fun c hc d hd => ?_⟩
    · have := newCells_range m a vs c hc; have := high d hd; omega
    · have h1 := mem_cellsBelow hc
      rcases List.mem_append.mp hd with hd' | hd'
      · have := newCells_range m a vs d hd'; omega
      · have := high d hd'; omega
  · intro hw c hc
    have hw' : m.wiped = true := hw
    rcases List.mem_append.mp hc with h1 | h1
    · exact hz hw' c (sub1.mem h1)
    · rcases List.mem_append.mp h1 with h2 | h2
      · exact newCells_nonzero m hw' a vs c h2
      · exact hz hw' c (sub2.mem h2)

theorem inside_iff (m : Memory) (size : Nat) : m.inside size = true ↔ ∀ c ∈ m.cells, c.1 < size := by
  simp [Memory.inside, List.all_eq_true]

/-- Writing inside memory keeps every listed address inside memory. -/
theorem inside_writeBytes (m : Memory) (a : Nat) (vs : List Byte) (size : Nat) (h : m.inside size = true)
    (hs : a + vs.length ≤ size) : (m.writeBytes a vs).inside size = true := by
  rw [inside_iff] at h ⊢
  intro c hc
  rcases List.mem_append.mp hc with h1 | h1
  · have := mem_cellsBelow h1; omega
  · rcases List.mem_append.mp h1 with h2 | h2
    · have := newCells_range m a vs c h2; omega
    · exact h c ((List.dropWhile_sublist _).mem h2)

@[simp] theorem read_wipe (m : Memory) (a : Nat) : m.wipe.read a = 0 := rfl

@[simp] theorem wf_wipe (m : Memory) : m.wipe.wf = true := rfl

@[simp] theorem inside_wipe (m : Memory) (size : Nat) : m.wipe.inside size = true := rfl

/-- Memory right after reset is in canonical form, and each byte holds its unspecified value. -/
theorem wf_reset (p : Params) (epoch : Nat) : (resetState p epoch).mem.wf = true := rfl

theorem read_reset (p : Params) (epoch a : Nat) : (resetState p epoch).mem.read a = Config.powerOnByte epoch a := rfl

@[simp] theorem wiped_writeBytes (m : Memory) (a : Nat) (vs : List Byte) : (m.writeBytes a vs).wiped = m.wiped := rfl

@[simp] theorem epoch_writeBytes (m : Memory) (a : Nat) (vs : List Byte) : (m.writeBytes a vs).epoch = m.epoch := rfl

end Sys2Proof.Machine
end

