-- ==== Sys2Proof/Laws/Ring.lean ====
section
/-!
SUPPORT. What the arithmetic of Machine/Ring.lean computes, bit by bit and coefficient by coefficient: the rotation (R103),
the cyclic product as the sum of rule R121 and rule R153 (`cyclicConv_eq`), the ternary encoding (R123), and that every
result is well formed.
-/

namespace Sys2Proof.Machine

section Convolution

open Polynomial

theorem sum_map_range (n : Nat) (f : Nat → Nat) : ((List.range n).map f).sum = ∑ i ∈ Finset.range n, f i := by
  induction n with
  | zero => rfl
  | succ n ih => simp [List.range_succ, Finset.sum_range_succ, ih]

theorem packDigits_eq_sum (w : Nat) (l : List Nat) :
    packDigits w l = ∑ i ∈ Finset.range l.length, l.getD i 0 * (2 ^ w) ^ i := by
  induction l with
  | nil => simp [packDigits]
  | cons c l ih =>
    rw [packDigits, ih, List.length_cons, Finset.sum_range_succ', Finset.mul_sum]
    simp only [List.getD_cons_zero, List.getD_cons_succ, pow_zero, mul_one, pow_succ]
    rw [add_comm]
    congr 1
    exact Finset.sum_congr rfl fun i _ => by ring

/-- The digits of a packed list are the list, where each entry fits its digit. -/
theorem digitAt_packDigits (w : Nat) (l : List Nat) (h : ∀ c ∈ l, c < 2 ^ w) (k : Nat) :
    digitAt w (packDigits w l) k = l.getD k 0 := by
  induction l generalizing k with
  | nil => simp [digitAt, packDigits]
  | cons c l ih =>
    have hc : c < 2 ^ w := h c (by simp)
    cases k with
    | zero => simp [digitAt, packDigits, Nat.mod_eq_of_lt hc]
    | succ k =>
      have : (c + 2 ^ w * packDigits w l) >>> (w * (k + 1)) = packDigits w l >>> (w * k) := by
        rw [Nat.mul_succ, Nat.add_comm (w * k) w, Nat.shiftRight_add]
        congr 1
        rw [Nat.shiftRight_eq_div_pow, Nat.add_mul_div_left _ _ (Nat.two_pow_pos w), Nat.div_eq_of_lt hc, Nat.zero_add]
      rw [digitAt, packDigits, this, List.getD_cons_succ, ← ih (fun d hd => h d (by simp [hd])) k, digitAt]

/-- The polynomial with the first `n` entries of a list as coefficients. -/
noncomputable def polyOf (n : Nat) (a : List Nat) : ℕ[X] := ∑ i ∈ Finset.range n, C (a.getD i 0) * X ^ i

theorem coeff_polyOf (n : Nat) (a : List Nat) (k : Nat) :
    (polyOf n a).coeff k = if k < n then a.getD k 0 else 0 := by
  simp only [polyOf, finsetSum_coeff, coeff_C_mul, coeff_X_pow, mul_ite, mul_one, mul_zero]
  simp

theorem eval_polyOf (n : Nat) (a : List Nat) (x : Nat) :
    (polyOf n a).eval x = ∑ i ∈ Finset.range n, a.getD i 0 * x ^ i := by
  simp [polyOf, eval_finsetSum]

theorem natDegree_polyOf_lt (n : Nat) (hn : 0 < n) (a : List Nat) : (polyOf n a).natDegree < n := by
  refine lt_of_le_of_lt (natDegree_le_iff_coeff_eq_zero.mpr fun k hk => ?_) (Nat.sub_lt hn one_pos)
  rw [coeff_polyOf, if_neg (by omega)]

/-- Coefficient k of the plain product of two coefficient lists, before x^N = 1 is used. -/
noncomputable def plainCoeff (n : Nat) (a b : List Nat) (k : Nat) : Nat := (polyOf n a * polyOf n b).coeff k

theorem plainCoeff_le (n : Nat) (a b : List Nat) (k : Nat) :
    plainCoeff n a b k ≤ (polyOf n a).eval 1 * (polyOf n b).eval 1 := by
  rw [← eval_mul, eval_eq_sum_range]
  by_cases hk : k ≤ (polyOf n a * polyOf n b).natDegree
  · calc plainCoeff n a b k = (polyOf n a * polyOf n b).coeff k * 1 ^ k := by simp [plainCoeff]
      _ ≤ _ := Finset.single_le_sum (f := fun i => (polyOf n a * polyOf n b).coeff i * 1 ^ i)
        (fun i _ => Nat.zero_le _) (Finset.mem_range.mpr (by omega))
  · rw [plainCoeff, coeff_eq_zero_of_natDegree_lt (by omega)]
    exact Nat.zero_le _

theorem getD_take (a : List Nat) (n i : Nat) (h : i < n) : (a.take n).getD i 0 = a.getD i 0 := by
  simp [List.getD_eq_getElem?_getD, h]

theorem sum_eq_range (l : List Nat) : l.sum = ∑ i ∈ Finset.range l.length, l.getD i 0 := by
  simpa [packDigits] using (show l.sum = packDigits 0 l by
    induction l with
    | nil => rfl
    | cons c l ih => simp [packDigits, ih]).trans (packDigits_eq_sum 0 l)

theorem sum_range_extend (l : List Nat) (n : Nat) (h : l.length ≤ n) (f : Nat → Nat) :
    ∑ i ∈ Finset.range l.length, l.getD i 0 * f i = ∑ i ∈ Finset.range n, l.getD i 0 * f i := by
  refine Finset.sum_subset (Finset.range_mono h) fun i _ hi => ?_
  have : l.length ≤ i := by simpa using hi
  simp [List.getD_eq_getElem?_getD, List.getElem?_eq_none this]

theorem packDigits_take (w n : Nat) (a : List Nat) : packDigits w (a.take n) = (polyOf n a).eval (2 ^ w) := by
  rw [packDigits_eq_sum, sum_range_extend _ n (by simp), eval_polyOf]
  exact Finset.sum_congr rfl fun i hi => by rw [getD_take a n i (Finset.mem_range.mp hi)]

theorem sum_take (n : Nat) (a : List Nat) : (a.take n).sum = (polyOf n a).eval 1 := by
  have h := sum_range_extend (a.take n) n (by simp) (fun _ => 1)
  simp only [mul_one] at h
  rw [sum_eq_range, h, eval_polyOf]
  exact Finset.sum_congr rfl fun i hi => by rw [getD_take a n i (Finset.mem_range.mp hi)]; simp

/-- The product of the packed lists is the packed list of the plain product's coefficients. -/
theorem packDigits_mul (w n : Nat) (hn : 0 < n) (a b : List Nat) :
    packDigits w (a.take n) * packDigits w (b.take n)
      = packDigits w ((List.range (2 * n)).map (plainCoeff n a b)) := by
  rw [packDigits_take, packDigits_take, ← eval_mul, packDigits_eq_sum]
  have hdeg : (polyOf n a * polyOf n b).natDegree < 2 * n := by
    have h1 := natDegree_polyOf_lt n hn a
    have h2 := natDegree_polyOf_lt n hn b
    have h3 := natDegree_mul_le (p := polyOf n a) (q := polyOf n b)
    omega
  rw [eval_eq_sum_range' hdeg, List.length_map, List.length_range]
  refine Finset.sum_congr rfl fun k hk => ?_
  have hk' : k < 2 * n := Finset.mem_range.mp hk
  simp [List.getD_eq_getElem?_getD, hk', plainCoeff]

theorem plainCoeff_low (n : Nat) (a b : List Nat) (k : Nat) (hk : k < n) :
    plainCoeff n a b k = ∑ i ∈ Finset.range n, if i ≤ k then a.getD i 0 * b.getD (k - i) 0 else 0 := by
  rw [plainCoeff, coeff_mul, Finset.Nat.sum_antidiagonal_eq_sum_range_succ_mk, ← Finset.sum_filter]
  refine Finset.sum_congr ?_ fun i hi => ?_
  · ext i; simp; omega
  · have := (Finset.mem_filter.mp hi).1; simp only [Finset.mem_range] at this
    have := (Finset.mem_filter.mp hi).2
    simp only [coeff_polyOf]
    rw [if_pos (by omega), if_pos (by omega)]

theorem plainCoeff_high (n : Nat) (a b : List Nat) (k : Nat) :
    plainCoeff n a b (n + k) = ∑ i ∈ Finset.range n, if i ≤ k then 0 else a.getD i 0 * b.getD (n + k - i) 0 := by
  rw [plainCoeff, coeff_mul, Finset.Nat.sum_antidiagonal_eq_sum_range_succ_mk]
  have : ∀ i, (if i ≤ k then 0 else a.getD i 0 * b.getD (n + k - i) 0)
      = if k < i then a.getD i 0 * b.getD (n + k - i) 0 else 0 := fun i => by split <;> split <;> first | rfl | omega
  simp only [this]
  rw [← Finset.sum_filter, ← Finset.sum_subset (s₁ := (Finset.range n).filter fun i => k < i)]
  · refine Finset.sum_congr rfl fun i hi => ?_
    have h1 := (Finset.mem_filter.mp hi).1; simp only [Finset.mem_range] at h1
    have h2 := (Finset.mem_filter.mp hi).2
    simp only [coeff_polyOf]
    rw [if_pos (by omega), if_pos (by omega)]
  · intro i hi; simp only [Finset.mem_filter, Finset.mem_range] at hi ⊢; omega
  · intro i hi hni
    simp only [Finset.mem_filter, Finset.mem_range, not_and, not_lt] at hi hni
    simp only [coeff_polyOf]
    by_cases hin : i < n
    · rw [if_neg (show ¬ n + k - i < n by have := hni hin; omega), mul_zero]
    · rw [if_neg hin, zero_mul]

/-- The fast product is the cyclic product: coefficient k is the sum over i of a(i) * b((k - i) mod N) (R121, R153). -/
theorem cyclicConv_eq (n : Nat) (a b : List Nat) : cyclicConv n a b = (List.range n).map (convCoeff n a b) := by
  rcases Nat.eq_zero_or_pos n with rfl | hn
  · rfl
  have bound : ∀ c ∈ (List.range (2 * n)).map (plainCoeff n a b), c < 2 ^ digitWidth (a.take n) (b.take n) := by
    intro c hc
    obtain ⟨k, _, rfl⟩ := List.mem_map.mp hc
    refine lt_of_le_of_lt (plainCoeff_le n a b k) ?_
    rw [← sum_take, ← sum_take, digitWidth]
    exact Nat.lt_log2_self
  rw [cyclicConv, foldDigits, packDigits_mul _ n hn]
  refine List.map_congr_left fun k hk => ?_
  have hk' : k < n := List.mem_range.mp hk
  rw [digitAt_packDigits _ _ bound, digitAt_packDigits _ _ bound]
  have g : ∀ j < 2 * n, ((List.range (2 * n)).map (plainCoeff n a b)).getD j 0 = plainCoeff n a b j := fun j hj => by
    simp [List.getD_eq_getElem?_getD, hj]
  rw [g k (by omega), g (n + k) (by omega), plainCoeff_low n a b k hk', plainCoeff_high n a b k,
    ← Finset.sum_add_distrib, convCoeff, sum_map_range]
  refine Finset.sum_congr rfl fun i hi => ?_
  have hi' : i < n := Finset.mem_range.mp hi
  by_cases h : i ≤ k
  · rw [if_pos h, if_pos h, show k + n - i = (k - i) + n by omega, Nat.add_mod_right, Nat.mod_eq_of_lt (by omega), add_zero]
  · rw [if_neg h, if_neg h, Nat.mod_eq_of_lt (by omega), zero_add, show n + k - i = k + n - i by omega]

end Convolution

@[simp] theorem length_cyclicConv (n : Nat) (a b : List Nat) : (cyclicConv n a b).length = n := by
  simp [cyclicConv_eq]

theorem getD_cyclicConv (n : Nat) (a b : List Nat) (k : Nat) (h : k < n) :
    (cyclicConv n a b).getD k 0 = convCoeff n a b k := by
  simp [cyclicConv_eq, List.getD_eq_getElem?_getD, h]

/-- Bit k of an N-bit value built bit by bit. -/
theorem testBit_bitsOf (n : Nat) (f : Nat → Bool) (k : Nat) :
    Nat.testBit (bitsOf n f) k = (decide (k < n) && f k) := by
  rw [bitsOf, testBit_ofBits, List.getD_eq_getElem?_getD]
  by_cases h : k < n <;> simp [h]

theorem bitsOf_lt (n : Nat) (f : Nat → Bool) : bitsOf n f < 2 ^ n := by
  simpa [bitsOf] using ofBits_lt ((List.range n).map f)

theorem maskBits_lt (n v : Nat) : maskBits n v < 2 ^ n := Nat.mod_lt _ (Nat.two_pow_pos n)

theorem testBit_maskBits (n v k : Nat) : Nat.testBit (maskBits n v) k = (decide (k < n) && Nat.testBit v k) := by
  simp [maskBits, Nat.testBit_mod_two_pow]

/-- Rotation moves bit (k + sh) mod N to bit k (R103). -/
theorem testBit_rotateRight (n : Nat) (p : BitPoly) (sh k : Nat) :
    Nat.testBit (rotateRight n p sh) k = (decide (k < n) && Nat.testBit p ((k + sh) % n)) := testBit_bitsOf n _ k

@[simp] theorem length_trits (n : Nat) (v : TernaryPoly) : (trits n v).length = n := by simp [trits]

theorem getD_trits (n : Nat) (v : TernaryPoly) (k : Nat) (h : k < n) : (trits n v).getD k 0 = tritAt v k := by
  simp [trits, List.getD_eq_getElem?_getD, h]

theorem tritAt_lt (v : TernaryPoly) (k : Nat) : tritAt v k < 3 := by
  unfold tritAt; split
  · omega
  · split <;> omega

/-- The coefficients of an encoded list of residues are the residues (R123). -/
theorem tritAt_encodeTrits (e : List Nat) (h : ∀ v ∈ e, v < 3) (k : Nat) : tritAt (encodeTrits e) k = e.getD k 0 := by
  have hk : e.getD k 0 < 3 := by
    rw [List.getD_eq_getElem?_getD]
    cases hg : e[k]? with
    | none => simp
    | some v => exact h v (List.mem_of_getElem? hg)
  have key : ∀ f : Nat → Bool, f 0 = false → (e.map f).getD k false = f (e.getD k 0) := by
    intro f hf
    simp only [List.getD_eq_getElem?_getD, List.getElem?_map]
    cases e[k]? <;> simp [hf]
  simp only [tritAt, encodeTrits, testBit_ofBits]
  rw [key _ rfl, key _ rfl]
  generalize e.getD k 0 = v at hk
  match v, hk with
  | 0, _ => rfl
  | 1, _ => rfl
  | 2, _ => rfl

/-- An encoded list of N residues is a well-formed ternary value: it never holds the pair (1,0) (R123). -/
theorem wf_encodeTrits (n : Nat) (e : List Nat) (h : e.length = n) : TernaryPoly.wf n (encodeTrits e) = true := by
  have sub : (encodeTrits e).s &&& (encodeTrits e).a = (encodeTrits e).s := by
    refine Nat.eq_of_testBit_eq fun k => ?_
    simp only [Nat.testBit_and, encodeTrits, testBit_ofBits, List.getD_eq_getElem?_getD, List.getElem?_map]
    cases e[k]? with
    | none => rfl
    | some v => by_cases hv : v = 2 <;> simp [hv]
  have h1 : (encodeTrits e).s < 2 ^ n := by
    have := ofBits_lt (e.map fun v => v == 2)
    rwa [List.length_map, h] at this
  have h2 : (encodeTrits e).a < 2 ^ n := by
    have := ofBits_lt (e.map fun v => v != 0)
    rwa [List.length_map, h] at this
  simp [TernaryPoly.wf, BitPoly.wf, h1, h2, sub]

@[simp] theorem length_conv3 (n : Nat) (v w : TernaryPoly) : (conv3 n v w).length = n := by simp [conv3]

/-- Coefficient k of CONV3 is the cyclic sum modulo 3 (R121). -/
theorem getD_conv3 (n : Nat) (v w : TernaryPoly) (k : Nat) (h : k < n) :
    (conv3 n v w).getD k 0 = convCoeff n (trits n v) (trits n w) k % 3 := by
  simp [conv3, cyclicConv_eq, List.getD_eq_getElem?_getD, h]

@[simp] theorem length_reduceTrits (n : Nat) (c : List Nat) : (reduceTrits n c).length = c.length := by
  simp [reduceTrits]

theorem getD_reduceTrits (n : Nat) (c : List Nat) (k : Nat) (h : k < c.length) :
    (reduceTrits n c).getD k 0 = (c.getD k 0 + 3 - c.getD (n - 1) 0) % 3 := by
  simp [reduceTrits, List.getD_eq_getElem?_getD, h]

theorem reduceTrits_lt (n : Nat) (c : List Nat) : ∀ v ∈ reduceTrits n c, v < 3 := by
  intro v hv
  obtain ⟨x, _, rfl⟩ := List.mem_map.mp hv
  exact Nat.mod_lt _ (by decide)

theorem wf_ternaryMul (n : Nat) (v w : TernaryPoly) : TernaryPoly.wf n (ternaryMul n v w) = true :=
  wf_encodeTrits n _ (by simp)

/-- Coefficient k of a ternary product is coefficient k of RED(CONV3) (R126). -/
theorem tritAt_ternaryMul (n : Nat) (v w : TernaryPoly) (k : Nat) :
    tritAt (ternaryMul n v w) k = (reduceTrits n (conv3 n v w)).getD k 0 :=
  tritAt_encodeTrits _ (reduceTrits_lt n _) k

theorem wf_nonInvertibleResult (p : Params) (v : TernaryPoly) :
    TernaryPoly.wf p.n (nonInvertibleResult p v) = true := wf_encodeTrits p.n _ (by simp)

theorem wf_ternaryInverse (p : Params) (v : TernaryPoly) : TernaryPoly.wf p.n (ternaryInverse p v) = true := by
  unfold ternaryInverse
  split
  · exact wf_ternaryMul _ _ _
  · exact wf_nonInvertibleResult p v

theorem wf_truncPoly_iff (n logQ : Nat) (c : TruncPoly) :
    TruncPoly.wf n logQ c = true ↔ c.length = n ∧ ∀ v ∈ c, v < 2 ^ logQ := by
  simp [TruncPoly.wf, List.all_eq_true]

/-- A list of N residues modulo Q is a well-formed TruncRing value (R152). -/
theorem wf_map_mod (n logQ : Nat) (l : List Nat) (f : Nat → Nat) (h : l.length = n) (hf : ∀ v, f v < 2 ^ logQ) :
    TruncPoly.wf n logQ (l.map f) = true := by
  rw [wf_truncPoly_iff]
  refine ⟨by simp [h], fun v hv => ?_⟩
  obtain ⟨x, _, rfl⟩ := List.mem_map.mp hv
  exact hf x

theorem getD_truncMul (n q : Nat) (a b : TruncPoly) (k : Nat) (h : k < n) :
    (truncMul n q a b).getD k 0 = convCoeff n a b k % q := by
  simp [truncMul, cyclicConv_eq, List.getD_eq_getElem?_getD, h]

end Sys2Proof.Machine
end

