-- ==== Sys2Proof/Laws/State.lean ====
section
/-!
SUPPORT. What each update of the state leaves in each field, one lemma for each, so that no proof unfolds an update; and
reading a register after writing one.
-/

namespace Sys2Proof.Machine

@[simp] theorem setX_params (r : XReg) (v : Word) (s : State) : (setX r v s).params = s.params := rfl
@[simp] theorem setX_pc (r : XReg) (v : Word) (s : State) : (setX r v s).pc = s.pc := rfl
@[simp] theorem setX_x (r : XReg) (v : Word) (s : State) : (setX r v s).x = s.x.set r.val v r.isLt := rfl
@[simp] theorem setX_b (r : XReg) (v : Word) (s : State) : (setX r v s).b = s.b := rfl
@[simp] theorem setX_t (r : XReg) (v : Word) (s : State) : (setX r v s).t = s.t := rfl
@[simp] theorem setX_z (r : XReg) (v : Word) (s : State) : (setX r v s).z = s.z := rfl
@[simp] theorem setX_mem (r : XReg) (v : Word) (s : State) : (setX r v s).mem = s.mem := rfl
@[simp] theorem setX_accelEn (r : XReg) (v : Word) (s : State) : (setX r v s).accelEn = s.accelEn := rfl
@[simp] theorem setX_lock (r : XReg) (v : Word) (s : State) : (setX r v s).lock = s.lock := rfl
@[simp] theorem setX_ie (r : XReg) (v : Word) (s : State) : (setX r v s).ie = s.ie := rfl
@[simp] theorem setX_busy (r : XReg) (v : Word) (s : State) : (setX r v s).busy = s.busy := rfl
@[simp] theorem setX_done (r : XReg) (v : Word) (s : State) : (setX r v s).done = s.done := rfl
@[simp] theorem setX_err (r : XReg) (v : Word) (s : State) : (setX r v s).err = s.err := rfl
@[simp] theorem setX_entry (r : XReg) (v : Word) (s : State) : (setX r v s).entry = s.entry := rfl
@[simp] theorem setX_pcReg (r : XReg) (v : Word) (s : State) : (setX r v s).pcReg = s.pcReg := rfl
@[simp] theorem setX_errCause (r : XReg) (v : Word) (s : State) : (setX r v s).errCause = s.errCause := rfl
@[simp] theorem setX_errPc (r : XReg) (v : Word) (s : State) : (setX r v s).errPc = s.errPc := rfl
@[simp] theorem setX_errInfo (r : XReg) (v : Word) (s : State) : (setX r v s).errInfo = s.errInfo := rfl
@[simp] theorem setX_agenda (r : XReg) (v : Word) (s : State) : (setX r v s).agenda = s.agenda := rfl
@[simp] theorem setX_replies (r : XReg) (v : Word) (s : State) : (setX r v s).replies = s.replies := rfl

@[simp] theorem setB_params (r : BReg) (v : BitPoly) (s : State) : (setB r v s).params = s.params := rfl
@[simp] theorem setB_pc (r : BReg) (v : BitPoly) (s : State) : (setB r v s).pc = s.pc := rfl
@[simp] theorem setB_x (r : BReg) (v : BitPoly) (s : State) : (setB r v s).x = s.x := rfl
@[simp] theorem setB_b (r : BReg) (v : BitPoly) (s : State) : (setB r v s).b = s.b.set r.val v r.isLt := rfl
@[simp] theorem setB_t (r : BReg) (v : BitPoly) (s : State) : (setB r v s).t = s.t := rfl
@[simp] theorem setB_z (r : BReg) (v : BitPoly) (s : State) : (setB r v s).z = s.z := rfl
@[simp] theorem setB_mem (r : BReg) (v : BitPoly) (s : State) : (setB r v s).mem = s.mem := rfl
@[simp] theorem setB_accelEn (r : BReg) (v : BitPoly) (s : State) : (setB r v s).accelEn = s.accelEn := rfl
@[simp] theorem setB_lock (r : BReg) (v : BitPoly) (s : State) : (setB r v s).lock = s.lock := rfl
@[simp] theorem setB_ie (r : BReg) (v : BitPoly) (s : State) : (setB r v s).ie = s.ie := rfl
@[simp] theorem setB_busy (r : BReg) (v : BitPoly) (s : State) : (setB r v s).busy = s.busy := rfl
@[simp] theorem setB_done (r : BReg) (v : BitPoly) (s : State) : (setB r v s).done = s.done := rfl
@[simp] theorem setB_err (r : BReg) (v : BitPoly) (s : State) : (setB r v s).err = s.err := rfl
@[simp] theorem setB_entry (r : BReg) (v : BitPoly) (s : State) : (setB r v s).entry = s.entry := rfl
@[simp] theorem setB_pcReg (r : BReg) (v : BitPoly) (s : State) : (setB r v s).pcReg = s.pcReg := rfl
@[simp] theorem setB_errCause (r : BReg) (v : BitPoly) (s : State) : (setB r v s).errCause = s.errCause := rfl
@[simp] theorem setB_errPc (r : BReg) (v : BitPoly) (s : State) : (setB r v s).errPc = s.errPc := rfl
@[simp] theorem setB_errInfo (r : BReg) (v : BitPoly) (s : State) : (setB r v s).errInfo = s.errInfo := rfl
@[simp] theorem setB_agenda (r : BReg) (v : BitPoly) (s : State) : (setB r v s).agenda = s.agenda := rfl
@[simp] theorem setB_replies (r : BReg) (v : BitPoly) (s : State) : (setB r v s).replies = s.replies := rfl

@[simp] theorem setT_params (r : TReg) (v : TernaryPoly) (s : State) : (setT r v s).params = s.params := rfl
@[simp] theorem setT_pc (r : TReg) (v : TernaryPoly) (s : State) : (setT r v s).pc = s.pc := rfl
@[simp] theorem setT_x (r : TReg) (v : TernaryPoly) (s : State) : (setT r v s).x = s.x := rfl
@[simp] theorem setT_b (r : TReg) (v : TernaryPoly) (s : State) : (setT r v s).b = s.b := rfl
@[simp] theorem setT_t (r : TReg) (v : TernaryPoly) (s : State) : (setT r v s).t = s.t.set r.val v r.isLt := rfl
@[simp] theorem setT_z (r : TReg) (v : TernaryPoly) (s : State) : (setT r v s).z = s.z := rfl
@[simp] theorem setT_mem (r : TReg) (v : TernaryPoly) (s : State) : (setT r v s).mem = s.mem := rfl
@[simp] theorem setT_accelEn (r : TReg) (v : TernaryPoly) (s : State) : (setT r v s).accelEn = s.accelEn := rfl
@[simp] theorem setT_lock (r : TReg) (v : TernaryPoly) (s : State) : (setT r v s).lock = s.lock := rfl
@[simp] theorem setT_ie (r : TReg) (v : TernaryPoly) (s : State) : (setT r v s).ie = s.ie := rfl
@[simp] theorem setT_busy (r : TReg) (v : TernaryPoly) (s : State) : (setT r v s).busy = s.busy := rfl
@[simp] theorem setT_done (r : TReg) (v : TernaryPoly) (s : State) : (setT r v s).done = s.done := rfl
@[simp] theorem setT_err (r : TReg) (v : TernaryPoly) (s : State) : (setT r v s).err = s.err := rfl
@[simp] theorem setT_entry (r : TReg) (v : TernaryPoly) (s : State) : (setT r v s).entry = s.entry := rfl
@[simp] theorem setT_pcReg (r : TReg) (v : TernaryPoly) (s : State) : (setT r v s).pcReg = s.pcReg := rfl
@[simp] theorem setT_errCause (r : TReg) (v : TernaryPoly) (s : State) : (setT r v s).errCause = s.errCause := rfl
@[simp] theorem setT_errPc (r : TReg) (v : TernaryPoly) (s : State) : (setT r v s).errPc = s.errPc := rfl
@[simp] theorem setT_errInfo (r : TReg) (v : TernaryPoly) (s : State) : (setT r v s).errInfo = s.errInfo := rfl
@[simp] theorem setT_agenda (r : TReg) (v : TernaryPoly) (s : State) : (setT r v s).agenda = s.agenda := rfl
@[simp] theorem setT_replies (r : TReg) (v : TernaryPoly) (s : State) : (setT r v s).replies = s.replies := rfl

@[simp] theorem setZ_params (r : ZReg) (v : TruncPoly) (s : State) : (setZ r v s).params = s.params := rfl
@[simp] theorem setZ_pc (r : ZReg) (v : TruncPoly) (s : State) : (setZ r v s).pc = s.pc := rfl
@[simp] theorem setZ_x (r : ZReg) (v : TruncPoly) (s : State) : (setZ r v s).x = s.x := rfl
@[simp] theorem setZ_b (r : ZReg) (v : TruncPoly) (s : State) : (setZ r v s).b = s.b := rfl
@[simp] theorem setZ_t (r : ZReg) (v : TruncPoly) (s : State) : (setZ r v s).t = s.t := rfl
@[simp] theorem setZ_z (r : ZReg) (v : TruncPoly) (s : State) : (setZ r v s).z = s.z.set r.val v r.isLt := rfl
@[simp] theorem setZ_mem (r : ZReg) (v : TruncPoly) (s : State) : (setZ r v s).mem = s.mem := rfl
@[simp] theorem setZ_accelEn (r : ZReg) (v : TruncPoly) (s : State) : (setZ r v s).accelEn = s.accelEn := rfl
@[simp] theorem setZ_lock (r : ZReg) (v : TruncPoly) (s : State) : (setZ r v s).lock = s.lock := rfl
@[simp] theorem setZ_ie (r : ZReg) (v : TruncPoly) (s : State) : (setZ r v s).ie = s.ie := rfl
@[simp] theorem setZ_busy (r : ZReg) (v : TruncPoly) (s : State) : (setZ r v s).busy = s.busy := rfl
@[simp] theorem setZ_done (r : ZReg) (v : TruncPoly) (s : State) : (setZ r v s).done = s.done := rfl
@[simp] theorem setZ_err (r : ZReg) (v : TruncPoly) (s : State) : (setZ r v s).err = s.err := rfl
@[simp] theorem setZ_entry (r : ZReg) (v : TruncPoly) (s : State) : (setZ r v s).entry = s.entry := rfl
@[simp] theorem setZ_pcReg (r : ZReg) (v : TruncPoly) (s : State) : (setZ r v s).pcReg = s.pcReg := rfl
@[simp] theorem setZ_errCause (r : ZReg) (v : TruncPoly) (s : State) : (setZ r v s).errCause = s.errCause := rfl
@[simp] theorem setZ_errPc (r : ZReg) (v : TruncPoly) (s : State) : (setZ r v s).errPc = s.errPc := rfl
@[simp] theorem setZ_errInfo (r : ZReg) (v : TruncPoly) (s : State) : (setZ r v s).errInfo = s.errInfo := rfl
@[simp] theorem setZ_agenda (r : ZReg) (v : TruncPoly) (s : State) : (setZ r v s).agenda = s.agenda := rfl
@[simp] theorem setZ_replies (r : ZReg) (v : TruncPoly) (s : State) : (setZ r v s).replies = s.replies := rfl

@[simp] theorem advance_params (s : State) : (advance s).params = s.params := rfl
@[simp] theorem advance_pc (s : State) : (advance s).pc = s.pc + 4 := rfl
@[simp] theorem advance_x (s : State) : (advance s).x = s.x := rfl
@[simp] theorem advance_b (s : State) : (advance s).b = s.b := rfl
@[simp] theorem advance_t (s : State) : (advance s).t = s.t := rfl
@[simp] theorem advance_z (s : State) : (advance s).z = s.z := rfl
@[simp] theorem advance_mem (s : State) : (advance s).mem = s.mem := rfl
@[simp] theorem advance_accelEn (s : State) : (advance s).accelEn = s.accelEn := rfl
@[simp] theorem advance_lock (s : State) : (advance s).lock = s.lock := rfl
@[simp] theorem advance_ie (s : State) : (advance s).ie = s.ie := rfl
@[simp] theorem advance_busy (s : State) : (advance s).busy = s.busy := rfl
@[simp] theorem advance_done (s : State) : (advance s).done = s.done := rfl
@[simp] theorem advance_err (s : State) : (advance s).err = s.err := rfl
@[simp] theorem advance_entry (s : State) : (advance s).entry = s.entry := rfl
@[simp] theorem advance_pcReg (s : State) : (advance s).pcReg = s.pcReg := rfl
@[simp] theorem advance_errCause (s : State) : (advance s).errCause = s.errCause := rfl
@[simp] theorem advance_errPc (s : State) : (advance s).errPc = s.errPc := rfl
@[simp] theorem advance_errInfo (s : State) : (advance s).errInfo = s.errInfo := rfl
@[simp] theorem advance_agenda (s : State) : (advance s).agenda = s.agenda := rfl
@[simp] theorem advance_replies (s : State) : (advance s).replies = s.replies := rfl

@[simp] theorem jumpBy_params (imm : BitVec 16) (s : State) : (jumpBy imm s).params = s.params := rfl
@[simp] theorem jumpBy_pc (imm : BitVec 16) (s : State) : (jumpBy imm s).pc = s.pc + woff imm := rfl
@[simp] theorem jumpBy_x (imm : BitVec 16) (s : State) : (jumpBy imm s).x = s.x := rfl
@[simp] theorem jumpBy_b (imm : BitVec 16) (s : State) : (jumpBy imm s).b = s.b := rfl
@[simp] theorem jumpBy_t (imm : BitVec 16) (s : State) : (jumpBy imm s).t = s.t := rfl
@[simp] theorem jumpBy_z (imm : BitVec 16) (s : State) : (jumpBy imm s).z = s.z := rfl
@[simp] theorem jumpBy_mem (imm : BitVec 16) (s : State) : (jumpBy imm s).mem = s.mem := rfl
@[simp] theorem jumpBy_accelEn (imm : BitVec 16) (s : State) : (jumpBy imm s).accelEn = s.accelEn := rfl
@[simp] theorem jumpBy_lock (imm : BitVec 16) (s : State) : (jumpBy imm s).lock = s.lock := rfl
@[simp] theorem jumpBy_ie (imm : BitVec 16) (s : State) : (jumpBy imm s).ie = s.ie := rfl
@[simp] theorem jumpBy_busy (imm : BitVec 16) (s : State) : (jumpBy imm s).busy = s.busy := rfl
@[simp] theorem jumpBy_done (imm : BitVec 16) (s : State) : (jumpBy imm s).done = s.done := rfl
@[simp] theorem jumpBy_err (imm : BitVec 16) (s : State) : (jumpBy imm s).err = s.err := rfl
@[simp] theorem jumpBy_entry (imm : BitVec 16) (s : State) : (jumpBy imm s).entry = s.entry := rfl
@[simp] theorem jumpBy_pcReg (imm : BitVec 16) (s : State) : (jumpBy imm s).pcReg = s.pcReg := rfl
@[simp] theorem jumpBy_errCause (imm : BitVec 16) (s : State) : (jumpBy imm s).errCause = s.errCause := rfl
@[simp] theorem jumpBy_errPc (imm : BitVec 16) (s : State) : (jumpBy imm s).errPc = s.errPc := rfl
@[simp] theorem jumpBy_errInfo (imm : BitVec 16) (s : State) : (jumpBy imm s).errInfo = s.errInfo := rfl
@[simp] theorem jumpBy_agenda (imm : BitVec 16) (s : State) : (jumpBy imm s).agenda = s.agenda := rfl
@[simp] theorem jumpBy_replies (imm : BitVec 16) (s : State) : (jumpBy imm s).replies = s.replies := rfl

@[simp] theorem storeBytes_params (ea : Word) (vs : List Byte) (s : State) : (storeBytes ea vs s).params = s.params := rfl
@[simp] theorem storeBytes_pc (ea : Word) (vs : List Byte) (s : State) : (storeBytes ea vs s).pc = s.pc := rfl
@[simp] theorem storeBytes_x (ea : Word) (vs : List Byte) (s : State) : (storeBytes ea vs s).x = s.x := rfl
@[simp] theorem storeBytes_b (ea : Word) (vs : List Byte) (s : State) : (storeBytes ea vs s).b = s.b := rfl
@[simp] theorem storeBytes_t (ea : Word) (vs : List Byte) (s : State) : (storeBytes ea vs s).t = s.t := rfl
@[simp] theorem storeBytes_z (ea : Word) (vs : List Byte) (s : State) : (storeBytes ea vs s).z = s.z := rfl
@[simp] theorem storeBytes_mem (ea : Word) (vs : List Byte) (s : State) : (storeBytes ea vs s).mem = s.mem.writeBytes ea.toNat vs := rfl
@[simp] theorem storeBytes_accelEn (ea : Word) (vs : List Byte) (s : State) : (storeBytes ea vs s).accelEn = s.accelEn := rfl
@[simp] theorem storeBytes_lock (ea : Word) (vs : List Byte) (s : State) : (storeBytes ea vs s).lock = s.lock := rfl
@[simp] theorem storeBytes_ie (ea : Word) (vs : List Byte) (s : State) : (storeBytes ea vs s).ie = s.ie := rfl
@[simp] theorem storeBytes_busy (ea : Word) (vs : List Byte) (s : State) : (storeBytes ea vs s).busy = s.busy := rfl
@[simp] theorem storeBytes_done (ea : Word) (vs : List Byte) (s : State) : (storeBytes ea vs s).done = s.done := rfl
@[simp] theorem storeBytes_err (ea : Word) (vs : List Byte) (s : State) : (storeBytes ea vs s).err = s.err := rfl
@[simp] theorem storeBytes_entry (ea : Word) (vs : List Byte) (s : State) : (storeBytes ea vs s).entry = s.entry := rfl
@[simp] theorem storeBytes_pcReg (ea : Word) (vs : List Byte) (s : State) : (storeBytes ea vs s).pcReg = s.pcReg := rfl
@[simp] theorem storeBytes_errCause (ea : Word) (vs : List Byte) (s : State) : (storeBytes ea vs s).errCause = s.errCause := rfl
@[simp] theorem storeBytes_errPc (ea : Word) (vs : List Byte) (s : State) : (storeBytes ea vs s).errPc = s.errPc := rfl
@[simp] theorem storeBytes_errInfo (ea : Word) (vs : List Byte) (s : State) : (storeBytes ea vs s).errInfo = s.errInfo := rfl
@[simp] theorem storeBytes_agenda (ea : Word) (vs : List Byte) (s : State) : (storeBytes ea vs s).agenda = s.agenda := rfl
@[simp] theorem storeBytes_replies (ea : Word) (vs : List Byte) (s : State) : (storeBytes ea vs s).replies = s.replies := rfl

@[simp] theorem zeroRegisters_params (s : State) : (zeroRegisters s).params = s.params := rfl
@[simp] theorem zeroRegisters_pc (s : State) : (zeroRegisters s).pc = s.pc := rfl
@[simp] theorem zeroRegisters_x (s : State) : (zeroRegisters s).x = Vector.replicate 8 0 := rfl
@[simp] theorem zeroRegisters_b (s : State) : (zeroRegisters s).b = Vector.replicate 8 zeroBitPoly := rfl
@[simp] theorem zeroRegisters_t (s : State) : (zeroRegisters s).t = Vector.replicate 8 zeroTernary := rfl
@[simp] theorem zeroRegisters_z (s : State) : (zeroRegisters s).z = Vector.replicate 8 (zeroTrunc s.params.n) := rfl
@[simp] theorem zeroRegisters_mem (s : State) : (zeroRegisters s).mem = s.mem := rfl
@[simp] theorem zeroRegisters_accelEn (s : State) : (zeroRegisters s).accelEn = s.accelEn := rfl
@[simp] theorem zeroRegisters_lock (s : State) : (zeroRegisters s).lock = s.lock := rfl
@[simp] theorem zeroRegisters_ie (s : State) : (zeroRegisters s).ie = s.ie := rfl
@[simp] theorem zeroRegisters_busy (s : State) : (zeroRegisters s).busy = s.busy := rfl
@[simp] theorem zeroRegisters_done (s : State) : (zeroRegisters s).done = s.done := rfl
@[simp] theorem zeroRegisters_err (s : State) : (zeroRegisters s).err = s.err := rfl
@[simp] theorem zeroRegisters_entry (s : State) : (zeroRegisters s).entry = s.entry := rfl
@[simp] theorem zeroRegisters_pcReg (s : State) : (zeroRegisters s).pcReg = s.pcReg := rfl
@[simp] theorem zeroRegisters_errCause (s : State) : (zeroRegisters s).errCause = s.errCause := rfl
@[simp] theorem zeroRegisters_errPc (s : State) : (zeroRegisters s).errPc = s.errPc := rfl
@[simp] theorem zeroRegisters_errInfo (s : State) : (zeroRegisters s).errInfo = s.errInfo := rfl
@[simp] theorem zeroRegisters_agenda (s : State) : (zeroRegisters s).agenda = s.agenda := rfl
@[simp] theorem zeroRegisters_replies (s : State) : (zeroRegisters s).replies = s.replies := rfl

@[simp] theorem raise_params (c : Cause) (info : Word) (s : State) : (raise c info s).params = s.params := rfl
@[simp] theorem raise_pc (c : Cause) (info : Word) (s : State) : (raise c info s).pc = s.pc := rfl
@[simp] theorem raise_x (c : Cause) (info : Word) (s : State) : (raise c info s).x = Vector.replicate 8 0 := rfl
@[simp] theorem raise_b (c : Cause) (info : Word) (s : State) : (raise c info s).b = Vector.replicate 8 zeroBitPoly := rfl
@[simp] theorem raise_t (c : Cause) (info : Word) (s : State) : (raise c info s).t = Vector.replicate 8 zeroTernary := rfl
@[simp] theorem raise_z (c : Cause) (info : Word) (s : State) : (raise c info s).z = Vector.replicate 8 (zeroTrunc s.params.n) := rfl
@[simp] theorem raise_mem (c : Cause) (info : Word) (s : State) : (raise c info s).mem = s.mem := rfl
@[simp] theorem raise_accelEn (c : Cause) (info : Word) (s : State) : (raise c info s).accelEn = s.accelEn := rfl
@[simp] theorem raise_lock (c : Cause) (info : Word) (s : State) : (raise c info s).lock = s.lock := rfl
@[simp] theorem raise_ie (c : Cause) (info : Word) (s : State) : (raise c info s).ie = s.ie := rfl
@[simp] theorem raise_busy (c : Cause) (info : Word) (s : State) : (raise c info s).busy = false := rfl
@[simp] theorem raise_done (c : Cause) (info : Word) (s : State) : (raise c info s).done = s.done := rfl
@[simp] theorem raise_err (c : Cause) (info : Word) (s : State) : (raise c info s).err = true := rfl
@[simp] theorem raise_entry (c : Cause) (info : Word) (s : State) : (raise c info s).entry = s.entry := rfl
@[simp] theorem raise_pcReg (c : Cause) (info : Word) (s : State) : (raise c info s).pcReg = s.pc := rfl
@[simp] theorem raise_errCause (c : Cause) (info : Word) (s : State) : (raise c info s).errCause = c := rfl
@[simp] theorem raise_errPc (c : Cause) (info : Word) (s : State) : (raise c info s).errPc = s.pc := rfl
@[simp] theorem raise_errInfo (c : Cause) (info : Word) (s : State) : (raise c info s).errInfo = info := rfl
@[simp] theorem raise_agenda (c : Cause) (info : Word) (s : State) : (raise c info s).agenda = s.agenda := rfl
@[simp] theorem raise_replies (c : Cause) (info : Word) (s : State) : (raise c info s).replies = s.replies := rfl

@[simp] theorem endByHalt_params (s : State) : (endByHalt s).params = s.params := rfl
@[simp] theorem endByHalt_pc (s : State) : (endByHalt s).pc = s.pc := rfl
@[simp] theorem endByHalt_x (s : State) : (endByHalt s).x = Vector.replicate 8 0 := rfl
@[simp] theorem endByHalt_b (s : State) : (endByHalt s).b = Vector.replicate 8 zeroBitPoly := rfl
@[simp] theorem endByHalt_t (s : State) : (endByHalt s).t = Vector.replicate 8 zeroTernary := rfl
@[simp] theorem endByHalt_z (s : State) : (endByHalt s).z = Vector.replicate 8 (zeroTrunc s.params.n) := rfl
@[simp] theorem endByHalt_mem (s : State) : (endByHalt s).mem = s.mem := rfl
@[simp] theorem endByHalt_accelEn (s : State) : (endByHalt s).accelEn = s.accelEn := rfl
@[simp] theorem endByHalt_lock (s : State) : (endByHalt s).lock = s.lock := rfl
@[simp] theorem endByHalt_ie (s : State) : (endByHalt s).ie = s.ie := rfl
@[simp] theorem endByHalt_busy (s : State) : (endByHalt s).busy = false := rfl
@[simp] theorem endByHalt_done (s : State) : (endByHalt s).done = true := rfl
@[simp] theorem endByHalt_err (s : State) : (endByHalt s).err = s.err := rfl
@[simp] theorem endByHalt_entry (s : State) : (endByHalt s).entry = s.entry := rfl
@[simp] theorem endByHalt_pcReg (s : State) : (endByHalt s).pcReg = s.pc := rfl
@[simp] theorem endByHalt_errCause (s : State) : (endByHalt s).errCause = s.errCause := rfl
@[simp] theorem endByHalt_errPc (s : State) : (endByHalt s).errPc = s.errPc := rfl
@[simp] theorem endByHalt_errInfo (s : State) : (endByHalt s).errInfo = s.errInfo := rfl
@[simp] theorem endByHalt_agenda (s : State) : (endByHalt s).agenda = s.agenda := rfl
@[simp] theorem endByHalt_replies (s : State) : (endByHalt s).replies = s.replies := rfl

@[simp] theorem startRun_params (s : State) : (startRun s).params = s.params := rfl
@[simp] theorem startRun_pc (s : State) : (startRun s).pc = entryWord s := rfl
@[simp] theorem startRun_x (s : State) : (startRun s).x = s.x := rfl
@[simp] theorem startRun_b (s : State) : (startRun s).b = s.b := rfl
@[simp] theorem startRun_t (s : State) : (startRun s).t = s.t := rfl
@[simp] theorem startRun_z (s : State) : (startRun s).z = s.z := rfl
@[simp] theorem startRun_mem (s : State) : (startRun s).mem = s.mem := rfl
@[simp] theorem startRun_accelEn (s : State) : (startRun s).accelEn = s.accelEn := rfl
@[simp] theorem startRun_lock (s : State) : (startRun s).lock = s.lock := rfl
@[simp] theorem startRun_ie (s : State) : (startRun s).ie = s.ie := rfl
@[simp] theorem startRun_busy (s : State) : (startRun s).busy = true := rfl
@[simp] theorem startRun_done (s : State) : (startRun s).done = false := rfl
@[simp] theorem startRun_err (s : State) : (startRun s).err = false := rfl
@[simp] theorem startRun_entry (s : State) : (startRun s).entry = s.entry := rfl
@[simp] theorem startRun_pcReg (s : State) : (startRun s).pcReg = s.pcReg := rfl
@[simp] theorem startRun_errCause (s : State) : (startRun s).errCause = .none := rfl
@[simp] theorem startRun_errPc (s : State) : (startRun s).errPc = 0 := rfl
@[simp] theorem startRun_errInfo (s : State) : (startRun s).errInfo = 0 := rfl
@[simp] theorem startRun_agenda (s : State) : (startRun s).agenda = s.agenda := rfl
@[simp] theorem startRun_replies (s : State) : (startRun s).replies = s.replies := rfl

@[simp] theorem wipe_params (s : State) : (wipe s).params = s.params := rfl
@[simp] theorem wipe_pc (s : State) : (wipe s).pc = s.pc := rfl
@[simp] theorem wipe_x (s : State) : (wipe s).x = Vector.replicate 8 0 := rfl
@[simp] theorem wipe_b (s : State) : (wipe s).b = Vector.replicate 8 zeroBitPoly := rfl
@[simp] theorem wipe_t (s : State) : (wipe s).t = Vector.replicate 8 zeroTernary := rfl
@[simp] theorem wipe_z (s : State) : (wipe s).z = Vector.replicate 8 (zeroTrunc s.params.n) := rfl
@[simp] theorem wipe_mem (s : State) : (wipe s).mem = s.mem.wipe := rfl
@[simp] theorem wipe_accelEn (s : State) : (wipe s).accelEn = s.accelEn := rfl
@[simp] theorem wipe_lock (s : State) : (wipe s).lock = s.lock := rfl
@[simp] theorem wipe_ie (s : State) : (wipe s).ie = s.ie := rfl
@[simp] theorem wipe_busy (s : State) : (wipe s).busy = s.busy := rfl
@[simp] theorem wipe_done (s : State) : (wipe s).done = s.done := rfl
@[simp] theorem wipe_err (s : State) : (wipe s).err = s.err := rfl
@[simp] theorem wipe_entry (s : State) : (wipe s).entry = s.entry := rfl
@[simp] theorem wipe_pcReg (s : State) : (wipe s).pcReg = s.pcReg := rfl
@[simp] theorem wipe_errCause (s : State) : (wipe s).errCause = s.errCause := rfl
@[simp] theorem wipe_errPc (s : State) : (wipe s).errPc = s.errPc := rfl
@[simp] theorem wipe_errInfo (s : State) : (wipe s).errInfo = s.errInfo := rfl
@[simp] theorem wipe_agenda (s : State) : (wipe s).agenda = s.agenda := rfl
@[simp] theorem wipe_replies (s : State) : (wipe s).replies = s.replies := rfl

@[simp] theorem reply_params (v : Word) (s : State) : (reply v s).params = s.params := rfl
@[simp] theorem reply_pc (v : Word) (s : State) : (reply v s).pc = s.pc := rfl
@[simp] theorem reply_x (v : Word) (s : State) : (reply v s).x = s.x := rfl
@[simp] theorem reply_b (v : Word) (s : State) : (reply v s).b = s.b := rfl
@[simp] theorem reply_t (v : Word) (s : State) : (reply v s).t = s.t := rfl
@[simp] theorem reply_z (v : Word) (s : State) : (reply v s).z = s.z := rfl
@[simp] theorem reply_mem (v : Word) (s : State) : (reply v s).mem = s.mem := rfl
@[simp] theorem reply_accelEn (v : Word) (s : State) : (reply v s).accelEn = s.accelEn := rfl
@[simp] theorem reply_lock (v : Word) (s : State) : (reply v s).lock = s.lock := rfl
@[simp] theorem reply_ie (v : Word) (s : State) : (reply v s).ie = s.ie := rfl
@[simp] theorem reply_busy (v : Word) (s : State) : (reply v s).busy = s.busy := rfl
@[simp] theorem reply_done (v : Word) (s : State) : (reply v s).done = s.done := rfl
@[simp] theorem reply_err (v : Word) (s : State) : (reply v s).err = s.err := rfl
@[simp] theorem reply_entry (v : Word) (s : State) : (reply v s).entry = s.entry := rfl
@[simp] theorem reply_pcReg (v : Word) (s : State) : (reply v s).pcReg = s.pcReg := rfl
@[simp] theorem reply_errCause (v : Word) (s : State) : (reply v s).errCause = s.errCause := rfl
@[simp] theorem reply_errPc (v : Word) (s : State) : (reply v s).errPc = s.errPc := rfl
@[simp] theorem reply_errInfo (v : Word) (s : State) : (reply v s).errInfo = s.errInfo := rfl
@[simp] theorem reply_agenda (v : Word) (s : State) : (reply v s).agenda = s.agenda := rfl
@[simp] theorem reply_replies (v : Word) (s : State) : (reply v s).replies = v :: s.replies := rfl

@[simp] theorem turnTaken_params (s : State) : (turnTaken s).params = s.params := rfl
@[simp] theorem turnTaken_pc (s : State) : (turnTaken s).pc = s.pc := rfl
@[simp] theorem turnTaken_x (s : State) : (turnTaken s).x = s.x := rfl
@[simp] theorem turnTaken_b (s : State) : (turnTaken s).b = s.b := rfl
@[simp] theorem turnTaken_t (s : State) : (turnTaken s).t = s.t := rfl
@[simp] theorem turnTaken_z (s : State) : (turnTaken s).z = s.z := rfl
@[simp] theorem turnTaken_mem (s : State) : (turnTaken s).mem = s.mem := rfl
@[simp] theorem turnTaken_accelEn (s : State) : (turnTaken s).accelEn = s.accelEn := rfl
@[simp] theorem turnTaken_lock (s : State) : (turnTaken s).lock = s.lock := rfl
@[simp] theorem turnTaken_ie (s : State) : (turnTaken s).ie = s.ie := rfl
@[simp] theorem turnTaken_busy (s : State) : (turnTaken s).busy = s.busy := rfl
@[simp] theorem turnTaken_done (s : State) : (turnTaken s).done = s.done := rfl
@[simp] theorem turnTaken_err (s : State) : (turnTaken s).err = s.err := rfl
@[simp] theorem turnTaken_entry (s : State) : (turnTaken s).entry = s.entry := rfl
@[simp] theorem turnTaken_pcReg (s : State) : (turnTaken s).pcReg = s.pcReg := rfl
@[simp] theorem turnTaken_errCause (s : State) : (turnTaken s).errCause = s.errCause := rfl
@[simp] theorem turnTaken_errPc (s : State) : (turnTaken s).errPc = s.errPc := rfl
@[simp] theorem turnTaken_errInfo (s : State) : (turnTaken s).errInfo = s.errInfo := rfl
@[simp] theorem turnTaken_agenda (s : State) : (turnTaken s).agenda = s.agenda.tail := rfl
@[simp] theorem turnTaken_replies (s : State) : (turnTaken s).replies = s.replies := rfl

/-- Reading register `q` after writing register `r`. -/
@[simp] theorem getX_setX (r q : XReg) (v : Word) (s : State) :
    getX (setX r v s) q = if q = r then v else getX s q := by
  by_cases h : q = r
  · subst h; simp [getX, Vector.get_eq_getElem]
  · simp [getX, Vector.get_eq_getElem, h, Vector.getElem_set, eq_comm]
    intro h'; exact absurd (Fin.ext h'.symm) h

/-- Reading register `q` after writing register `r`. -/
@[simp] theorem getB_setB (r q : BReg) (v : BitPoly) (s : State) :
    getB (setB r v s) q = if q = r then v else getB s q := by
  by_cases h : q = r
  · subst h; simp [getB, Vector.get_eq_getElem]
  · simp [getB, Vector.get_eq_getElem, h, Vector.getElem_set, eq_comm]
    intro h'; exact absurd (Fin.ext h'.symm) h

/-- Reading register `q` after writing register `r`. -/
@[simp] theorem getT_setT (r q : TReg) (v : TernaryPoly) (s : State) :
    getT (setT r v s) q = if q = r then v else getT s q := by
  by_cases h : q = r
  · subst h; simp [getT, Vector.get_eq_getElem]
  · simp [getT, Vector.get_eq_getElem, h, Vector.getElem_set, eq_comm]
    intro h'; exact absurd (Fin.ext h'.symm) h

/-- Reading register `q` after writing register `r`. -/
@[simp] theorem getZ_setZ (r q : ZReg) (v : TruncPoly) (s : State) :
    getZ (setZ r v s) q = if q = r then v else getZ s q := by
  by_cases h : q = r
  · subst h; simp [getZ, Vector.get_eq_getElem]
  · simp [getZ, Vector.get_eq_getElem, h, Vector.getElem_set, eq_comm]
    intro h'; exact absurd (Fin.ext h'.symm) h

@[simp] theorem getB_setX (r : XReg) (v : Word) (s : State) (q : BReg) : getB (setX r v s) q = getB s q := rfl
@[simp] theorem getT_setX (r : XReg) (v : Word) (s : State) (q : TReg) : getT (setX r v s) q = getT s q := rfl
@[simp] theorem getZ_setX (r : XReg) (v : Word) (s : State) (q : ZReg) : getZ (setX r v s) q = getZ s q := rfl

@[simp] theorem getX_setB (r : BReg) (v : BitPoly) (s : State) (q : XReg) : getX (setB r v s) q = getX s q := rfl
@[simp] theorem getT_setB (r : BReg) (v : BitPoly) (s : State) (q : TReg) : getT (setB r v s) q = getT s q := rfl
@[simp] theorem getZ_setB (r : BReg) (v : BitPoly) (s : State) (q : ZReg) : getZ (setB r v s) q = getZ s q := rfl

@[simp] theorem getX_setT (r : TReg) (v : TernaryPoly) (s : State) (q : XReg) : getX (setT r v s) q = getX s q := rfl
@[simp] theorem getB_setT (r : TReg) (v : TernaryPoly) (s : State) (q : BReg) : getB (setT r v s) q = getB s q := rfl
@[simp] theorem getZ_setT (r : TReg) (v : TernaryPoly) (s : State) (q : ZReg) : getZ (setT r v s) q = getZ s q := rfl

@[simp] theorem getX_setZ (r : ZReg) (v : TruncPoly) (s : State) (q : XReg) : getX (setZ r v s) q = getX s q := rfl
@[simp] theorem getB_setZ (r : ZReg) (v : TruncPoly) (s : State) (q : BReg) : getB (setZ r v s) q = getB s q := rfl
@[simp] theorem getT_setZ (r : ZReg) (v : TruncPoly) (s : State) (q : TReg) : getT (setZ r v s) q = getT s q := rfl

@[simp] theorem getX_advance (s : State) (q : XReg) : getX (advance s) q = getX s q := rfl
@[simp] theorem getB_advance (s : State) (q : BReg) : getB (advance s) q = getB s q := rfl
@[simp] theorem getT_advance (s : State) (q : TReg) : getT (advance s) q = getT s q := rfl
@[simp] theorem getZ_advance (s : State) (q : ZReg) : getZ (advance s) q = getZ s q := rfl

@[simp] theorem getX_jumpBy (imm : BitVec 16) (s : State) (q : XReg) : getX (jumpBy imm s) q = getX s q := rfl
@[simp] theorem getB_jumpBy (imm : BitVec 16) (s : State) (q : BReg) : getB (jumpBy imm s) q = getB s q := rfl
@[simp] theorem getT_jumpBy (imm : BitVec 16) (s : State) (q : TReg) : getT (jumpBy imm s) q = getT s q := rfl
@[simp] theorem getZ_jumpBy (imm : BitVec 16) (s : State) (q : ZReg) : getZ (jumpBy imm s) q = getZ s q := rfl

@[simp] theorem getX_storeBytes (ea : Word) (vs : List Byte) (s : State) (q : XReg) : getX (storeBytes ea vs s) q = getX s q := rfl
@[simp] theorem getB_storeBytes (ea : Word) (vs : List Byte) (s : State) (q : BReg) : getB (storeBytes ea vs s) q = getB s q := rfl
@[simp] theorem getT_storeBytes (ea : Word) (vs : List Byte) (s : State) (q : TReg) : getT (storeBytes ea vs s) q = getT s q := rfl
@[simp] theorem getZ_storeBytes (ea : Word) (vs : List Byte) (s : State) (q : ZReg) : getZ (storeBytes ea vs s) q = getZ s q := rfl

@[simp] theorem getX_zeroRegisters (s : State) (q : XReg) : getX (zeroRegisters s) q = 0 := by
  simp [getX, Vector.get_eq_getElem]
@[simp] theorem getB_zeroRegisters (s : State) (q : BReg) : getB (zeroRegisters s) q = zeroBitPoly := by
  simp [getB, Vector.get_eq_getElem]
@[simp] theorem getT_zeroRegisters (s : State) (q : TReg) : getT (zeroRegisters s) q = zeroTernary := by
  simp [getT, Vector.get_eq_getElem]
@[simp] theorem getZ_zeroRegisters (s : State) (q : ZReg) : getZ (zeroRegisters s) q = zeroTrunc s.params.n := by
  simp [getZ, Vector.get_eq_getElem]

@[simp] theorem getX_raise (c : Cause) (info : Word) (s : State) (q : XReg) : getX (raise c info s) q = 0 := by
  simp [getX, Vector.get_eq_getElem]
@[simp] theorem getB_raise (c : Cause) (info : Word) (s : State) (q : BReg) : getB (raise c info s) q = zeroBitPoly := by
  simp [getB, Vector.get_eq_getElem]
@[simp] theorem getT_raise (c : Cause) (info : Word) (s : State) (q : TReg) : getT (raise c info s) q = zeroTernary := by
  simp [getT, Vector.get_eq_getElem]
@[simp] theorem getZ_raise (c : Cause) (info : Word) (s : State) (q : ZReg) : getZ (raise c info s) q = zeroTrunc s.params.n := by
  simp [getZ, Vector.get_eq_getElem]

@[simp] theorem getX_endByHalt (s : State) (q : XReg) : getX (endByHalt s) q = 0 := by
  simp [getX, Vector.get_eq_getElem]
@[simp] theorem getB_endByHalt (s : State) (q : BReg) : getB (endByHalt s) q = zeroBitPoly := by
  simp [getB, Vector.get_eq_getElem]
@[simp] theorem getT_endByHalt (s : State) (q : TReg) : getT (endByHalt s) q = zeroTernary := by
  simp [getT, Vector.get_eq_getElem]
@[simp] theorem getZ_endByHalt (s : State) (q : ZReg) : getZ (endByHalt s) q = zeroTrunc s.params.n := by
  simp [getZ, Vector.get_eq_getElem]

@[simp] theorem getX_startRun (s : State) (q : XReg) : getX (startRun s) q = getX s q := rfl
@[simp] theorem getB_startRun (s : State) (q : BReg) : getB (startRun s) q = getB s q := rfl
@[simp] theorem getT_startRun (s : State) (q : TReg) : getT (startRun s) q = getT s q := rfl
@[simp] theorem getZ_startRun (s : State) (q : ZReg) : getZ (startRun s) q = getZ s q := rfl

@[simp] theorem getX_wipe (s : State) (q : XReg) : getX (wipe s) q = 0 := by
  simp [getX, Vector.get_eq_getElem]
@[simp] theorem getB_wipe (s : State) (q : BReg) : getB (wipe s) q = zeroBitPoly := by
  simp [getB, Vector.get_eq_getElem]
@[simp] theorem getT_wipe (s : State) (q : TReg) : getT (wipe s) q = zeroTernary := by
  simp [getT, Vector.get_eq_getElem]
@[simp] theorem getZ_wipe (s : State) (q : ZReg) : getZ (wipe s) q = zeroTrunc s.params.n := by
  simp [getZ, Vector.get_eq_getElem]

@[simp] theorem getX_reply (v : Word) (s : State) (q : XReg) : getX (reply v s) q = getX s q := rfl
@[simp] theorem getB_reply (v : Word) (s : State) (q : BReg) : getB (reply v s) q = getB s q := rfl
@[simp] theorem getT_reply (v : Word) (s : State) (q : TReg) : getT (reply v s) q = getT s q := rfl
@[simp] theorem getZ_reply (v : Word) (s : State) (q : ZReg) : getZ (reply v s) q = getZ s q := rfl

@[simp] theorem getX_turnTaken (s : State) (q : XReg) : getX (turnTaken s) q = getX s q := rfl
@[simp] theorem getB_turnTaken (s : State) (q : BReg) : getB (turnTaken s) q = getB s q := rfl
@[simp] theorem getT_turnTaken (s : State) (q : TReg) : getT (turnTaken s) q = getT s q := rfl
@[simp] theorem getZ_turnTaken (s : State) (q : ZReg) : getZ (turnTaken s) q = getZ s q := rfl

end Sys2Proof.Machine
end

