-- ==== Sys2Proof/Laws/Ops.lean ====
section
/-!
SUPPORT. What each shared operation can do, said once: the checks of a memory access, the effect of taking a fault and of
HALT, the moves of the pc, and the bits and bytes that loads read and stores write.
-/

namespace Sys2Proof.Machine

/-- An access that passes both checks. -/
theorem checked_ok {s done : State} {ea : Word} {align size : Nat} (h1 : ea.toNat % align = 0)
    (h2 : ea.toNat + size ≤ s.params.memBytes) : checked s ea align size done = .next done := by
  rw [checked, if_neg (by simpa using h1), if_neg (by omega)]

/-- A misaligned access. -/
theorem checked_misaligned {s done : State} {ea : Word} {align size : Nat} (h : ea.toNat % align ≠ 0) :
    checked s ea align size done = .next (raise .misaligned ea s) := by
  rw [checked, if_pos h]

/-- An aligned access out of range. -/
theorem checked_memRange {s done : State} {ea : Word} {align size : Nat} (h1 : ea.toNat % align = 0)
    (h2 : ea.toNat + size > s.params.memBytes) : checked s ea align size done = .next (raise .memRange ea s) := by
  rw [checked, if_neg (by simpa using h1), if_pos h2]

/-- Everything the checks of an access can answer. -/
theorem checked_cases (s done : State) (ea : Word) (align size : Nat) :
    (checked s ea align size done = .next done ∧ ea.toNat % align = 0 ∧ ea.toNat + size ≤ s.params.memBytes) ∨
    (checked s ea align size done = .next (raise .misaligned ea s) ∧ ea.toNat % align ≠ 0) ∨
    (checked s ea align size done = .next (raise .memRange ea s) ∧ ea.toNat % align = 0 ∧
      ea.toNat + size > s.params.memBytes) := by
  by_cases h1 : ea.toNat % align = 0
  · by_cases h2 : ea.toNat + size ≤ s.params.memBytes
    · exact .inl ⟨checked_ok h1 h2, h1, h2⟩
    · exact .inr (.inr ⟨checked_memRange h1 (by omega), h1, by omega⟩)
  · exact .inr (.inl ⟨checked_misaligned h1, h1⟩)

theorem registersZero_zeroRegisters (s : State) : registersZero (zeroRegisters s) := by
  simp [registersZero]

/-- Taking a fault has the effect of rule R227 and no other. -/
theorem raise_faultTaken (c : Cause) (info : Word) (s : State) : FaultTaken c info s (raise c info s) where
  cause := rfl
  errPc := rfl
  errInfo := rfl
  pcReg := rfl
  err := rfl
  busy := rfl
  zero := by simp [registersZero]
  rest := rfl

/-- HALT has the effect of rule R192 and no other. -/
theorem endByHalt_haltTaken (s : State) : HaltTaken s (endByHalt s) where
  pcReg := rfl
  done := rfl
  busy := rfl
  zero := by simp [registersZero]
  rest := rfl

/-- An offset of a branch is a multiple of 4 (R82). -/
theorem woff_aligned (imm : BitVec 16) : (woff imm).toNat % 4 = 0 := by
  rw [woff, BitVec.toNat_mul, show (4 : Word).toNat = 4 from rfl]
  omega

/-- A pc that is a multiple of 4 stays one when a multiple of 4 is added (R28). -/
theorem add_aligned {v w : Word} (hv : v.toNat % 4 = 0) (hw : w.toNat % 4 = 0) : (v + w).toNat % 4 = 0 := by
  rw [BitVec.toNat_add]; omega

/-- ENTRY is a multiple of 4 (R49). -/
theorem entryWord_aligned (s : State) : (entryWord s).toNat % 4 = 0 := by
  have h : (entryWord s).toNat = s.entry.toNat <<< 2 ||| 0 := BitVec.toNat_append s.entry 0#2
  rw [h, Nat.or_zero, Nat.shiftLeft_eq]
  omega

/-- Bit k of the BitPoly at an address (R64, R181). -/
theorem testBit_loadBitPoly (s : State) (ea : Word) (k : Nat) (h : k < 8 * s.params.bpBytes) :
    Nat.testBit (loadBitPoly s ea) k
      = (decide (k < s.params.n) && (s.mem.read (ea.toNat + k / 8)).getLsbD (k % 8)) := by
  rw [loadBitPoly, testBit_maskBits, testBit_leNat, loadBytes, readBytes_getD _ _ _ _ (by omega)]

/-- Bit k of the second plane of the TernaryPoly at an address (R65, R182). -/
theorem testBit_loadSecondPlane (s : State) (ea : Word) (k : Nat) (h : k < 8 * s.params.bpBytes) :
    Nat.testBit (loadSecondPlane s ea) k
      = (decide (k < s.params.n) && (s.mem.read (ea.toNat + s.params.bpBytes + k / 8)).getLsbD (k % 8)) := by
  rw [loadSecondPlane, testBit_maskBits, testBit_leNat, readBytes_getD _ _ _ _ (by omega)]

/-- The N bits of a plane fit its bytes (R8). -/
theorem n_le_bpBytes (p : Params) : p.n ≤ 8 * p.bpBytes := by
  simp only [Params.bpBytes, Params.words]; omega

/-- The words of a bit-plane before the last are full, and the last holds BITS_IN_LAST_WORD bits (R8). -/
theorem n_eq_bitsInLastWord (p : Params) (h : 0 < p.n) : p.n = 64 * (p.words - 1) + p.bitsInLastWord := by
  simp only [Params.bitsInLastWord, Params.words]; omega

/-- BITS_IN_LAST_WORD lies in 1..64 (R8). -/
theorem bitsInLastWord_bounds (p : Params) (h : 0 < p.n) : 1 ≤ p.bitsInLastWord ∧ p.bitsInLastWord ≤ 64 := by
  simp only [Params.bitsInLastWord, Params.words]; omega

/-- The invariant of rule R22 in its own words: a bit-plane of WORDS words is well formed exactly when the bits of its last
word at and above BITS_IN_LAST_WORD are zero. -/
theorem wf_iff_lastWord (p : Params) (v : BitPoly) (h : 0 < p.n) (hv : v < 2 ^ (64 * p.words)) :
    BitPoly.wf p.n v = true ↔ v.word (p.words - 1) < 2 ^ p.bitsInLastWord := by
  have hw : 64 * p.words = 64 * (p.words - 1) + 64 := by simp only [Params.words]; omega
  have small : v / 2 ^ (64 * (p.words - 1)) < 2 ^ 64 := by
    rw [Nat.div_lt_iff_lt_mul (by positivity), ← Nat.pow_add, Nat.add_comm, ← hw]; exact hv
  rw [BitPoly.wf, decide_eq_true_iff, BitPoly.word, Nat.shiftRight_eq_div_pow, Nat.mod_eq_of_lt small,
    Nat.div_lt_iff_lt_mul (by positivity), ← Nat.pow_add, Nat.add_comm, ← n_eq_bitsInLastWord p h]

@[simp] theorem length_bitPolyBytes (p : Params) (v : BitPoly) : (bitPolyBytes p v).length = p.bpBytes := by
  simp [bitPolyBytes]

@[simp] theorem length_ternaryBytes (p : Params) (v : TernaryPoly) : (ternaryBytes p v).length = p.tpBytes := by
  simp [ternaryBytes, Params.tpBytes]; omega

@[simp] theorem length_truncBytes (p : Params) (c : TruncPoly) : (truncBytes p c).length = p.rpBytes := by
  simp [truncBytes, Params.rpBytes, List.length_flatMap]; omega

/-- Bit b of byte j of a stored BitPoly (R64, R101). -/
theorem getLsbD_bitPolyBytes (p : Params) (v : BitPoly) (j b : Nat) (hj : j < p.bpBytes) (hb : b < 8) :
    ((bitPolyBytes p v).getD j 0).getLsbD b = (decide (8 * j + b < p.n) && Nat.testBit v (8 * j + b)) := by
  rw [bitPolyBytes, getD_toBytes _ _ _ hj, show (256 : Nat) ^ j = 2 ^ (8 * j) by rw [Nat.pow_mul]]
  simp only [BitVec.getLsbD_ofNat, hb, decide_true, Bool.true_and, Nat.testBit_div_two_pow, testBit_maskBits]
  rw [Nat.add_comm b]

end Sys2Proof.Machine
end

