-- ==== Sys2Proof/Laws/PerInstr.lean ====
section
/-!
SUPPORT. A statement about every instruction as syntax, with one lemma for each constructor: the word the encoder gives
selects the instruction's own row of the opcode map (R84).
-/

namespace Sys2Proof.Laws.EncodesItsRow

/-- The bitwise and of two lots of fields. -/
def fieldsAnd (f g : Fields) : Fields :=
  { op := f.op &&& g.op, d := f.d &&& g.d, s1 := f.s1 &&& g.s1, s2 := f.s2 &&& g.s2, rsv := f.rsv &&& g.rsv,
    imm := f.imm &&& g.imm }

/-- The fields of a bitwise and. -/
theorem fieldsOf_and (v w : Word) : fieldsOf (v &&& w) = fieldsAnd (fieldsOf v) (fieldsOf w) := by
  simp only [fieldsOf, fieldsAnd, BitVec.extractLsb'_and]

/-- A row is selected when it is selected field by field. -/
theorem selects_packFields (r : OpRow) (f : Fields) (h : fieldsAnd f (fieldsOf r.mask) = fieldsOf r.value) :
    r.selects (packFields f) = true := by
  rw [OpRow.selects, beq_iff_eq, ← packFields_fieldsOf (packFields f &&& r.mask), fieldsOf_and, fieldsOf_packFields, h,
    packFields_fieldsOf]

/-- The encoded word selects the instruction's row: (w and mask) = match (R84). -/
def Statement (i : Instr) : Prop := i.row.selects (encode i) = true

theorem nop : Statement (.nop) := by
  unfold Statement encode
  refine selects_packFields _ _ ?_
  simp only [fieldsAnd, fieldsOf, encodeFields, mkFields, Instr.row, opcodeOf, Fields.mk.injEq]
  refine ⟨?_, ?_, ?_, ?_, ?_, ?_⟩ <;> decide

theorem halt : Statement (.halt) := by
  unfold Statement encode
  refine selects_packFields _ _ ?_
  simp only [fieldsAnd, fieldsOf, encodeFields, mkFields, Instr.row, opcodeOf, Fields.mk.injEq]
  refine ⟨?_, ?_, ?_, ?_, ?_, ?_⟩ <;> decide

theorem li (d : XReg) (imm : BitVec 16) : Statement (.li d imm) := by
  unfold Statement encode
  refine selects_packFields _ _ ?_
  simp only [fieldsAnd, fieldsOf, encodeFields, mkFields, Instr.row, opcodeOf, Fields.mk.injEq]
  refine ⟨?_, ?_, ?_, ?_, ?_, ?_⟩ <;> first | decide | exact BitVec.and_zero

theorem lui (d : XReg) (imm : BitVec 16) : Statement (.lui d imm) := by
  unfold Statement encode
  refine selects_packFields _ _ ?_
  simp only [fieldsAnd, fieldsOf, encodeFields, mkFields, Instr.row, opcodeOf, Fields.mk.injEq]
  refine ⟨?_, ?_, ?_, ?_, ?_, ?_⟩ <;> first | decide | exact BitVec.and_zero

theorem addi (d s1 : XReg) (imm : BitVec 16) : Statement (.addi d s1 imm) := by
  unfold Statement encode
  refine selects_packFields _ _ ?_
  simp only [fieldsAnd, fieldsOf, encodeFields, mkFields, Instr.row, opcodeOf, Fields.mk.injEq]
  refine ⟨?_, ?_, ?_, ?_, ?_, ?_⟩ <;> first | decide | exact BitVec.and_zero

theorem lw (d s1 : XReg) (imm : BitVec 16) : Statement (.lw d s1 imm) := by
  unfold Statement encode
  refine selects_packFields _ _ ?_
  simp only [fieldsAnd, fieldsOf, encodeFields, mkFields, Instr.row, opcodeOf, Fields.mk.injEq]
  refine ⟨?_, ?_, ?_, ?_, ?_, ?_⟩ <;> first | decide | exact BitVec.and_zero

theorem sw (s1 s2 : XReg) (imm : BitVec 16) : Statement (.sw s1 s2 imm) := by
  unfold Statement encode
  refine selects_packFields _ _ ?_
  simp only [fieldsAnd, fieldsOf, encodeFields, mkFields, Instr.row, opcodeOf, Fields.mk.injEq]
  refine ⟨?_, ?_, ?_, ?_, ?_, ?_⟩ <;> first | decide | exact BitVec.and_zero

theorem jmp (imm : BitVec 16) : Statement (.jmp imm) := by
  unfold Statement encode
  refine selects_packFields _ _ ?_
  simp only [fieldsAnd, fieldsOf, encodeFields, mkFields, Instr.row, opcodeOf, Fields.mk.injEq]
  refine ⟨?_, ?_, ?_, ?_, ?_, ?_⟩ <;> first | decide | exact BitVec.and_zero

theorem djnz (d : XReg) (imm : BitVec 16) : Statement (.djnz d imm) := by
  unfold Statement encode
  refine selects_packFields _ _ ?_
  simp only [fieldsAnd, fieldsOf, encodeFields, mkFields, Instr.row, opcodeOf, Fields.mk.injEq]
  refine ⟨?_, ?_, ?_, ?_, ?_, ?_⟩ <;> first | decide | exact BitVec.and_zero

theorem sampb (d : BReg) (s1 : XReg) (imm : BitVec 16) : Statement (.sampb d s1 imm) := by
  unfold Statement encode
  refine selects_packFields _ _ ?_
  simp only [fieldsAnd, fieldsOf, encodeFields, mkFields, Instr.row, opcodeOf, Fields.mk.injEq]
  refine ⟨?_, ?_, ?_, ?_, ?_, ?_⟩ <;> first | decide | exact BitVec.and_zero

theorem bst (s1 : XReg) (s2 : BReg) (imm : BitVec 16) : Statement (.bst s1 s2 imm) := by
  unfold Statement encode
  refine selects_packFields _ _ ?_
  simp only [fieldsAnd, fieldsOf, encodeFields, mkFields, Instr.row, opcodeOf, Fields.mk.injEq]
  refine ⟨?_, ?_, ?_, ?_, ?_, ?_⟩ <;> first | decide | exact BitVec.and_zero

theorem bxor (d s1 s2 : BReg) : Statement (.bxor d s1 s2) := by
  unfold Statement encode
  refine selects_packFields _ _ ?_
  simp only [fieldsAnd, fieldsOf, encodeFields, mkFields, Instr.row, opcodeOf, Fields.mk.injEq]
  refine ⟨?_, ?_, ?_, ?_, ?_, ?_⟩ <;> first | decide | exact BitVec.and_zero

theorem brotr (d s1 : BReg) (s2 : XReg) : Statement (.brotr d s1 s2) := by
  unfold Statement encode
  refine selects_packFields _ _ ?_
  simp only [fieldsAnd, fieldsOf, encodeFields, mkFields, Instr.row, opcodeOf, Fields.mk.injEq]
  refine ⟨?_, ?_, ?_, ?_, ?_, ?_⟩ <;> first | decide | exact BitVec.and_zero

theorem sampt (d : TReg) (s1 : XReg) (imm : BitVec 16) : Statement (.sampt d s1 imm) := by
  unfold Statement encode
  refine selects_packFields _ _ ?_
  simp only [fieldsAnd, fieldsOf, encodeFields, mkFields, Instr.row, opcodeOf, Fields.mk.injEq]
  refine ⟨?_, ?_, ?_, ?_, ?_, ?_⟩ <;> first | decide | exact BitVec.and_zero

theorem tst (s1 : XReg) (s2 : TReg) (imm : BitVec 16) : Statement (.tst s1 s2 imm) := by
  unfold Statement encode
  refine selects_packFields _ _ ?_
  simp only [fieldsAnd, fieldsOf, encodeFields, mkFields, Instr.row, opcodeOf, Fields.mk.injEq]
  refine ⟨?_, ?_, ?_, ?_, ?_, ?_⟩ <;> first | decide | exact BitVec.and_zero

theorem tmul (d s1 s2 : TReg) : Statement (.tmul d s1 s2) := by
  unfold Statement encode
  refine selects_packFields _ _ ?_
  simp only [fieldsAnd, fieldsOf, encodeFields, mkFields, Instr.row, opcodeOf, Fields.mk.injEq]
  refine ⟨?_, ?_, ?_, ?_, ?_, ?_⟩ <;> first | decide | exact BitVec.and_zero

theorem tinv (d s1 : TReg) : Statement (.tinv d s1) := by
  unfold Statement encode
  refine selects_packFields _ _ ?_
  simp only [fieldsAnd, fieldsOf, encodeFields, mkFields, Instr.row, opcodeOf, Fields.mk.injEq]
  refine ⟨?_, ?_, ?_, ?_, ?_, ?_⟩ <;> first | decide | exact BitVec.and_zero

theorem rld (d : ZReg) (s1 : XReg) (imm : BitVec 16) : Statement (.rld d s1 imm) := by
  unfold Statement encode
  refine selects_packFields _ _ ?_
  simp only [fieldsAnd, fieldsOf, encodeFields, mkFields, Instr.row, opcodeOf, Fields.mk.injEq]
  refine ⟨?_, ?_, ?_, ?_, ?_, ?_⟩ <;> first | decide | exact BitVec.and_zero

theorem rst (s1 : XReg) (s2 : ZReg) (imm : BitVec 16) : Statement (.rst s1 s2 imm) := by
  unfold Statement encode
  refine selects_packFields _ _ ?_
  simp only [fieldsAnd, fieldsOf, encodeFields, mkFields, Instr.row, opcodeOf, Fields.mk.injEq]
  refine ⟨?_, ?_, ?_, ?_, ?_, ?_⟩ <;> first | decide | exact BitVec.and_zero

theorem rmul (d s1 s2 : ZReg) : Statement (.rmul d s1 s2) := by
  unfold Statement encode
  refine selects_packFields _ _ ?_
  simp only [fieldsAnd, fieldsOf, encodeFields, mkFields, Instr.row, opcodeOf, Fields.mk.injEq]
  refine ⟨?_, ?_, ?_, ?_, ?_, ?_⟩ <;> first | decide | exact BitVec.and_zero

theorem rscale (d s1 : ZReg) (imm : BitVec 16) : Statement (.rscale d s1 imm) := by
  unfold Statement encode
  refine selects_packFields _ _ ?_
  simp only [fieldsAnd, fieldsOf, encodeFields, mkFields, Instr.row, opcodeOf, Fields.mk.injEq]
  refine ⟨?_, ?_, ?_, ?_, ?_, ?_⟩ <;> first | decide | exact BitVec.and_zero

theorem rneg (d s1 : ZReg) : Statement (.rneg d s1) := by
  unfold Statement encode
  refine selects_packFields _ _ ?_
  simp only [fieldsAnd, fieldsOf, encodeFields, mkFields, Instr.row, opcodeOf, Fields.mk.injEq]
  refine ⟨?_, ?_, ?_, ?_, ?_, ?_⟩ <;> first | decide | exact BitVec.and_zero

theorem rfromt (d : ZReg) (s1 : TReg) : Statement (.rfromt d s1) := by
  unfold Statement encode
  refine selects_packFields _ _ ?_
  simp only [fieldsAnd, fieldsOf, encodeFields, mkFields, Instr.row, opcodeOf, Fields.mk.injEq]
  refine ⟨?_, ?_, ?_, ?_, ?_, ?_⟩ <;> first | decide | exact BitVec.and_zero

end Sys2Proof.Laws.EncodesItsRow
end

