-- ==== Sys2Proof/Laws/Registers.lean ====
section
/-!
SUPPORT. Well-formed registers (R22, R23, R24), said once for each way a state changes: a write of a well-formed value keeps
them, zeroed registers have them, and a change of anything else does not touch them.
-/

namespace Sys2Proof.Machine

theorem wf_bitPoly_iff (n : Nat) (p : BitPoly) : BitPoly.wf n p = true ↔ p < 2 ^ n := by simp [BitPoly.wf]

/-- Registers stay well formed where nothing of them changes. -/
theorem registersWF_congr {s t : State} (h : RegistersWF s) (hp : t.params = s.params) (hb : t.b = s.b) (ht : t.t = s.t)
    (hz : t.z = s.z) : RegistersWF t := by
  obtain ⟨h1, h2, h3⟩ := h
  refine ⟨fun r => ?_, fun r => ?_, fun r => ?_⟩
  · rw [hp, getB, hb]; exact h1 r
  · rw [hp, getT, ht]; exact h2 r
  · rw [hp, getZ, hz]; exact h3 r

/-- Advancing the pc keeps well-formed registers. -/
theorem registersWF_advance {s : State} (h : RegistersWF s) : RegistersWF (advance s) := registersWF_congr h rfl rfl rfl rfl

/-- Writing a well-formed BitPoly keeps well-formed registers. -/
theorem registersWF_setB {s : State} (h : RegistersWF s) (d : BReg) {v : BitPoly} (hv : v < 2 ^ s.params.n) :
    RegistersWF (setB d v s) := by
  refine ⟨fun r => ?_, fun r => by simpa using h.t r, fun r => by simpa using h.z r⟩
  simp only [getB_setB]
  split
  · simpa [wf_bitPoly_iff] using hv
  · exact h.b r

/-- Writing a well-formed TernaryPoly keeps well-formed registers. -/
theorem registersWF_setT {s : State} (h : RegistersWF s) (d : TReg) {v : TernaryPoly} (hv : v.wf s.params.n = true) :
    RegistersWF (setT d v s) := by
  refine ⟨fun r => by simpa using h.b r, fun r => ?_, fun r => by simpa using h.z r⟩
  simp only [getT_setT]
  split
  · simpa using hv
  · exact h.t r

/-- Writing a well-formed TruncRing value keeps well-formed registers. -/
theorem registersWF_setZ {s : State} (h : RegistersWF s) (d : ZReg) {v : TruncPoly}
    (hv : TruncPoly.wf s.params.n s.params.logQ v = true) : RegistersWF (setZ d v s) := by
  refine ⟨fun r => by simpa using h.b r, fun r => by simpa using h.t r, fun r => ?_⟩
  simp only [getZ_setZ]
  split
  · simpa using hv
  · exact h.z r

/-- Zeroed registers are well formed. -/
theorem registersWF_of_zero {s : State} (h : registersZero s) : RegistersWF s := by
  obtain ⟨-, hb, ht, hz⟩ := h
  refine ⟨fun r => ?_, fun r => ?_, fun r => ?_⟩
  · rw [hb, wf_bitPoly_iff]; exact Nat.two_pow_pos _
  · rw [ht]; simp [TernaryPoly.wf, BitPoly.wf, zeroTernary]
  · rw [hz, wf_truncPoly_iff]; simp [zeroTrunc]

/-- The repair gives a well-formed value (R120, R182). -/
theorem wf_repair {n s a : Nat} (hs : s < 2 ^ n) (ha : a < 2 ^ n) : TernaryPoly.wf n (repair s a) = true := by
  have sub : s &&& (a ||| s) = s := Nat.eq_of_testBit_eq fun k => by simp; cases s.testBit k <;> simp
  simp [TernaryPoly.wf, repair, BitPoly.wf, hs, Nat.or_lt_two_pow ha hs, sub]

/-- Every register is zero in the state after reset (R262). -/
theorem registersZero_resetState (p : Params) (epoch : Nat) : registersZero (resetState p epoch) := by
  simp only [registersZero, getX, getB, getT, getZ, resetState, Vector.get, Vector.replicate]
  refine ⟨?_, ?_, ?_, ?_⟩ <;> intro r <;> simp

end Sys2Proof.Machine
end

