-- ==== Sys2Proof/Laws/Step.lean ====
section
/-!
SUPPORT. What a step is, said once: a sequencer turn is the sequencer's step, a duty-keeping access of the CSR window is a
read or an update, what the trace of a run takes from each turn, what two publicly equal states share, and the two words that are put together from halves have the values the spec gives them.
-/

namespace Sys2Proof.Machine

/-- A sequencer turn is one sequencer step of the state with the turn taken off the agenda (R18, R232). -/
theorem step_of_sequencerTurn {s : State} (h : sequencerTurn s) : step s = sequencerStep (turnTaken s) := by
  rcases h with h | ⟨rest, h⟩
  · have keep : turnTaken s = s := by
      rw [turnTaken, h, show ([] : List Turn).tail = s.agenda by rw [h]; rfl]
    rw [keep, step, h]
  · rw [step, h, turnTaken, h]
    rfl

/-- A host turn is one host step of the state with the turn taken off the agenda (R18, R232). -/
theorem step_of_hostTurn {s : State} {a : HostAct} {rest : List Turn} (h : s.agenda = .host a :: rest) :
    step s = hostStep a (turnTaken s) := by
  rw [step, h, turnTaken, h]
  rfl

theorem stepEnd_of_sequencerTurn {s : State} (h : sequencerTurn s) : stepEnd s = sequencerEnd s := by
  rcases h with h | ⟨rest, h⟩ <;> simp only [stepEnd, h]

theorem stepObserved_of_sequencerTurn {s : State} (h : sequencerTurn s) : stepObserved s = [observe s] := by
  rcases h with h | ⟨rest, h⟩ <;> simp only [stepObserved, h]

theorem secretsAfter_of_sequencerTurn (sec : Secrets) {s : State} (s' : State) (h : sequencerTurn s) :
    secretsAfter sec s s' = sequencerSecrets sec s s' := by
  rcases h with h | ⟨rest, h⟩ <;> simp only [secretsAfter, h]

theorem stepEnd_of_hostTurn {s : State} {a : HostAct} {rest : List Turn} (h : s.agenda = .host a :: rest) :
    stepEnd s = hostEnd a := by simp only [stepEnd, h]

theorem stepObserved_of_hostTurn {s : State} {a : HostAct} {rest : List Turn} (h : s.agenda = .host a :: rest) :
    stepObserved s = [] := by simp only [stepObserved, h]

theorem secretsAfter_of_hostTurn (sec : Secrets) {s : State} (s' : State) {a : HostAct} {rest : List Turn}
    (h : s.agenda = .host a :: rest) : secretsAfter sec s s' = sec := by simp only [secretsAfter, h]

/-- Publicly equal states differ in the registers and in memory alone. -/
theorem PublicEq.eq_update {sec : Secrets} {s s' : State} (h : PublicEq sec s s') :
    s' = { s with x := s'.x, b := s'.b, t := s'.t, z := s'.z, mem := s'.mem } := by
  rw [← h.rest]

theorem PublicEq.params_eq {sec : Secrets} {s s' : State} (h : PublicEq sec s s') : s'.params = s.params := by
  rw [h.eq_update]

theorem PublicEq.pc_eq {sec : Secrets} {s s' : State} (h : PublicEq sec s s') : s'.pc = s.pc := by
  rw [h.eq_update]

theorem PublicEq.busy_eq {sec : Secrets} {s s' : State} (h : PublicEq sec s s') : s'.busy = s.busy := by
  rw [h.eq_update]

theorem PublicEq.agenda_eq {sec : Secrets} {s s' : State} (h : PublicEq sec s s') : s'.agenda = s.agenda := by
  rw [h.eq_update]

/-- Dropping the host's steps leaves the sequencer the next turn. -/
theorem sequencerTurn_sequencerNext (s : State) : sequencerTurn (sequencerNext s) := by
  unfold sequencerTurn sequencerNext
  simp only
  induction s.agenda with
  | nil => exact .inl rfl
  | cons t l ih =>
    cases t with
    | sequencer => exact .inr ⟨l, rfl⟩
    | host a => rw [List.dropWhile_cons_of_pos (by rfl)]; exact ih

/-- An access of the CSR window keeps the host's duty exactly when it is an aligned 32-bit access of the 256 bytes (R40). -/
theorem csrAccessOk_iff (offset width : Nat) :
    csrAccessOk offset width = true ↔ width = 4 ∧ offset % 4 = 0 ∧ offset < 256 := by
  simp [csrAccessOk]; omega

/-- A duty-keeping write of the CSR window is the register's update. -/
theorem hostStep_csrWrite {offset : Nat} (v : Word) (s : State) (h1 : offset % 4 = 0) (h2 : offset < 256) :
    hostStep (.csrWrite offset 4 v) s = .next (csrUpdate offset v s) :=
  if_pos ((csrAccessOk_iff offset 4).mpr ⟨rfl, h1, h2⟩)

/-- A duty-keeping read of the CSR window gives the host the register's value. -/
theorem hostStep_csrRead {offset : Nat} (s : State) (h1 : offset % 4 = 0) (h2 : offset < 256) :
    hostStep (.csrRead offset 4) s = .next (reply (csrValue s offset) s) :=
  if_pos ((csrAccessOk_iff offset 4).mpr ⟨rfl, h1, h2⟩)

/-- An instruction whose meaning is one checked access faults as that access does (R67 to R69). -/
theorem faultsOnAccess_of_checked {i : Instr} {s done : State} {a : Access}
    (h : exec i s = checked s a.ea a.align a.size done) : FaultsOnAccess i s a :=
  ⟨fun h1 => ⟨_, h.trans (checked_misaligned h1), raise_faultTaken _ _ _⟩,
    fun h1 h2 => ⟨_, h.trans (checked_memRange h1 h2), raise_faultTaken _ _ _⟩⟩

/-- The value LUI loads (R82). -/
theorem toNat_hiimm (imm : BitVec 16) : (hiimm imm).toNat = imm.toNat * 65536 := by
  have h : (hiimm imm).toNat = imm.toNat <<< 16 ||| 0 := BitVec.toNat_append imm 0#16
  rw [h, Nat.or_zero, Nat.shiftLeft_eq]

/-- The value of ENTRY (R49). -/
theorem toNat_entryWord (s : State) : (entryWord s).toNat = 4 * s.entry.toNat := by
  have h : (entryWord s).toNat = s.entry.toNat <<< 2 ||| 0 := BitVec.toNat_append s.entry 0#2
  rw [h, Nat.or_zero, Nat.shiftLeft_eq, Nat.mul_comm]

/-- Reading one byte of a number just written (R61). -/
theorem read_writeBytes_toBytes (m : Memory) (a n v k : Nat) (hk : k < n) :
    (m.writeBytes a (toBytes n v)).read (a + k) = BitVec.ofNat 8 (v / 256 ^ k) := by
  rw [read_writeBytes_inside _ _ _ _ (by simpa), getD_toBytes _ _ _ hk]

end Sys2Proof.Machine
end

