-- ==== Sys2Proof/Tests/Slice0.lean ====
section
/-!
SUPPORT. Tests on fixed values and, for every statement with hypotheses, a witness that meets them. The expected values are
the spec's: the encoding examples of spec/30_encoding.md rule R90, the vectors of spec/95_test_vectors.md section 2 and the
examples of the instruction rules, at N = 7, LOG_Q = 4, MEM_BYTES = 4096 unless a test says otherwise.
-/

namespace Sys2Proof.Tests

open Sys2Proof Sys2Proof.Machine

/-! ## Helpers -/

/-- The configuration of the spec's vectors, with the accelerated path. -/
def small : Params := { n := 7, logQ := 4, memBytes := 4096, accel := true }

/-- A part of that configuration after reset and WIPE. -/
def idle : State := { resetState small 0 with mem := (resetState small 0).mem.wipe }

/-- The same part with a run in progress at pc 0x40. -/
def clean : State := { idle with busy := true, pc := 0x40 }

/-- The next state of an outcome. -/
def nextOf : Result → Option State
  | .next t => some t
  | _ => none

/-- A value of the state after one instruction. -/
def after {α : Type} (i : Instr) (s : State) (f : State → α) : Option α := (nextOf (exec i s)).map f

/-- A value of the state after one write of a 32-bit register by the host. -/
def afterWrite {α : Type} (offset : Nat) (v : Word) (s : State) (f : State → α) : Option α :=
  (nextOf (hostStep (.csrWrite offset 4 v) s)).map f

/-- The state with bytes at an address. -/
def storing (a : Nat) (vs : List Nat) (s : State) : State := { s with mem := s.mem.writeBytes a (vs.map (BitVec.ofNat 8)) }

/-- The bytes at an address, as numbers. -/
def bytesAt (a n : Nat) (s : State) : List Nat := (s.mem.readBytes a n).map BitVec.toNat

/-- The fault registers. -/
def faultRegs (s : State) : Cause × Word × Word := (s.errCause, s.errPc, s.errInfo)

/-- A ternary value by its planes. -/
def tern (s a : Nat) : TernaryPoly := { s := s, a := a }

/-! ## Well-formedness: an ill-formed term for each check, which the check refuses -/

theorem test_params_small : small.WF := by constructor <;> norm_num [small]
theorem test_params_reference : Params.reference.WF := by constructor <;> norm_num [Params.reference]
theorem test_params_not_prime : ¬ { small with n := 9 }.WF := fun h => by have := h.prime; norm_num at this
theorem test_params_n_three : ¬ { small with n := 3 }.WF := fun h => absurd h.five_le_n (by decide)
theorem test_params_n_big : ¬ { small with n := 65537 }.WF := fun h => absurd h.n_le (by decide)
theorem test_params_logQ_zero : ¬ { small with logQ := 0 }.WF := fun h => absurd h.one_le_logQ (by decide)
theorem test_params_logQ_big : ¬ { small with logQ := 17 }.WF := fun h => absurd h.logQ_le (by decide)
theorem test_params_mem_odd : ¬ { small with memBytes := 4100 }.WF := fun h => absurd h.mem_mod (by decide)
theorem test_params_mem_low : ¬ { small with memBytes := 4088 }.WF := fun h => absurd h.mem_ge (by decide)
theorem test_params_mem_big : ¬ { small with memBytes := 2 ^ 32 + 8 }.WF := fun h => absurd h.mem_le (by decide)

theorem test_bitPoly_wf : BitPoly.wf 7 0b1010011 = true ∧ BitPoly.wf 7 0b10000000 = false := by decide
theorem test_ternary_wf : TernaryPoly.wf 7 (tern 0b0001100 0b0001111) = true := by decide
/-- The pair (1,0) is the invalid encoding (R16). -/
theorem test_ternary_invalid_pair : TernaryPoly.wf 7 (tern 0b0000100 0b0000011) = false := by decide
theorem test_ternary_padding : TernaryPoly.wf 7 (tern 0 0b10000000) = false
    ∧ TernaryPoly.wf 7 (tern 0b10000000 0b10000000) = false := by decide
theorem test_ternary_canonical : TernaryPoly.canonical 7 (tern 0 0b0111111) = true
    ∧ TernaryPoly.canonical 7 (tern 0 0b1000000) = false ∧ TernaryPoly.canonical 7 (tern 1 0) = false := by decide
theorem test_truncPoly_wf : TruncPoly.wf 7 4 [1, 15, 4, 0, 15, 0, 8] = true
    ∧ TruncPoly.wf 7 4 [1, 16, 4, 0, 15, 0, 8] = false ∧ TruncPoly.wf 7 4 [1, 15, 4, 0, 15, 0] = false := by decide
theorem test_word_wf : wordWellFormed 0x4C840000#32 = true ∧ wordWellFormed 0x24000000#32 = false
    ∧ wordWellFormed 0x4C850000#32 = false ∧ wordWellFormed 0x4C840001#32 = false := by decide
theorem test_memory_wf_order : Memory.wf { cells := [(4, 1), (3, 1)], wiped := false, epoch := 0 } = false := by decide
theorem test_memory_wf_repeat : Memory.wf { cells := [(4, 1), (4, 2)], wiped := false, epoch := 0 } = false := by decide
theorem test_memory_wf_listed_zero : Memory.wf { cells := [(4, 0)], wiped := true, epoch := 0 } = false := by decide
theorem test_memory_inside : Memory.inside { cells := [(4096, 1)], wiped := true, epoch := 0 } 4096 = false := by decide
/-- Writing 0 over a byte of wiped memory takes the cell off the list. -/
theorem test_memory_canonical : ((idle.mem.writeBytes 8 [7, 9]).writeBytes 8 [0]).cells = [(9, 9)] := by decide
/-- The derived sizes of the reference configuration (R8). -/
theorem test_reference_sizes : Params.reference.words = 11 ∧ Params.reference.bitsInLastWord = 61 ∧ Params.reference.bpBytes = 88
    ∧ Params.reference.tpBytes = 176 ∧ Params.reference.rpBytes = 1402 := by decide

/-! ## Decoding: words written out from the encoding of rules R81 and R84, one at least for each instruction -/

theorem test_decode_nop : decodeWord 0x00000000#32 = .ok .nop := by decide
theorem test_decode_halt : decodeWord 0x04000000#32 = .ok .halt := by decide
theorem test_decode_li : decodeWord 0x08800100#32 = .ok (.li 1 0x100) := by decide
/-- P5: LUI x2, 0x0400. -/
theorem test_decode_lui : decodeWord 0x0D000400#32 = .ok (.lui 2 0x400) := by decide
/-- P4: ADDI x1, x1, 4. -/
theorem test_decode_addi : decodeWord 0x10900004#32 = .ok (.addi 1 1 4) := by decide
theorem test_decode_lw : decodeWord 0x14A00010#32 = .ok (.lw 1 2 0x10) := by decide
theorem test_decode_sw : decodeWord 0x18180010#32 = .ok (.sw 1 4 0x10) := by decide
theorem test_decode_jmp : decodeWord 0x1C00FFFE#32 = .ok (.jmp 0xFFFE) := by decide
theorem test_decode_djnz : decodeWord 0x2180FFFF#32 = .ok (.djnz 3 0xFFFF) := by decide
/-- P1: SAMPB b0, 0(x1), and BST b1, 16(x1), and BXOR b2, b0, b1. -/
theorem test_decode_sampb : decodeWord 0x40100000#32 = .ok (.sampb 0 1 0) := by decide
theorem test_decode_bst : decodeWord 0x44120010#32 = .ok (.bst 1 1 16) := by decide
theorem test_decode_bxor : decodeWord 0x49020000#32 = .ok (.bxor 2 0 1) := by decide
theorem test_decode_brotr : decodeWord 0x4C840000#32 = .ok (.brotr 1 0 2) := by decide
/-- P2: SAMPT t0, 0(x1), and TST t2, 0x30(x1). -/
theorem test_decode_sampt : decodeWord 0x60100000#32 = .ok (.sampt 0 1 0) := by decide
theorem test_decode_tst : decodeWord 0x64140030#32 = .ok (.tst 1 2 0x30) := by decide
theorem test_decode_tmul : decodeWord 0x69020000#32 = .ok (.tmul 2 0 1) := by decide
theorem test_decode_tinv : decodeWord 0x6C800000#32 = .ok (.tinv 1 0) := by decide
/-- P3: RLD z0, 0(x1), RST z4, 0x40(x1), RMUL z2, z0, z1, RSCALE z4, z3, 3, RNEG z3, z2 and RFROMT z1, t0. -/
theorem test_decode_rld : decodeWord 0x80100000#32 = .ok (.rld 0 1 0) := by decide
theorem test_decode_rst : decodeWord 0x84180040#32 = .ok (.rst 1 4 0x40) := by decide
theorem test_decode_rmul : decodeWord 0x89020000#32 = .ok (.rmul 2 0 1) := by decide
theorem test_decode_rscale : decodeWord 0x8E300003#32 = .ok (.rscale 4 3 3) := by decide
theorem test_decode_rneg : decodeWord 0x91A00000#32 = .ok (.rneg 3 2) := by decide
theorem test_decode_rfromt : decodeWord 0x94800000#32 = .ok (.rfromt 1 0) := by decide

/-- The illegal words of the spec's decoding vectors, by the reason. -/
theorem test_decode_illegal : [0x24000000#32, 0xFC000000#32].map decodeWord = List.replicate 2 (.error .reservedOpcode)
    ∧ decodeWord 0x4C850000#32 = .error .reservedBit
    ∧ [0x00000001#32, 0x04000001#32, 0x08900100#32, 0x4C840001#32, 0x6C820000#32, 0x18980010#32].map decodeWord
      = List.replicate 6 (.error .unusedField) := by decide
theorem test_decode_bytes : decodeBytes [0x00, 0x00, 0x84, 0x4C, 0xAA] = .ok (.brotr 1 0 2, [0xAA])
    ∧ decodeBytes [0x00, 0x00, 0x84] = .error .truncated := by decide
theorem test_encode_bytes : encodeBytes (.brotr 1 0 2) = [0x00, 0x00, 0x84, 0x4C] := by decide
theorem test_table_word : decodeTableWord 32 0x4C840000 = some (.brotr 1 0 2) ∧ decodeTableWord 32 0x4C850000 = none := by
  decide
/-- No word selects two rows of the opcode map: the rows differ under the opcode field, which every mask has (R85). -/
theorem test_rows_no_overlap : opRows.Pairwise fun r s => r.value.extractLsb' 26 6 ≠ s.value.extractLsb' 26 6 := by decide
theorem test_rows_count : opRows.length = 23 := by decide

/-! ## One step of each instruction -/

/-- At pc 0x10, NOP sets pc to 0x14 (R190). -/
theorem test_nop : after .nop { clean with pc := 0x10 } (·.pc) = some 0x14 := by decide
/-- HALT at pc 0x30: DONE, not BUSY, PC = 0x30, registers 0. -/
theorem test_halt : after .halt (setX 1 5 { clean with pc := 0x30 })
    (fun t => (t.done, t.err, t.busy, csrValue t 0x024, getX t 1)) = some (true, false, false, 0x30, 0) := by decide
theorem test_li : after (.li 0 0xFFFF) clean (getX · 0) = some 0x0000FFFF := by decide
theorem test_lui : after (.lui 1 1) clean (getX · 1) = some 0x00010000 := by decide
theorem test_addi_wraps : after (.addi 1 1 0xFFFF) clean (getX · 1) = some 0xFFFFFFFF
    ∧ after (.addi 1 1 1) (setX 1 0xFFFFFFFF clean) (getX · 1) = some 0 := by decide
theorem test_addi_negative : after (.addi 1 2 0x8000) (setX 2 0x10000 clean) (getX · 1) = some 0x8000 := by decide
/-- P4's first word: 11 22 33 44 reads as 0x44332211. -/
theorem test_lw : after (.lw 2 0 0x40) (storing 0x40 [0x11, 0x22, 0x33, 0x44] clean) (getX · 2) = some 0x44332211 := by decide
/-- EA = 0xFFFF0001 + 0xFFFF wraps to 0; 0xFFE is misaligned before it is out of range (R231). -/
theorem test_lw_edges : after (.lw 2 1 0xFFFF) (setX 1 0xFFFF0001 (storing 0 [9] clean)) (getX · 2) = some 9
    ∧ after (.lw 2 1 0) (setX 1 0xFFE clean) faultRegs = some (.misaligned, 0x40, 0xFFE)
    ∧ after (.lw 2 1 0) (setX 1 0x1000 clean) faultRegs = some (.memRange, 0x40, 0x1000) := by decide +kernel
theorem test_sw : after (.sw 1 2 0) (setX 2 0x12345678 (setX 1 0x80 clean)) (bytesAt 0x7F 6)
    = some [0, 0x78, 0x56, 0x34, 0x12, 0] := by decide +kernel
theorem test_jmp : after (.jmp 0xFFFE) { clean with pc := 0x20 } (·.pc) = some 0x18
    ∧ after (.jmp 0xFFFF) { clean with pc := 0 } (·.pc) = some 0xFFFFFFFC := by decide
/-- The fetch after a jump out of memory faults at the target (R223). -/
theorem test_jmp_out : (nextOf (step { clean with pc := 0xFFFFFFFC })).map faultRegs
    = some (.fetchRange, 0xFFFFFFFC, 0xFFFFFFFC) := by decide
theorem test_djnz : after (.djnz 3 0xFFFF) (setX 3 2 { clean with pc := 0x0C }) (fun t => (getX t 3, t.pc)) = some (1, 0x08)
    ∧ after (.djnz 3 0xFFFF) (setX 3 1 { clean with pc := 0x0C }) (fun t => (getX t 3, t.pc)) = some (0, 0x10) := by decide
theorem test_djnz_zero : after (.djnz 3 0xFFFF) (setX 3 0 { clean with pc := 0x0C }) (fun t => (getX t 3, t.pc))
    = some (0xFFFFFFFF, 0x08) := by decide
theorem test_sampb : after (.sampb 0 0 0x500) (storing 0x500 (0xD3 :: List.replicate 7 0xFF) clean) (getB · 0)
    = some 0b1010011 := by decide +kernel
theorem test_sampb_misaligned : after (.sampb 0 1 0) (setX 1 0x504 clean) faultRegs = some (.misaligned, 0x40, 0x504) := by
  decide +kernel
theorem test_bst : after (.bst 1 0 0) (setB 0 0b1010011 (setX 1 0x100 (storing 0x100 [1, 1, 1, 1, 1, 1, 1, 1, 1] clean)))
    (bytesAt 0x100 9) = some [0x53, 0, 0, 0, 0, 0, 0, 0, 1] := by decide +kernel
theorem test_bst_range : after (.bst 1 0 0) (setB 0 0b1010011 (setX 1 0xFF8 clean)) (bytesAt 0xFF8 8)
      = some [0x53, 0, 0, 0, 0, 0, 0, 0]
    ∧ after (.bst 1 0 8) (setX 1 0xFF8 clean) faultRegs = some (.memRange, 0x40, 0x1000) := by decide +kernel
theorem test_bxor : after (.bxor 3 1 2) (setB 2 0b0110110 (setB 1 0b1010011 clean)) (getB · 3) = some 0b1100101
    ∧ after (.bxor 1 1 1) (setB 1 0b1010011 clean) (getB · 1) = some 0 := by decide +kernel
/-- In place, by 3, and by N. -/
theorem test_brotr : after (.brotr 0 0 2) (setX 2 3 (setB 0 0b1010011 clean)) (getB · 0) = some 0b0111010
    ∧ after (.brotr 1 0 2) (setX 2 1 (setB 0 0b0000001 clean)) (getB · 1) = some 0b1000000
    ∧ after (.brotr 1 0 2) (setX 2 7 (setB 0 0b1010011 clean)) (getB · 1) = some 0b1010011 := by decide +kernel
theorem test_brotr_range : after (.brotr 1 0 2) (setX 2 8 clean) faultRegs = some (.operandRange, 0x40, 8)
    ∧ after (.brotr 1 0 2) (setX 2 0xFFFFFFFF clean) faultRegs = some (.operandRange, 0x40, 0xFFFFFFFF) := by decide +kernel
/-- Coefficients 4 and 5 are repaired. -/
theorem test_sampt : after (.sampt 0 0 0x600) (storing 0x608 [0x8F] (storing 0x600 [0xB5] clean)) (getT · 0)
    = some (tern 0b0110101 0b0111111) := by decide +kernel
/-- Padding bit 63 of the sign plane is masked. -/
theorem test_sampt_padding : after (.sampt 0 1 0)
    (setX 1 0x200 (storing 0x208 [3] (storing 0x200 [5, 0, 0, 0, 0, 0, 0, 0x80] clean))) (getT · 0)
    = some (tern 0b0000101 0b0000111) := by decide +kernel
theorem test_tst : after (.tst 1 0 0) (setT 0 (tern 0b0001100 0b0001111) (setX 1 0x200 clean)) (bytesAt 0x200 16)
    = some [0x0C, 0, 0, 0, 0, 0, 0, 0, 0x0F, 0, 0, 0, 0, 0, 0, 0] := by decide +kernel
theorem test_tst_faults : after (.tst 1 0 0) (setX 1 0x204 clean) faultRegs = some (.misaligned, 0x40, 0x204)
    ∧ after (.tst 1 0 0) (setX 1 0xFF8 clean) faultRegs = some (.memRange, 0x40, 0xFF8) := by decide +kernel
/-- (1 + x)(1 - x^2), and (1 + x + PHI)(1 + x), whose first operand is unreduced. -/
theorem test_tmul : after (.tmul 2 0 1) (setT 1 (tern 0b0000100 0b0000101) (setT 0 (tern 0 0b0000011) clean)) (getT · 2)
      = some (tern 0b0001100 0b0001111)
    ∧ after (.tmul 2 0 1) (setT 1 (tern 0 0b0000011) (setT 0 (tern 0b0000011 0b1111111) clean)) (getT · 2)
      = some (tern 0b0000010 0b0000111) := by decide +kernel
/-- x^6 times ONE, and x^3 times x^4. -/
theorem test_tmul_reduces : after (.tmul 2 0 1) (setT 1 (tern 0 1) (setT 0 (tern 0 0b1000000) clean)) (getT · 2)
      = some (tern 0b0111111 0b0111111)
    ∧ after (.tmul 2 0 1) (setT 1 (tern 0 0b0010000) (setT 0 (tern 0 0b0001000) clean)) (getT · 2)
      = some (tern 0 1) := by decide +kernel
/-- 1 + x, x^6, and MINUS_ONE. -/
theorem test_tinv : after (.tinv 1 0) (setT 0 (tern 0 0b0000011) clean) (getT · 1) = some (tern 0b0101010 0b0101010)
    ∧ after (.tinv 1 0) (setT 0 (tern 0 0b1000000) clean) (getT · 1) = some (tern 0 0b0000010)
    ∧ after (.tinv 1 0) (setT 0 (tern 1 1) clean) (getT · 1) = some (tern 1 1) := by decide +kernel
/-- A non-invertible value gives a well-formed value, no fault, and the run goes on (R131). -/
theorem test_tinv_nonInvertible : ∃ t, exec (.tinv 1 0) (setT 0 (tern 0b1111111 0b1111111) clean) = .next t
    ∧ TernaryPoly.wf 7 (getT t 1) = true ∧ t.busy = true :=
  ⟨_, rfl, by simp only [getT_advance, getT_setT, if_true]; exact wf_ternaryInverse small _, rfl⟩
theorem test_rld : after (.rld 0 0 0x300)
    (storing 0x300 [0x01, 0x00, 0xFF, 0xFF, 0x34, 0x12, 0x10, 0x00, 0x0F, 0x00, 0x00, 0x00, 0x08, 0x80] clean) (getZ · 0)
    = some [1, 15, 4, 0, 15, 0, 8] := by decide +kernel
theorem test_rld_faults : after (.rld 0 1 0) (setX 1 0x301 clean) faultRegs = some (.misaligned, 0x40, 0x301)
    ∧ after (.rld 0 1 0) (setX 1 0xFF4 clean) faultRegs = some (.memRange, 0x40, 0xFF4)
    ∧ after (.rld 0 1 0) (setX 1 0xFF2 clean) (·.busy) = some true := by decide +kernel
theorem test_rst : after (.rst 1 0 0) (setZ 0 [1, 15, 4, 0, 15, 0, 8] (setX 1 0x400 clean)) (bytesAt 0x400 15)
    = some [1, 0, 15, 0, 4, 0, 0, 0, 15, 0, 0, 0, 8, 0, 0] := by decide +kernel
theorem test_rmul : after (.rmul 2 0 1) (setZ 1 [3, 0, 0, 0, 0, 0, 1] (setZ 0 [1, 2, 0, 0, 0, 0, 15] clean)) (getZ · 2)
      = some [5, 6, 0, 0, 0, 15, 14]
    ∧ after (.rmul 2 0 1) (setZ 1 [5, 6, 7, 8, 9, 10, 11] (setZ 0 [0, 1, 0, 0, 0, 0, 0] clean)) (getZ · 2)
      = some [11, 5, 6, 7, 8, 9, 10] := by decide +kernel
/-- All 15 times all 15, by either path. -/
theorem test_rmul_paths : after (.rmul 0 0 0) (setZ 0 (List.replicate 7 15) clean) (getZ · 0) = some (List.replicate 7 7)
    ∧ after (.rmul 0 0 0) (setZ 0 (List.replicate 7 15) { clean with accelEn := true }) (getZ · 0)
      = some (List.replicate 7 7) := by decide +kernel
theorem test_rscale : after (.rscale 1 0 3) (setZ 0 [1, 2, 3, 4, 5, 6, 15] clean) (getZ · 1)
      = some [3, 6, 9, 12, 15, 2, 13]
    ∧ after (.rscale 1 0 15) (setZ 0 [0, 1, 15, 8, 2, 3, 4] clean) (getZ · 1) = some [0, 15, 1, 8, 14, 13, 12] := by
  decide +kernel
theorem test_rneg : after (.rneg 1 0) (setZ 0 [0, 1, 15, 8, 2, 3, 4] clean) (getZ · 1)
    = some [0, 15, 1, 8, 14, 13, 12] := by decide +kernel
theorem test_rfromt : after (.rfromt 0 0) (setT 0 (tern 0b0001100 0b0001111) clean) (getZ · 0)
    = some [1, 1, 15, 15, 0, 0, 0] := by decide +kernel
/-- With LOG_Q = 1 both +1 and -1 lift to 1. -/
theorem test_rfromt_two : after (.rfromt 0 0) (setT 0 (tern 0b0000010 0b0000011) { clean with params := { small with logQ := 1 } })
    (getZ · 0) = some [1, 1, 0, 0, 0, 0, 0] := by decide +kernel

/-! ## Host steps (spec/95_test_vectors.md section 2.7) -/

theorem test_csr_constants : csrValue idle 0x000 = 0x50524531 ∧ csrValue idle 0x004 = 0x00000007
    ∧ csrValue idle 0x008 = 0x00004004 ∧ csrValue idle 0x00C = 0x00001000 ∧ csrValue idle 0x010 = 1 := by decide
theorem test_cfg_write : afterWrite 0x014 0x80000001 idle (csrValue · 0x014) = some 0x80000001
    ∧ afterWrite 0x014 0 { idle with accelEn := true, lock := true } (csrValue · 0x014) = some 0x80000001
    ∧ afterWrite 0x014 1 { idle with params := { small with accel := false } } (csrValue · 0x014) = some 0 := by decide
theorem test_entry_write : afterWrite 0x020 0x103 idle (csrValue · 0x020) = some 0x100 := by decide
theorem test_ctrl_start : afterWrite 0x018 0x9 { idle with entry := 0x40, err := true, errCause := .illegal, errPc := 4, errInfo := 4 }
    (fun t => ([t.ie, t.busy, t.err], faultRegs t, t.pc)) = some ([true, true, false], (.none, 0, 0), 0x100) := by decide
theorem test_ctrl_start_busy : afterWrite 0x018 0x1 { clean with ie := true } (fun t => (t.ie, t.busy, t.pc))
    = some (false, true, 0x40) := by decide
theorem test_ctrl_abort : afterWrite 0x018 0x2 (setX 3 7 { clean with pc := 0x104 })
    (fun t => ([t.err, t.done, t.busy], faultRegs t, csrValue t 0x024, getX t 3))
    = some ([true, false, false], (.aborted, 0x104, 0), 0x104, 0) := by decide
theorem test_ctrl_seven : afterWrite 0x018 0x7 (storing 0x10 [1] (setX 3 7 { clean with entry := 0x40 }))
    (fun t => (t.busy, t.err, t.pc, getX t 3, bytesAt 0x10 1 t)) = some (true, false, 0x100, 0, [0]) := by decide
theorem test_irq : irq { idle with ie := true, done := true } = true
    ∧ afterWrite 0x01C 0x2 { idle with ie := true, done := true } (fun t => (t.done, irq t)) = some (false, false) := by decide
theorem test_unmapped : csrValue idle 0x034 = 0 ∧ csrValue idle 0x0FC = 0 := by decide
theorem test_host_memory : (nextOf (hostStep (.memRead 0x42 2) (storing 0x40 [1, 2, 3, 4] idle))).map (·.replies)
      = some [0x0403]
    ∧ (nextOf (hostStep (.memWrite 0x40 2 0xAABBCCDD) idle)).map (bytesAt 0x3F 4) = some [0, 0xDD, 0xCC, 0] := by decide
theorem test_host_busy : hostStep (.memRead 0 4) clean = .refused .hostMemoryWhileBusy
    ∧ hostStep (.memRead 2 4) idle = .refused .hostMemoryAccess
    ∧ hostStep (.csrRead 0x018 2) idle = .refused .hostCsrAccess := ⟨rfl, rfl, rfl⟩
theorem test_pseudo : pseudoLi32 1 0x12348765 = [.lui 1 0x1235, .addi 1 1 0x8765] ∧ pseudoLi32 1 0xFFFF = [.li 1 0xFFFF] := by
  decide

/-! ## Witnesses: for each statement with hypotheses, concrete states and operands that meet them together -/

/-- A run in progress whose registers are not all zero. -/
def busyWith (x1 : Word) : State := setZ 0 [1, 15, 4, 0, 15, 0, 8] (setT 0 (tern 4 15) (setB 0 0b1010011 (setX 1 x1 clean)))

theorem witness_WordsDecodeByTheTable : decodeWord 0x4C840000#32 = .ok (.brotr 1 0 2)
    ∧ (storing 0x40 [0, 0, 0x85, 0x4C] clean).busy = true ∧ sequencerTurn (storing 0x40 [0, 0, 0x85, 0x4C] clean)
    ∧ (storing 0x40 [0, 0, 0x85, 0x4C] clean).pc.toNat + 4 ≤ (storing 0x40 [0, 0, 0x85, 0x4C] clean).params.memBytes
    ∧ wordWellFormed (fetchWord (storing 0x40 [0, 0, 0x85, 0x4C] clean)) = false :=
  ⟨by decide, rfl, .inl rfl, by decide, by decide⟩

/-- The last word of memory is fetched, the next one is out of range, and an agenda can name the sequencer. -/
theorem witness_StepRunsTheDecodedInstruction :
    ({ clean with pc := 0xFFC }.busy = true ∧ sequencerTurn { clean with pc := 0xFFC, agenda := [.sequencer, .host .reset] }
      ∧ { clean with pc := 0xFFC }.pc.toNat + 4 ≤ { clean with pc := 0xFFC }.params.memBytes
      ∧ decodeBytes (fetchBytes { clean with pc := 0xFFC }) = .ok (.nop, []))
    ∧ ({ clean with pc := 0x1000 }.pc.toNat + 4 > { clean with pc := 0x1000 }.params.memBytes)
    ∧ decodeBytes (fetchBytes (storing 0x40 [0, 0, 0x85, 0x4C] clean)) = .error .reservedBit :=
  ⟨⟨rfl, .inr ⟨_, rfl⟩, by decide, by decide⟩, by decide, by decide⟩

/-- A word with op = 0 that is not NOP. -/
theorem witness_NopOnlyAdvances : (0x00010000#32).extractLsb' 26 6 = 0#6 ∧ 0x00010000#32 ≠ 0#32 := by decide

theorem witness_IdleSequencerChangesNothing : idle.busy = false ∧ sequencerTurn idle := ⟨rfl, .inl rfl⟩

theorem witness_PlacedWordRunsNext : 4 ≤ State.reset.params.memBytes
    ∧ decodeTableWord 32 0x4C840000 = some (.brotr 1 0 2) := by decide

/-- The placed word is the instruction the very next step executes after reset. -/
theorem test_placed_word_runs : (nextOf (step (State.reset.withFetchWord 32 0x08800100))).map (getX · 1) = some 0x100 := by
  decide +kernel

theorem witness_EffectiveAddressAndBase : accessOf (.lw 2 1 0) (busyWith 0xFFC) = some ⟨0xFFC, 4, 4⟩
    ∧ accessOk (busyWith 0xFFC) ⟨0xFFC, 4, 4⟩ ∧ ∀ s1 imm, Instr.lw 2 1 0 ≠ .lw 1 s1 imm :=
  ⟨by decide, ⟨by decide, by decide⟩, fun _ _ h => by cases h⟩

/-- HALT at pc ends a run without ERR. -/
theorem witness_HaltEndsTheRun : (storing 0x40 [0, 0, 0, 4] clean).busy = true
    ∧ (nextOf (step (storing 0x40 [0, 0, 0, 4] clean))).map (fun t => (t.busy, t.err)) = some (false, false) := by decide

/-- The three clauses of a word access: the last word, a misaligned address, and the first address out of range. -/
theorem witness_word_access : accessOk (busyWith 0xFFC) ⟨effAddr (busyWith 0xFFC) 1 0, 4, 4⟩
    ∧ (effAddr (busyWith 0xFFE) 1 0).toNat % 4 ≠ 0
    ∧ (effAddr (busyWith 0x1000) 1 0).toNat % 4 = 0
    ∧ (effAddr (busyWith 0x1000) 1 0).toNat + 4 > (busyWith 0x1000).params.memBytes :=
  ⟨⟨by decide, by decide⟩, by decide, by decide, by decide⟩

theorem witness_LwLoadsTheWord : accessOk (busyWith 0xFFC) ⟨effAddr (busyWith 0xFFC) 1 0, 4, 4⟩
    ∧ ∃ t, exec (.lw 1 1 0) (busyWith 0xFFC) = .next t := ⟨⟨by decide, by decide⟩, _, rfl⟩

theorem witness_SwStoresTheWord : accessOk (busyWith 0) ⟨effAddr (busyWith 0) 1 0xFFC, 4, 4⟩
    ∧ ∃ t, exec (.sw 1 1 0xFFC) (busyWith 0) = .next t := ⟨⟨by decide, by decide⟩, _, rfl⟩

/-- The three clauses of a BitPoly access: SAMPB and BST. -/
theorem witness_bitPoly_access : accessOk (busyWith 0xFF8) ⟨effAddr (busyWith 0xFF8) 1 0, 8, (busyWith 0xFF8).params.bpBytes⟩
    ∧ (effAddr (busyWith 0x104) 1 0).toNat % 8 ≠ 0
    ∧ (effAddr (busyWith 0xFF8) 1 8).toNat % 8 = 0
    ∧ (effAddr (busyWith 0xFF8) 1 8).toNat + (busyWith 0xFF8).params.bpBytes > (busyWith 0xFF8).params.memBytes :=
  ⟨⟨by decide, by decide⟩, by decide, by decide, by decide⟩

/-- The three clauses of a TernaryPoly access: SAMPT and TST. -/
theorem witness_ternary_access : accessOk (busyWith 0xFF0) ⟨effAddr (busyWith 0xFF0) 1 0, 8, (busyWith 0xFF0).params.tpBytes⟩
    ∧ (effAddr (busyWith 0x204) 1 0).toNat % 8 ≠ 0
    ∧ (effAddr (busyWith 0xFF8) 1 0).toNat % 8 = 0
    ∧ (effAddr (busyWith 0xFF8) 1 0).toNat + (busyWith 0xFF8).params.tpBytes > (busyWith 0xFF8).params.memBytes :=
  ⟨⟨by decide, by decide⟩, by decide, by decide, by decide⟩

/-- The three clauses of a TruncRing access: RLD and RST. -/
theorem witness_trunc_access : accessOk (busyWith 0xFF2) ⟨effAddr (busyWith 0xFF2) 1 0, 2, (busyWith 0xFF2).params.rpBytes⟩
    ∧ (effAddr (busyWith 0x301) 1 0).toNat % 2 ≠ 0
    ∧ (effAddr (busyWith 0xFF4) 1 0).toNat % 2 = 0
    ∧ (effAddr (busyWith 0xFF4) 1 0).toNat + (busyWith 0xFF4).params.rpBytes > (busyWith 0xFF4).params.memBytes :=
  ⟨⟨by decide, by decide⟩, by decide, by decide, by decide⟩

theorem witness_BrotrRotatesRight : (getX (setX 2 7 clean) 2).toNat ≤ (setX 2 7 clean).params.n
    ∧ (getX (setX 2 8 clean) 2).toNat > (setX 2 8 clean).params.n := by decide

theorem witness_RotationIsRingMultiplication : 0 < 7 ∧ BitPoly.wf 7 0b1010011 = true ∧ 3 + 4 ≤ 7 := by decide

theorem witness_SamplerBias : TernaryPoly.wf 7 (tern 4 15) = true := by decide

/-- The raw pairs (s, r) = (0,0), (0,1), (1,0), (1,1) give 0, +1, -1, -1 (S9). -/
theorem test_repair : [repair 0 0, repair 0 1, repair 1 0, repair 1 1] = [tern 0 0, tern 0 1, tern 1 1, tern 1 1] := by decide

theorem witness_TmulIsTheReducedProduct : 6 < clean.params.n ∧ 0 < clean.params.n := by decide

/-- 1 + x and 1 + x + PHI. -/
theorem witness_UnreducedInputsSameProduct : 0 < (setT 2 (tern 3 127) (setT 1 (tern 0 3) clean)).params.n
    ∧ ∀ k < (setT 2 (tern 3 127) (setT 1 (tern 0 3) clean)).params.n,
      tritAt (getT (setT 2 (tern 3 127) (setT 1 (tern 0 3) clean)) 2) k
        = (tritAt (getT (setT 2 (tern 3 127) (setT 1 (tern 0 3) clean)) 1) k + 1) % 3 := by decide

/-- An invertible value, with its inverse. -/
theorem witness_TinvIsTheInverse : clean.params.WF ∧ IsTernaryInverse 7 (tern 0 0b0000011) (tern 0b0101010 0b0101010) :=
  ⟨test_params_small, by decide +kernel, by decide +kernel⟩

/-- A value with no inverse. -/
theorem witness_TinvIsTheInverse_none : ¬ ∃ v, IsTernaryInverse clean.params.n (getT clean 0) v := by
  rintro ⟨v, -, h⟩
  have h0 := congrArg (·.getD 0 0) h
  have zero : trits 7 (getT clean 0) = [0, 0, 0, 0, 0, 0, 0] := by decide
  simp only [show clean.params.n = 7 from rfl] at h0
  rw [getD_reduceTrits _ _ _ (by simp [conv3, cyclicConv_eq]), getD_conv3 _ _ _ _ (by decide),
    getD_conv3 _ _ _ _ (by decide), zero] at h0
  simp [convCoeff, List.range_succ] at h0

theorem witness_ConstantValuesAreNotInvertible : clean.params.WF
    ∧ ∀ k < clean.params.n, tritAt (getT (setT 0 (tern 127 127) clean) 0) k = tritAt (getT (setT 0 (tern 127 127) clean) 0) 0 :=
  ⟨test_params_small, by decide⟩

theorem witness_InverseLaw : (setT 0 (tern 1 1) clean).params.WF ∧ (1 : TReg) ≠ 0
    ∧ IsTernaryInverse (setT 0 (tern 1 1) clean).params.n (getT (setT 0 (tern 1 1) clean) 0) (tern 1 1) :=
  ⟨test_params_small, by decide, by decide +kernel, by decide +kernel⟩

theorem witness_TruncRingLaws : small.WF ∧ TruncPoly.wf small.n small.logQ [1, 2, 0, 0, 0, 0, 15] = true
    ∧ TruncPoly.wf small.n small.logQ [3, 0, 0, 0, 0, 0, 1] = true ∧ TruncPoly.wf small.n small.logQ (List.replicate 7 15) = true :=
  ⟨test_params_small, by decide, by decide, by decide⟩

/-- The registers of a run in progress are well formed. -/
theorem witness_RegistersWF (x1 : Word) : RegistersWF (busyWith x1) := by
  have base : RegistersWF (setX 1 x1 clean) :=
    registersWF_congr (registersWF_of_zero (registersZero_resetState small 0)) rfl rfl rfl rfl
  exact registersWF_setZ (registersWF_setT (registersWF_setB base 0 (show 0b1010011 < 2 ^ 7 by decide)) 0
    (show TernaryPoly.wf 7 (tern 4 15) = true by decide)) 0 (show TruncPoly.wf 7 4 [1, 15, 4, 0, 15, 0, 8] = true by decide)

theorem witness_StoredValuesReload : (busyWith 0xFF0).params.WF ∧ RegistersWF (busyWith 0xFF0)
    ∧ accessOk (busyWith 0xFF0) ⟨effAddr (busyWith 0xFF0) 1 8, 8, (busyWith 0xFF0).params.bpBytes⟩
    ∧ accessOk (busyWith 0xFF0) ⟨effAddr (busyWith 0xFF0) 1 0, 8, (busyWith 0xFF0).params.tpBytes⟩
    ∧ accessOk (busyWith 0xFF0) ⟨effAddr (busyWith 0xFF0) 1 2, 2, (busyWith 0xFF0).params.rpBytes⟩ :=
  ⟨test_params_small, witness_RegistersWF _, ⟨by decide, by decide⟩, ⟨by decide, by decide⟩, ⟨by decide, by decide⟩⟩

/-- Each fault of an instruction, and an instruction that completes. -/
theorem witness_FaultsAreExactlyThese : faultOf (.lw 2 1 0) (busyWith 0xFFE) = some (.misaligned, 0xFFE)
    ∧ faultOf (.bst 1 0 8) (busyWith 0xFF8) = some (.memRange, 0x1000)
    ∧ faultOf (.brotr 1 0 1) (busyWith 8) = some (.operandRange, 8)
    ∧ faultOf (.brotr 1 0 1) (busyWith 7) = none ∧ faultOf .halt (busyWith 7) = none := by decide

theorem witness_MemoryFrame : ¬ storesTo (.sw 1 2 0) (busyWith 0x80) 0x84 ∧ storesTo (.sw 1 2 0) (busyWith 0x80) 0x83
    ∧ faultOf (.sw 1 2 0) (busyWith 0x82) ≠ none := by
  refine ⟨?_, ⟨0x80, 4, by decide, by decide, by decide⟩, by decide⟩
  rintro ⟨first, size, h, -, h2⟩
  have h' : some (0x80, 4) = some (first, size) := h
  cases h'
  exact absurd h2 (by decide)

theorem witness_ProgramsCannotReachTheCsrs : sequencerTurn clean := .inl rfl

theorem witness_PcStaysAligned : { clean with pc := 0xFFFFFFFC }.pc.toNat % 4 = 0 := by decide

/-- A run in progress over any memory in canonical form meets the invariant. -/
theorem inv_of_memory (m : Memory) (h1 : m.wf = true) (h2 : m.inside 4096 = true) : Inv { clean with mem := m } where
  params := test_params_small
  mem := ⟨h1, h2⟩
  regs := registersWF_congr (registersWF_of_zero (registersZero_resetState small 0)) rfl rfl rfl rfl
  status := by constructor <;> simp [clean, idle, resetState]
  pc_aligned := show clean.pc.toNat % 4 = 0 by decide
  idle_zero h := by cases h
  idle_pc h := by cases h

theorem witness_EveryStepKeepsTheInvariant : Inv (storing 0x40 [7, 0, 0, 9] clean)
    ∧ ∃ t, step (storing 0x40 [7, 0, 0, 9] clean) = .next t :=
  ⟨inv_of_memory _ (by decide) (by decide), _, rfl⟩

theorem witness_ResetMeetsTheInvariant : Params.reference.WF := test_params_reference

/-- A run with BROTR b1, b0, x2 and then HALT at pc, the shift in X2, and a byte at 0x800. -/
def rotating (shift : Word) (v : Nat) : State :=
  storing 0x800 [v] (setX 2 shift (setB 0 3 (storing 0x40 [0, 0, 0x84, 0x4C, 0, 0, 0, 4] clean)))

/-- X2 and the byte at 0x800 are secret. -/
def shiftSecret : Secrets := { x := (· = 2), mem := (· = 0x800) }

/-- Two such runs differ only where secrets lie, whatever the shifts and the bytes. -/
theorem rotating_publicEq (x y : Word) (v w : Nat) : PublicEq shiftSecret (rotating x v) (rotating y w) where
  rest := rfl
  x r hr := by
    have hr : r ≠ 2 := hr
    show getX (setX 2 y _) r = getX (setX 2 x _) r
    rw [getX_setX, getX_setX, if_neg hr, if_neg hr]
  mem a ha := by
    have ha : a ≠ 0x800 := ha
    exact (read_writeBytes_outside _ _ _ _ (by simp; omega)).trans (read_writeBytes_outside _ _ _ _ (by simp; omega)).symm

/-- Shifts of 1 and of 7 = N are both in 0..N. -/
theorem rotating_discreet : Discreet shiftSecret (rotating 1 5) (rotating 7 6) where
  fetched k hk h := by
    have h : 0x40 + k = 0x800 := h
    omega
  base i r h hr := by
    have e : fetch (rotating 1 5) = .instr (.brotr 1 0 2) := by decide
    rw [e] at h; cases h; cases hr
  counter d imm h := by
    have e : fetch (rotating 1 5) = .instr (.brotr 1 0 2) := by decide
    rw [e] at h; cases h
  shift d s1 s2 h := by
    have e : fetch (rotating 1 5) = .instr (.brotr 1 0 2) := by decide
    rw [e] at h; cases h; decide

theorem witness_ConstantTime : PublicEq shiftSecret (rotating 1 5) (rotating 7 6) ∧ (rotating 1 5).busy = true
    ∧ sequencerTurn (rotating 1 5) ∧ Discreet shiftSecret (rotating 1 5) (rotating 7 6) :=
  ⟨rotating_publicEq .., rfl, .inl rfl, rotating_discreet⟩

/-- The whole run, BROTR and then HALT, is discreet. -/
theorem witness_ConstantTime_run : DiscreetRun 2 shiftSecret (rotating 1 5) (rotating 7 6) := by
  refine ⟨fun _ => rotating_discreet, fun t t' h h' => ⟨fun _ => ?_, fun _ _ _ _ => trivial⟩⟩
  have ht : nextOf (step (rotating 1 5)) = some t := by rw [h]; rfl
  have ht' : nextOf (step (rotating 7 6)) = some t' := by rw [h']; rfl
  have e : (nextOf (step (rotating 1 5))).map (fun u => (fetch u, u.pc)) = some (.instr .halt, 0x44) := by decide
  have m : (nextOf (step (rotating 1 5))).map (·.mem) = some (rotating 1 5).mem := rfl
  have m' : (nextOf (step (rotating 7 6))).map (·.mem) = some (rotating 7 6).mem := rfl
  rw [ht] at e m
  rw [ht'] at m'
  simp only [Option.map_some, Option.some.injEq, Prod.mk.injEq] at e m m'
  refine ⟨fun k hk _ => ?_, fun i r hi hr => ?_, fun d imm hi => ?_, fun d s1 s2 hi => ?_⟩
  · have hpc : t.pc.toNat = 0x44 := by rw [e.2]; rfl
    rw [m, m', hpc]
    exact (rotating_publicEq 1 7 5 6).mem _ (show ¬ 0x44 + k = 0x800 by omega)
  all_goals rw [e.1] at hi; cases hi
  cases hr

/-- The trace of the run: one observation for each instruction, and the end by HALT. -/
theorem test_run_trace : ((runTrace 5 (rotating 1 5)).steps.map fun o => (o.pc, o.word, o.ea))
      = [(0x40, some 0x4C840000, none), (0x44, some 0x04000000, none)]
    ∧ (runTrace 5 (rotating 1 5)).ending = some .halt := by decide +kernel

/-- A shift of 8 > N ends the run by OPERAND_RANGE, an ABORT ends it before its first instruction, and a run cut short has
no end yet. -/
theorem test_run_ends : (runTrace 5 (rotating 8 5)).ending = some (.fault .operandRange)
    ∧ runTrace 5 { rotating 1 5 with agenda := [.host (.csrWrite 0x018 4 2)] } = ⟨[], some .abort⟩
    ∧ (runTrace 1 (rotating 1 5)).ending = none := by decide +kernel

/-- A run that ends by HALT and one that ends by ABORT. -/
theorem witness_RunEndState : (Inv (storing 0x40 [0, 0, 0, 4] clean)
      ∧ (nextOf (step (storing 0x40 [0, 0, 0, 4] clean))).map (·.busy) = some false)
    ∧ (nextOf (step { clean with agenda := [.host (.csrWrite 0x018 4 2)] })).map (·.busy) = some false
    ∧ ∀ rest, { clean with agenda := [.host (.csrWrite 0x018 4 2)] }.agenda ≠ .host .reset :: rest :=
  ⟨⟨inv_of_memory _ (by decide) (by decide), by decide⟩, by decide, fun _ h => by cases h⟩

/-- A step for each way to end a run, and one that does not end it. -/
theorem witness_RunEndState_ends : stepEnd (storing 0x40 [0, 0, 0, 4] clean) = some .halt
    ∧ stepEnd (storing 0x40 [0, 0, 0x85, 0x4C] clean) = some (.fault .illegal)
    ∧ stepEnd { clean with pc := 0x1000 } = some (.fault .fetchRange)
    ∧ stepEnd { clean with agenda := [.host (.csrWrite 0x018 4 3)] } = some .abort
    ∧ stepEnd { clean with agenda := [.host .reset] } = some .reset
    ∧ stepEnd clean = none := by decide

theorem witness_StartBeginsARun : (1#32).getLsbD 0 = true ∧ (1#32).getLsbD 1 = false ∧ (1#32).getLsbD 2 = false
    ∧ idle.busy = false ∧ clean.busy = true := by decide

theorem witness_AbortEndsTheRun : (2#32).getLsbD 0 = false ∧ (2#32).getLsbD 1 = true ∧ (2#32).getLsbD 2 = false
    ∧ clean.busy = true ∧ idle.busy = false := by decide

theorem witness_WipeZeroesMemoryAndRegisters : (4#32).getLsbD 0 = false ∧ (4#32).getLsbD 1 = false
    ∧ (4#32).getLsbD 2 = true ∧ idle.busy = false ∧ clean.busy = true := by decide

theorem witness_CtrlActionsInOrder : clean.busy = true ∧ (7#32).getLsbD 0 = true ∧ (7#32).getLsbD 1 = true
    ∧ (7#32).getLsbD 2 = true := by decide

theorem witness_RegistersZeroAtStart : Inv (resetState small 0) ∧ (resetState small 0).busy = false
    ∧ afterWrite 0x018 1 (resetState small 0) (·.busy) = some true := by
  refine ⟨⟨test_params_small, ⟨rfl, rfl⟩, registersWF_of_zero (registersZero_resetState small 0), ?_, rfl,
    fun _ => registersZero_resetState small 0, fun _ => rfl⟩, rfl, by decide⟩
  constructor <;> simp [resetState]

/-- Locked, busy, and neither. -/
theorem witness_CfgWriteRules : ({ idle with lock := true }.lock = true ∧ clean.busy = true
    ∧ idle.lock = false ∧ idle.busy = false)
    ∧ HostAct.csrWrite 0x014 4 0 ≠ .reset ∧ ∃ t, hostStep (.csrWrite 0x014 4 0) { idle with lock := true } = .next t :=
  ⟨by decide, by decide, _, rfl⟩

theorem witness_EntryIsAMultipleOfFour : idle.busy = false ∧ clean.busy = true := by decide

theorem witness_PcRegisterReads : clean.busy = true ∧ HaltTaken clean (endByHalt clean)
    ∧ FaultTaken .illegal 1 clean (raise .illegal 1 clean) := ⟨rfl, endByHalt_haltTaken _, raise_faultTaken _ _ _⟩

theorem witness_PcRegisterReads_idle : { idle with agenda := [.host (.csrWrite 0x018 4 4)] }.busy = false
    ∧ (nextOf (step { idle with agenda := [.host (.csrWrite 0x018 4 4)] })).map (·.busy) = some false
    ∧ ∀ rest, { idle with agenda := [.host (.csrWrite 0x018 4 4)] }.agenda ≠ .host .reset :: rest :=
  ⟨rfl, by decide, fun _ h => by cases h⟩

theorem witness_ConstantCsrs : idle.params.WF ∧ 0x010 ∈ [0x000, 0x004, 0x008, 0x00C, 0x010] :=
  ⟨test_params_small, by decide⟩

/-- A state for each cause, with the code of R221. -/
theorem witness_FaultAndUnmappedCsrs_causes :
    [Cause.none, .fetchRange, .illegal, .misaligned, .memRange, .operandRange, .aborted].map
      (fun c => csrValue { idle with errCause := c } 0x028) = [0, 1, 2, 3, 4, 5, 6] := by decide

/-- The first and the last offset of each range. -/
theorem witness_FaultAndUnmappedCsrs : (0x028 % 4 = 0 ∧ 0x028 ≤ 0x028 ∧ 0x028 < 256) ∧ (0x034 % 4 = 0 ∧ 0x034 ≤ 0x034 ∧ 0x034 < 256)
    ∧ (0x0FC % 4 = 0 ∧ 0x034 ≤ 0x0FC ∧ 0x0FC < 256) := by decide

theorem witness_IrqIsALevel : (6#32).getLsbD 1 = true ∧ (6#32).getLsbD 2 = true ∧ (0#32).getLsbD 3 = false
    ∧ (∃ t, hostStep (.csrWrite 0x01C 4 6) { idle with ie := true, done := true } = .next t)
    ∧ ∃ t, hostStep (.csrWrite 0x018 4 0) { idle with ie := true, done := true } = .next t :=
  ⟨by decide, by decide, by decide, ⟨_, rfl⟩, _, rfl⟩

/-- Each way to break the duty. -/
theorem witness_HostMemoryPort_refused : clean.busy = true ∧ ¬ (3 = 1 ∨ 3 = 2 ∨ 3 = 4) ∧ 0xFFE % 4 ≠ 0
    ∧ 0x1000 + 1 > idle.params.memBytes := by decide

/-- The last access of each width. -/
theorem witness_HostMemoryPort : idle.busy = false ∧ (0xFFF % 1 = 0 ∧ 0xFFF + 1 ≤ idle.params.memBytes)
    ∧ (0xFFE % 2 = 0 ∧ 0xFFE + 2 ≤ idle.params.memBytes) ∧ (0xFFC % 4 = 0 ∧ 0xFFC + 4 ≤ idle.params.memBytes) := by decide

/-- A host step next, and the last register of the window. -/
theorem witness_HostTurnsAndDuties_turn : { idle with agenda := [.host (.csrRead 0x030 4)] }.agenda = [.host (.csrRead 0x030 4)]
    ∧ 0x0FC % 4 = 0 ∧ 0x0FC < 256 := by decide

/-- A step that breaks each duty, and the last access that keeps it. -/
theorem witness_HostTurnsAndDuties : BreaksDuty (.memRead 0 4) clean ∧ BreaksDuty (.memWrite 0xFFE 4 0) idle
    ∧ BreaksDuty (.memRead 0 3) idle ∧ BreaksDuty (.csrRead 0x100 4) idle ∧ BreaksDuty (.csrWrite 0x018 2 0) idle
    ∧ ¬ BreaksDuty (.memRead 0xFFC 4) idle ∧ ¬ BreaksDuty (.csrRead 0x0FC 4) idle ∧ ¬ BreaksDuty .reset idle := by
  simp [BreaksDuty, clean, idle, resetState, small]

theorem witness_ResetValues : small.WF ∧ { small with memBytes := 2 ^ 32 }.WF :=
  ⟨test_params_small, by constructor <;> norm_num [small]⟩

end Sys2Proof.Tests
end

section
/-!
PROOFS of the family 10_state: what the CSR window reads and writes, the duty-keeping host steps, and the obligations O49,
O50, O52, O53, O54, O56 and O60.
-/

namespace Sys2Proof.Machine

/-! ## What a read of each register gives -/

@[simp] theorem csrValue_id (s : State) : csrValue s 0x000 = 0x50524531#32 := rfl
@[simp] theorem csrValue_paramN (s : State) : csrValue s 0x004 = BitVec.ofNat 32 (s.params.n % 65536) := rfl
@[simp] theorem csrValue_paramQ (s : State) : csrValue s 0x008 = paramQWord s.params := rfl
@[simp] theorem csrValue_memSize (s : State) : csrValue s 0x00C = BitVec.ofNat 32 s.params.memBytes := rfl
@[simp] theorem csrValue_cap (s : State) : csrValue s 0x010 = bitAt s.params.accel 0 := rfl
@[simp] theorem csrValue_cfg (s : State) : csrValue s 0x014 = cfgWord s := rfl
@[simp] theorem csrValue_ctrl (s : State) : csrValue s 0x018 = bitAt s.ie 3 := rfl
@[simp] theorem csrValue_status (s : State) : csrValue s 0x01C = statusWord s := rfl
@[simp] theorem csrValue_entry (s : State) : csrValue s 0x020 = entryWord s := rfl
@[simp] theorem csrValue_pc (s : State) : csrValue s 0x024 = pcWord s := rfl
@[simp] theorem csrValue_errCause (s : State) : csrValue s 0x028 = causeCode s.errCause := rfl
@[simp] theorem csrValue_errPc (s : State) : csrValue s 0x02C = s.errPc := rfl
@[simp] theorem csrValue_errInfo (s : State) : csrValue s 0x030 = s.errInfo := rfl

@[simp] theorem bitAt_false (k : Nat) : bitAt false k = 0 := rfl

/-- A bit at place k is read there and nowhere else. -/
theorem getLsbD_bitAt (v : Bool) {k : Nat} (hk : k < 32) (i : Nat) : (bitAt v k).getLsbD i = (decide (i = k) && v) := by
  cases v with
  | false => simp
  | true =>
    have place : (bitAt true k).getLsbD i = (decide (k < 32) && decide (k = i)) := BitVec.getLsbD_twoPow k i
    simp [place, hk, eq_comm]

/-- The bits of CFG (R46). -/
theorem getLsbD_cfgWord (s : State) (k : Nat) :
    (cfgWord s).getLsbD k = if k = 0 then s.accelEn else if k = 31 then s.lock else false := by
  rw [cfgWord, BitVec.getLsbD_or, getLsbD_bitAt _ (by decide), getLsbD_bitAt _ (by decide)]
  by_cases h0 : k = 0
  · simp [h0]
  · by_cases h31 : k = 31 <;> simp [h0, h31]

theorem pcWord_of_busy {s : State} (h : s.busy = true) : pcWord s = s.pc := if_pos h

theorem pcWord_of_idle {s : State} (h : s.busy = false) : pcWord s = s.pcReg := if_neg (by simp [h])

/-! ## The constants of a legal part (R42 to R45) -/

theorem paramNWord_of_wf {p : Params} (h : p.WF) : BitVec.ofNat 32 (p.n % 65536) = BitVec.ofNat 32 p.n := by
  rw [Nat.mod_eq_of_lt (Nat.lt_succ_of_le h.n_le)]

/-- The fields of PARAM_Q do not overlap, so their union is their sum (R44). -/
theorem paramQWord_of_wf {p : Params} (h : p.WF) : paramQWord p = BitVec.ofNat 32 (p.logQ + 64 * 256) := by
  have small : p.logQ < 32 := lt_of_le_of_lt h.logQ_le (by decide)
  have disjoint : 2 ^ 14 * 1 + p.logQ = 2 ^ 14 * 1 ||| p.logQ := Nat.two_pow_add_eq_or_of_lt (by omega) 1
  rw [paramQWord, Nat.mod_eq_of_lt small, show BitVec.ofNat 32 64 <<< 8 = BitVec.ofNat 32 (2 ^ 14 * 1) from rfl,
    ← BitVec.ofNat_or, Nat.lor_comm, ← disjoint, Nat.add_comm, show 2 ^ 14 * 1 = 64 * 256 from rfl]

theorem memSizeWord_eq (m : Nat) : BitVec.ofNat 32 m = BitVec.ofNat 32 (m % 2 ^ 32) :=
  BitVec.eq_of_toNat_eq (by simp)

theorem capWord_eq (accel : Bool) : bitAt accel 0 = BitVec.ofNat 32 accel.toNat := by
  cases accel <;> rfl

/-! ## The reset values (R55) -/

@[simp] theorem resetState_params (p : Params) (epoch : Nat) : (resetState p epoch).params = p := rfl

/-- Every register of the window but the constant ones reads 0 after reset (R55). -/
theorem csrValue_resetState (p : Params) (epoch : Nat) :
    ∀ offset ∈ [0x014, 0x018, 0x01C, 0x020, 0x024, 0x028, 0x02C, 0x030], csrValue (resetState p epoch) offset = 0 := by
  simp [resetState, cfgWord, statusWord, entryWord, pcWord, causeCode]

/-! ## What a write of each register does -/

@[simp] theorem csrUpdate_cfg (v : Word) (s : State) : csrUpdate 0x014 v s = writeCfg v s := rfl
@[simp] theorem csrUpdate_ctrl (v : Word) (s : State) : csrUpdate 0x018 v s = writeCtrl v s := rfl
@[simp] theorem csrUpdate_status (v : Word) (s : State) : csrUpdate 0x01C v s = writeStatus v s := rfl
@[simp] theorem csrUpdate_entry (v : Word) (s : State) : csrUpdate 0x020 v s = writeEntry v s := rfl

/-- Everything a write of the window can do: four registers are writable, and any other offset ignores it. -/
theorem csrUpdate_cases (offset : Nat) (v : Word) (s : State) :
    (offset = 0x014 ∧ csrUpdate offset v s = writeCfg v s) ∨ (offset = 0x018 ∧ csrUpdate offset v s = writeCtrl v s) ∨
    (offset = 0x01C ∧ csrUpdate offset v s = writeStatus v s) ∨ (offset = 0x020 ∧ csrUpdate offset v s = writeEntry v s) ∨
    (offset ∉ [0x014, 0x018, 0x01C, 0x020] ∧ csrUpdate offset v s = s) := by
  unfold csrUpdate
  split
  case h_5 => simp_all
  all_goals simp

theorem writeCfg_of_locked_or_busy (v : Word) {s : State} (h : s.lock = true ∨ s.busy = true) : writeCfg v s = s :=
  if_pos (by simpa using h)

theorem writeCfg_of_open (v : Word) {s : State} (hl : s.lock = false) (hb : s.busy = false) :
    writeCfg v s = { s with accelEn := v.getLsbD 0 && s.params.accel, lock := v.getLsbD 31 } := by
  simp [writeCfg, hl, hb]

@[simp] theorem writeCfg_pcReg (v : Word) (s : State) : (writeCfg v s).pcReg = s.pcReg := by
  unfold writeCfg; split <;> rfl

theorem writeEntry_of_idle (v : Word) {s : State} (h : s.busy = false) :
    writeEntry v s = { s with entry := v.extractLsb' 2 30 } := if_neg (by simp [h])

theorem writeEntry_of_busy (v : Word) {s : State} (h : s.busy = true) : writeEntry v s = s := if_pos h

@[simp] theorem writeEntry_accelEn (v : Word) (s : State) : (writeEntry v s).accelEn = s.accelEn := by
  unfold writeEntry; split <;> rfl

@[simp] theorem writeEntry_lock (v : Word) (s : State) : (writeEntry v s).lock = s.lock := by
  unfold writeEntry; split <;> rfl

@[simp] theorem writeEntry_pcReg (v : Word) (s : State) : (writeEntry v s).pcReg = s.pcReg := by
  unfold writeEntry; split <;> rfl

/-- The word ENTRY holds after a write while idle: the written word with its low two bits 0 (R49). -/
theorem toNat_entryWord_writeEntry (v : Word) {s : State} (h : s.busy = false) :
    (entryWord (writeEntry v s)).toNat = v.toNat / 4 * 4 := by
  have := v.isLt
  rw [toNat_entryWord, writeEntry_of_idle v h, BitVec.extractLsb'_toNat, Nat.shiftRight_eq_div_pow]
  omega

/-! ## The three actions of CTRL: each acts or leaves the state as it is -/

theorem abortAction_cases (act : Bool) (s : State) :
    (act = true ∧ s.busy = true ∧ abortAction act s = raise .aborted 0 s) ∨
    ((act = false ∨ s.busy = false) ∧ abortAction act s = s) := by
  cases act <;> cases h : s.busy <;> simp [abortAction, h]

theorem wipeAction_cases (act : Bool) (s : State) :
    (act = true ∧ s.busy = false ∧ wipeAction act s = wipe s) ∨
    ((act = false ∨ s.busy = true) ∧ wipeAction act s = s) := by
  cases act <;> cases h : s.busy <;> simp [wipeAction, h]

theorem startAction_cases (act : Bool) (s : State) :
    (act = true ∧ s.busy = false ∧ startAction act s = startRun s) ∨
    ((act = false ∨ s.busy = true) ∧ startAction act s = s) := by
  cases act <;> cases h : s.busy <;> simp [startAction, h]

/-- A property that the write of IE gives and each action keeps holds after a write of CTRL (R47). -/
theorem writeCtrl_induction {P : State → Prop} (v : Word) {s : State} (hie : P { s with ie := v.getLsbD 3 })
    (habort : ∀ u, u.busy = true → P u → P (raise .aborted 0 u)) (hwipe : ∀ u, u.busy = false → P u → P (wipe u))
    (hstart : ∀ u, u.busy = false → P u → P (startRun u)) : P (writeCtrl v s) := by
  have abort (act : Bool) (u : State) (h : P u) : P (abortAction act u) := by
    rcases abortAction_cases act u with ⟨-, hb, eq⟩ | ⟨-, eq⟩ <;> rw [eq]
    exacts [habort u hb h, h]
  have wipe (act : Bool) (u : State) (h : P u) : P (wipeAction act u) := by
    rcases wipeAction_cases act u with ⟨-, hb, eq⟩ | ⟨-, eq⟩ <;> rw [eq]
    exacts [hwipe u hb h, h]
  have start (act : Bool) (u : State) (h : P u) : P (startAction act u) := by
    rcases startAction_cases act u with ⟨-, hb, eq⟩ | ⟨-, eq⟩ <;> rw [eq]
    exacts [hstart u hb h, h]
  exact start _ _ (wipe _ _ (abort _ _ hie))

@[simp] theorem writeCtrl_ie (v : Word) (s : State) : (writeCtrl v s).ie = v.getLsbD 3 :=
  writeCtrl_induction (P := fun u => u.ie = v.getLsbD 3) v rfl (by simp) (by simp) (by simp)

@[simp] theorem writeCtrl_lock (v : Word) (s : State) : (writeCtrl v s).lock = s.lock :=
  writeCtrl_induction (P := fun u => u.lock = s.lock) v rfl (by simp) (by simp) (by simp)

@[simp] theorem writeCtrl_accelEn (v : Word) (s : State) : (writeCtrl v s).accelEn = s.accelEn :=
  writeCtrl_induction (P := fun u => u.accelEn = s.accelEn) v rfl (by simp) (by simp) (by simp)

theorem abortAction_of_idle (act : Bool) {s : State} (h : s.busy = false) : abortAction act s = s :=
  if_neg (by simp [h])

/-- Only an ABORT moves the PC register, and a write of CTRL while idle aborts nothing (R50). -/
theorem writeCtrl_pcReg_of_idle (v : Word) {s : State} (h : s.busy = false) : (writeCtrl v s).pcReg = s.pcReg := by
  have wipe (act : Bool) (u : State) : (wipeAction act u).pcReg = u.pcReg := by
    rcases wipeAction_cases act u with ⟨-, -, eq⟩ | ⟨-, eq⟩ <;> simp [eq]
  have start (act : Bool) (u : State) : (startAction act u).pcReg = u.pcReg := by
    rcases startAction_cases act u with ⟨-, -, eq⟩ | ⟨-, eq⟩ <;> simp [eq]
  rw [writeCtrl, start, wipe, abortAction_of_idle (v.getLsbD 1) (s := { s with ie := v.getLsbD 3 }) h]

/-- Registers that are zero are zero after a write of CTRL too: no action writes another value (R27, R267, R268). -/
theorem registersZero_writeCtrl (v : Word) {s : State} (h : registersZero s) : registersZero (writeCtrl v s) :=
  writeCtrl_induction v h (fun u _ _ => (raise_faultTaken .aborted 0 u).zero)
    (fun u _ _ => registersZero_zeroRegisters u) fun _ _ hu => hu

/-! ## What a host step and an idle step are -/

/-- Everything a host step that answers can do, with the duty it keeps. -/
theorem hostStep_cases {a : HostAct} {s t : State} (h : hostStep a s = .next t) :
    (∃ offset width, a = .csrRead offset width ∧ csrAccessOk offset width = true ∧ t = reply (csrValue s offset) s) ∨
    (∃ offset width v, a = .csrWrite offset width v ∧ csrAccessOk offset width = true ∧ t = csrUpdate offset v s) ∨
    (∃ addr n, a = .memRead addr n ∧ s.busy = false ∧ hostAccessOk s addr n = true ∧
      t = reply (BitVec.ofNat 32 (leNat (s.mem.readBytes addr n))) s) ∨
    (∃ addr n v, a = .memWrite addr n v ∧ s.busy = false ∧ hostAccessOk s addr n = true ∧
      t = { s with mem := s.mem.writeBytes addr (toBytes n v.toNat) }) ∨
    (a = .reset ∧ t = resetInput s) := by
  cases a with
  | csrRead offset width =>
    simp only [hostStep, hostCsrRead] at h
    split at h <;> simp_all
  | csrWrite offset width v =>
    simp only [hostStep, hostCsrWrite] at h
    split at h <;> simp_all
  | memRead addr n =>
    simp only [hostStep, hostMemRead] at h
    split at h
    · cases h
    · split at h <;> simp_all
  | memWrite addr n v =>
    simp only [hostStep, hostMemWrite] at h
    split at h
    · cases h
    · split at h <;> simp_all
  | reset => simp_all [hostStep]

/-- The state a duty-keeping write of the CSR window answers. -/
theorem eq_of_hostStep_csrWrite {offset : Nat} {v : Word} {s t : State} (h1 : offset % 4 = 0) (h2 : offset < 256)
    (h : hostStep (.csrWrite offset 4 v) s = .next t) : t = csrUpdate offset v s := by
  rw [hostStep_csrWrite v s h1 h2] at h
  exact (Host.Outcome.next.inj h).symm

/-- No host step but reset clears LOCK or moves a locked ACCEL_EN (R46). -/
theorem hostStep_keeps_locked {a : HostAct} {s t : State} (ha : a ≠ .reset) (hl : s.lock = true)
    (h : hostStep a s = .next t) : t.lock = true ∧ t.accelEn = s.accelEn := by
  rcases hostStep_cases h with ⟨_, _, -, -, rfl⟩ | ⟨offset, _, v, -, -, rfl⟩ | ⟨_, _, -, -, -, rfl⟩ |
    ⟨_, _, _, -, -, -, rfl⟩ | ⟨rfl, -⟩
  · exact ⟨hl, rfl⟩
  · rcases csrUpdate_cases offset v s with ⟨-, eq⟩ | ⟨-, eq⟩ | ⟨-, eq⟩ | ⟨-, eq⟩ | ⟨-, eq⟩ <;> rw [eq]
    · simp [writeCfg_of_locked_or_busy v (.inl hl), hl]
    · simp [hl]
    · exact ⟨hl, rfl⟩
    · simp [hl]
    · exact ⟨hl, rfl⟩
  · exact ⟨hl, rfl⟩
  · exact ⟨hl, rfl⟩
  · exact absurd rfl ha

/-- No host step on an idle part but reset moves the PC register (R50). -/
theorem hostStep_pcReg_of_idle {a : HostAct} {s t : State} (ha : a ≠ .reset) (hb : s.busy = false)
    (h : hostStep a s = .next t) : t.pcReg = s.pcReg := by
  rcases hostStep_cases h with ⟨_, _, -, -, rfl⟩ | ⟨offset, _, v, -, -, rfl⟩ | ⟨_, _, -, -, -, rfl⟩ |
    ⟨_, _, _, -, -, -, rfl⟩ | ⟨rfl, -⟩
  · rfl
  · rcases csrUpdate_cases offset v s with ⟨-, eq⟩ | ⟨-, eq⟩ | ⟨-, eq⟩ | ⟨-, eq⟩ | ⟨-, eq⟩ <;> rw [eq]
    · simp
    · exact writeCtrl_pcReg_of_idle v hb
    · rfl
    · simp
  · rfl
  · rfl
  · exact absurd rfl ha

theorem sequencerStep_of_idle {s : State} (h : s.busy = false) : sequencerStep s = .next s := if_neg (by simp [h])

/-- A turn is the sequencer's or the host's (R18). -/
theorem sequencerTurn_or_hostTurn (s : State) : sequencerTurn s ∨ ∃ a rest, s.agenda = .host a :: rest := by
  match h : s.agenda with
  | [] => exact .inl (.inl h)
  | .sequencer :: rest => exact .inl (.inr ⟨rest, h⟩)
  | .host a :: rest => exact .inr ⟨a, rest, rfl⟩

/-- No step of an idle part but reset moves the PC register (R50, R220). -/
theorem step_pcReg_of_idle {s t : State} (hb : s.busy = false) (h : step s = .next t)
    (hr : ∀ rest, s.agenda ≠ .host .reset :: rest) : t.pcReg = s.pcReg := by
  rcases sequencerTurn_or_hostTurn s with turn | ⟨a, rest, turn⟩
  · rw [step_of_sequencerTurn turn, sequencerStep_of_idle (s := turnTaken s) hb] at h
    rw [← Host.Outcome.next.inj h, turnTaken_pcReg]
  · rw [step_of_hostTurn turn] at h
    have ha : a ≠ .reset := fun eq => hr rest (eq ▸ turn)
    exact hostStep_pcReg_of_idle (s := turnTaken s) ha hb h

/-! ## The obligations -/

/-- Settles O49: zero registers of an idle state stay zero through a write of CTRL, START or not. -/
theorem registersZeroAtStart : Obligations.RegistersZeroAtStart := by
  intro s t v inv hidle h _
  obtain rfl := eq_of_hostStep_csrWrite (by decide) (by decide) h
  exact registersZero_writeCtrl v (inv.idle_zero hidle)

/-- Settles O50: a write of CFG is dropped or stores its two bits, and no other host step touches them but reset. -/
theorem cfgWriteRules : Obligations.CfgWriteRules := by
  refine ⟨fun s v => ⟨fun h => ?_, fun hl hb => ?_⟩, getLsbD_cfgWord, fun a s t => hostStep_keeps_locked,
    fun p epoch => csrValue_resetState p epoch 0x014 (by simp)⟩
  · rw [hostStep_csrWrite v s (by decide) (by decide), csrUpdate_cfg, writeCfg_of_locked_or_busy v h]
  · rw [hostStep_csrWrite v s (by decide) (by decide), csrUpdate_cfg, writeCfg_of_open v hl hb]

/-- Settles O52: ENTRY holds 30 bits, so it reads as a multiple of 4, and a write while busy is dropped. -/
theorem entryIsAMultipleOfFour : Obligations.EntryIsAMultipleOfFour := by
  refine ⟨fun s v hb => ⟨_, hostStep_csrWrite v s (by decide) (by decide), toNat_entryWord_writeEntry v hb, ?_⟩,
    fun s v hb => ?_, entryWord_aligned, fun p epoch => csrValue_resetState p epoch 0x020 (by simp)⟩
  · rw [csrUpdate_entry, writeEntry_of_idle v hb]
  · rw [hostStep_csrWrite v s (by decide) (by decide), csrUpdate_entry, writeEntry_of_busy v hb]

/-- Settles O53: PC reads the pc while busy and the PC register while idle, which a run's end sets and no idle step but
reset moves. -/
theorem pcRegisterReads : Obligations.PcRegisterReads := by
  refine ⟨fun s hb => pcWord_of_busy hb, fun s t ended => ?_, fun c info s t ended => ?_,
    fun p epoch => csrValue_resetState p epoch 0x024 (by simp), fun s t hs ht h hr => ?_,
    fun s v => hostStep_csrWrite v s (by decide) (by decide)⟩
  · rw [csrValue_pc, pcWord_of_idle ended.busy, ended.pcReg]
  · rw [csrValue_pc, pcWord_of_idle ended.busy, ended.pcReg]
  · rw [csrValue_pc, csrValue_pc, pcWord_of_idle hs, pcWord_of_idle ht, step_pcReg_of_idle hs h hr]

/-- Settles O54: each constant register reads the word of its parameter, and none of them is writable. -/
theorem constantCsrs : Obligations.ConstantCsrs := by
  intro s wf
  refine ⟨hostStep_csrRead s (by decide) (by decide), ?_, ?_, ?_, ?_, fun offset v h => ?_⟩
  · rw [hostStep_csrRead s (by decide) (by decide), csrValue_paramN, paramNWord_of_wf wf, reply]
  · rw [hostStep_csrRead s (by decide) (by decide), csrValue_paramQ, paramQWord_of_wf wf, reply]
  · rw [hostStep_csrRead s (by decide) (by decide), csrValue_memSize, memSizeWord_eq, reply]
  · rw [hostStep_csrRead s (by decide) (by decide), csrValue_cap, capWord_eq, reply]
  · fin_cases h <;> exact hostStep_csrWrite v s (by decide) (by decide)

/-- Settles O56: a write of STATUS clears DONE and ERR by ones, and a write of CTRL stores IE. -/
theorem irqIsALevel : Obligations.IrqIsALevel := by
  refine ⟨fun s => rfl, fun p epoch => rfl, fun s t v h1 h2 h => ?_, fun s t v h3 h => ?_⟩
  · obtain rfl := eq_of_hostStep_csrWrite (by decide) (by decide) h
    simp [irq, writeStatus, h1, h2]
  · obtain rfl := eq_of_hostStep_csrWrite (by decide) (by decide) h
    rw [csrUpdate_ctrl, irq, writeCtrl_ie, h3, Bool.false_and]

/-- Settles O60: the constant registers read the parameters of the part and every other register the zero of its fields. -/
theorem resetValues : Obligations.ResetValues := by
  intro p epoch wf
  have n_le := wf.n_le
  have logQ_le := wf.logQ_le
  refine ⟨csrValue_id _, ?_, ?_, rfl, ?_, csrValue_resetState p epoch, rfl, registersZero_resetState p epoch, rfl, rfl⟩
  · rw [csrValue_paramN, resetState_params, paramNWord_of_wf wf, BitVec.toNat_ofNat]
    omega
  · rw [csrValue_paramQ, resetState_params, paramQWord_of_wf wf, BitVec.toNat_ofNat]
    omega
  · rw [csrValue_cap, resetState_params]
    cases p.accel <;> rfl

end Sys2Proof.Machine
end

section
/-!
PROOFS of the family 20_memory: what every memory instruction does, said once as one checked access with an effect, and the
obligation O10.
-/

namespace Sys2Proof.Machine

/-! ## The effective address -/

@[simp] theorem toNat_uimm (imm : BitVec 16) : (uimm imm).toNat = imm.toNat :=
  BitVec.toNat_setWidth_of_le (by decide)

/-- The effective address is a sum modulo 2^32 (R63). -/
theorem toNat_effAddr (s : State) (base : XReg) (imm : BitVec 16) :
    (effAddr s base imm).toNat = ((getX s base).toNat + imm.toNat) % 2 ^ 32 := by
  rw [effAddr, BitVec.toNat_add, toNat_uimm]

/-! ## Every memory instruction is one checked access -/

/-- What a memory instruction changes when its access passes the checks, the pc apart; the other instructions have no
access and no such effect. `exec_of_accessOf` ties it to `exec`. -/
def accessEffect (i : Instr) (s : State) : State :=
  match i with
  | .lw d s1 imm => setX d (BitVec.ofNat 32 (leNat (loadBytes s (effAddr s s1 imm) 4))) s
  | .sw s1 s2 imm => storeBytes (effAddr s s1 imm) (toBytes 4 (getX s s2).toNat) s
  | .sampb d s1 imm => setB d (loadBitPoly s (effAddr s s1 imm)) s
  | .bst s1 s2 imm => storeBytes (effAddr s s1 imm) (bitPolyBytes s.params (getB s s2)) s
  | .sampt d s1 imm =>
    setT d (repair (loadBitPoly s (effAddr s s1 imm)) (loadSecondPlane s (effAddr s s1 imm))) s
  | .tst s1 s2 imm => storeBytes (effAddr s s1 imm) (ternaryBytes s.params (getT s s2)) s
  | .rld d s1 imm => setZ d (loadTrunc s (effAddr s s1 imm)) s
  | .rst s1 s2 imm => storeBytes (effAddr s s1 imm) (truncBytes s.params (getZ s s2)) s
  | _ => s

/-- An instruction that makes an access checks it, and then has its effect and advances the pc (R62, R67 to R69). -/
theorem exec_of_accessOf {i : Instr} {s : State} {a : Access} (h : accessOf i s = some a) :
    exec i s = checked s a.ea a.align a.size (advance (accessEffect i s)) := by
  cases i
  case lw | sw | sampb | bst | sampt | tst | rld | rst => obtain rfl := Option.some.inj h; rfl
  all_goals exact nomatch h

/-- An instruction whose access is aligned and in range completes with its effect. -/
theorem exec_of_accessOk {i : Instr} {s : State} {a : Access} (h : accessOf i s = some a) (ok : accessOk s a) :
    exec i s = .next (advance (accessEffect i s)) := by
  obtain ⟨aligned, inRange⟩ := ok
  rw [exec_of_accessOf h, checked_ok aligned inRange]

/-- The effect of an access changes no scalar register but the destination of LW. -/
theorem getX_accessEffect {i : Instr} {r : XReg} (s : State) (hr : ∀ s1 imm, i ≠ .lw r s1 imm) :
    getX (accessEffect i s) r = getX s r := by
  cases i
  case lw d s1 imm =>
    have other : r ≠ d := fun eq => hr s1 imm (eq ▸ rfl)
    rw [accessEffect, getX_setX, if_neg other]
  all_goals rfl

/-! ## The obligation -/

/-- Settles O10: the effective address is a sum modulo 2^32, and an access that passes the checks has an effect that
changes no scalar register but the destination of LW. -/
theorem effectiveAddressAndBase : Obligations.EffectiveAddressAndBase := by
  refine ⟨toNat_effAddr, fun i s a access ok => ⟨_, exec_of_accessOk access ok, fun r hr => ?_⟩⟩
  rw [getX_advance, getX_accessEffect s hr]

end Sys2Proof.Machine
end

section
/-!
PROOFS of the family 30_encoding: decoding and encoding are inverse to each other, the opcode map of rule R84 said field by
field, the fetch of a word, and the obligations O1 and O3.
-/

namespace Sys2Proof

open Sys2Proof.Machine

/-! ## The decoder and the encoder -/

theorem ifUnusedZero_eq_ok {zero : Bool} {i j : Instr} : ifUnusedZero zero i = .ok j ↔ zero = true ∧ i = j := by
  cases zero <;> simp [ifUnusedZero]

/-- Decoding gives back every encoded instruction (R81, R84). -/
theorem decodeWord_encode (i : Instr) : decodeWord (encode i) = .ok i := by
  rw [decodeWord, encode, fieldsOf_packFields]
  cases i <;> rfl

/-- Decodable fields are the ones the encoder gives the instruction, the unused ones among them (R83, R85). -/
theorem encodeFields_of_decodeFields {f : Fields} {i : Instr} (h : decodeFields f = .ok i) : encodeFields i = f := by
  obtain ⟨op, d, s1, s2, rsv, imm⟩ := f
  simp only [decodeFields] at h
  split at h
  case isTrue => exact nomatch h
  case isFalse rsvZero =>
    obtain rfl : rsv = 0 := not_not.mp rsvZero
    split at h
    case h_24 => exact nomatch h
    all_goals
      obtain ⟨unused, rfl⟩ := ifUnusedZero_eq_ok.mp h
      simp only [Bool.and_eq_true, beq_iff_eq] at unused
      simp [encodeFields, mkFields, opcodeOf, unused]

/-- A word decodes to an instruction exactly when it is the word that encodes it (R84, R85). -/
theorem decodeWord_eq_ok_iff {w : Word} {i : Instr} : decodeWord w = .ok i ↔ encode i = w := by
  refine ⟨fun h => ?_, fun h => h ▸ decodeWord_encode i⟩
  rw [encode, encodeFields_of_decodeFields h, packFields_fieldsOf]

/-- The decoder takes the word of the first four bytes and leaves the rest (R80). -/
theorem decodeBytes_append {bs : List Byte} (h : bs.length = 4) (rest : List Byte) :
    decodeBytes (bs ++ rest) = (decodeWord (BitVec.ofNat 32 (leNat bs))).map (·, rest) := by
  match bs, h with
  | [b0, b1, b2, b3], _ =>
    simp only [List.cons_append, List.nil_append, decodeBytes]
    cases decodeWord (BitVec.ofNat 32 (leNat [b0, b1, b2, b3])) <;> rfl

/-! ## The rows of the opcode map, field by field -/

/-- The bitwise and of two words, field by field; `fieldsOf_and` ties it to the words. -/
def Fields.and (f m : Fields) : Fields :=
  { op := f.op &&& m.op, d := f.d &&& m.d, s1 := f.s1 &&& m.s1, s2 := f.s2 &&& m.s2, rsv := f.rsv &&& m.rsv,
    imm := f.imm &&& m.imm }

theorem fieldsOf_and (v w : Word) : fieldsOf (v &&& w) = (fieldsOf v).and (fieldsOf w) := by
  simp only [fieldsOf, Fields.and, BitVec.extractLsb'_and]

theorem fieldsOf_injective : Function.Injective fieldsOf :=
  Function.LeftInverse.injective packFields_fieldsOf

/-- The mask that fixes op and rsv, and each operand field the row does not use. -/
def rowMask (usesD usesS1 usesS2 usesImm : Bool) : Fields :=
  { op := BitVec.allOnes 6, d := bif usesD then 0#3 else BitVec.allOnes 3, s1 := bif usesS1 then 0#3 else BitVec.allOnes 3,
    s2 := bif usesS2 then 0#3 else BitVec.allOnes 3, rsv := BitVec.allOnes 1,
    imm := bif usesImm then 0#16 else BitVec.allOnes 16 }

/-- The seven shapes of the rows of rule R84: the mask of a row by the operands its instruction has. -/
def Instr.maskFields : Instr → Fields
  | .nop | .halt => rowMask false false false false
  | .jmp .. => rowMask false false false true
  | .li .. | .lui .. | .djnz .. => rowMask true false false true
  | .addi .. | .lw .. | .sampb .. | .sampt .. | .rld .. | .rscale .. => rowMask true true false true
  | .sw .. | .bst .. | .tst .. | .rst .. => rowMask false true true true
  | .bxor .. | .brotr .. | .tmul .. | .rmul .. => rowMask true true true false
  | .tinv .. | .rneg .. | .rfromt .. => rowMask true true false false

theorem Instr.row_eq (i : Instr) : i.row = ⟨packFields (mkFields (opcodeOf i) 0 0 0 0), packFields i.maskFields⟩ := by
  cases i
  all_goals
    simp only [Instr.row, opcodeOf, Instr.maskFields]
    decide

/-- A word selects a row when its fields under the mask are the opcode and zeros (R84). -/
theorem row_selects_iff {i : Instr} {w : Word} :
    i.row.selects w = true ↔ (fieldsOf w).and i.maskFields = mkFields (opcodeOf i) 0 0 0 0 := by
  rw [i.row_eq, OpRow.selects, beq_iff_eq, ← fieldsOf_injective.eq_iff, fieldsOf_and, fieldsOf_packFields,
    fieldsOf_packFields]

/-- An encoded instruction selects its row (R84). -/
theorem row_selects_encode (i : Instr) : i.row.selects (encode i) = true := by
  rw [row_selects_iff, encode, fieldsOf_packFields]
  cases i
  all_goals
    simp only [encodeFields, mkFields, Fields.and, Instr.maskFields, rowMask, cond_true, cond_false, fieldOf_zero,
      BitVec.and_allOnes, BitVec.and_zero, BitVec.ofNat_eq_ofNat]

/-- A word that selects the row of an instruction decodes to an instruction of this row (R85). -/
theorem decodeWord_of_selects {i : Instr} {w : Word} (h : i.row.selects w = true) :
    ∃ j, decodeWord w = .ok j ∧ j.row = i.row := by
  rw [row_selects_iff] at h
  rw [decodeWord]
  generalize fieldsOf w = f at h ⊢
  obtain ⟨op, d, s1, s2, rsv, imm⟩ := f
  cases i
  all_goals
    simp only [Fields.and, Instr.maskFields, rowMask, mkFields, Fields.mk.injEq, cond_true, cond_false, fieldOf_zero,
      BitVec.and_allOnes] at h
    obtain ⟨rfl, hd, hs1, hs2, rfl, himm⟩ := h
    subst_vars
    exact ⟨_, rfl, rfl⟩

theorem Instr.row_mem_opRows (i : Instr) : i.row ∈ opRows := by
  cases i <;> simp [opRows, Instr.row]

theorem exists_row_of_mem_opRows {r : OpRow} (h : r ∈ opRows) : ∃ i : Instr, i.row = r := by
  simp only [opRows, List.mem_append, List.mem_map] at h
  obtain (⟨i, -, hi⟩ | ⟨i, -, hi⟩) | ⟨i, -, hi⟩ := h <;> exact ⟨i, hi⟩

/-- A word decodes exactly when it selects a row (R85). -/
theorem exists_decodeWord_iff {w : Word} : (∃ i, decodeWord w = .ok i) ↔ wordWellFormed w = true := by
  rw [wordWellFormed, List.any_eq_true]
  constructor
  · rintro ⟨i, h⟩
    exact ⟨i.row, i.row_mem_opRows, decodeWord_eq_ok_iff.mp h ▸ row_selects_encode i⟩
  · rintro ⟨r, hr, sel⟩
    obtain ⟨i, rfl⟩ := exists_row_of_mem_opRows hr
    obtain ⟨j, h, -⟩ := decodeWord_of_selects sel
    exact ⟨j, h⟩

/-- Two rows that one word selects are the row of the instruction it decodes to. -/
theorem row_eq_of_selects {w : Word} {r r' : OpRow} (hr : r ∈ opRows) (hr' : r' ∈ opRows)
    (h : r.selects w = true) (h' : r'.selects w = true) : r = r' := by
  obtain ⟨i, rfl⟩ := exists_row_of_mem_opRows hr
  obtain ⟨i', rfl⟩ := exists_row_of_mem_opRows hr'
  obtain ⟨j, dec, row⟩ := decodeWord_of_selects h
  obtain ⟨j', dec', row'⟩ := decodeWord_of_selects h'
  obtain rfl : j = j' := Except.ok.inj (dec.symm.trans dec')
  rw [← row, row']

theorem nodup_opRows : opRows.Nodup := by decide

/-- No word selects two rows (R85). -/
theorem length_filter_selects_le_one (w : Word) : (opRows.filter fun r => r.selects w).length ≤ 1 := by
  rw [← List.toFinset_card_of_nodup (nodup_opRows.filter _), Finset.card_le_one]
  intro r hr r' hr'
  obtain ⟨hr, sel⟩ := List.mem_filter.mp (List.mem_toFinset.mp hr)
  obtain ⟨hr', sel'⟩ := List.mem_filter.mp (List.mem_toFinset.mp hr')
  exact row_eq_of_selects hr hr' sel sel'

end Sys2Proof

namespace Sys2Proof.Machine

/-! ## Fetching a word that decodes and one that does not -/

/-- A fetch reads exactly the bytes of one word (R80). -/
theorem decodeBytes_fetchBytes (s : State) : decodeBytes (fetchBytes s) = (decodeWord (fetchWord s)).map (·, []) := by
  have len : (fetchBytes s).length = 4 := length_readBytes _ _ _
  rw [fetchWord, ← decodeBytes_append len, List.append_nil]

theorem fetch_of_decodeWord_ok {s : State} {i : Instr} (inRange : s.pc.toNat + 4 ≤ s.params.memBytes)
    (h : decodeWord (fetchWord s) = .ok i) : fetch s = .instr i := by
  rw [fetch, if_neg (by omega), decodeBytes_fetchBytes, h]
  rfl

/-- A fetched word that does not decode is ILLEGAL, with the word as info (R85, R191). -/
theorem fetch_of_decodeWord_error {s : State} {e : DecodeError} (inRange : s.pc.toNat + 4 ≤ s.params.memBytes)
    (h : decodeWord (fetchWord s) = .error e) : fetch s = .fault .illegal (fetchWord s) := by
  rw [fetch, if_neg (by omega), decodeBytes_fetchBytes, h]
  rfl

/-- A fetch does not see the agenda. -/
@[simp] theorem fetch_turnTaken (s : State) : fetch (turnTaken s) = fetch s := rfl

/-- A sequencer turn during a run whose fetch faults takes the fetch's fault (R191, R227). -/
theorem step_of_fetch_fault {s : State} {c : Cause} {info : Word} (busy : s.busy = true) (turn : sequencerTurn s)
    (h : fetch s = .fault c info) : step s = .next (raise c info (turnTaken s)) := by
  rw [step_of_sequencerTurn turn, sequencerStep, turnTaken_busy, if_pos busy, fetch_turnTaken, h]

/-! ## The obligations -/

/-- Settles O1: each word decodes by computation, and encoding is the inverse of decoding. -/
theorem specWordsDecode : Obligations.SpecWordsDecode := by
  have brotr : decodeWord 0x4C840000#32 = .ok (.brotr 1 0 2) := by decide
  have tmul : decodeWord 0x69020000#32 = .ok (.tmul 2 0 1) := by decide
  have lw : decodeWord 0x14A00010#32 = .ok (.lw 1 2 0x0010#16) := by decide
  have djnz : decodeWord 0x2180FFFF#32 = .ok (.djnz 3 0xFFFF#16) := by decide
  exact ⟨brotr, tmul, lw, djnz, by decide, decodeWord_eq_ok_iff.mp brotr, decodeWord_eq_ok_iff.mp tmul,
    decodeWord_eq_ok_iff.mp lw, decodeWord_eq_ok_iff.mp djnz⟩

/-- Settles O3: decoding selects the row of the instruction, at most one row, and the fetch of any other word faults. -/
theorem wordsDecodeByTheTable : Obligations.WordsDecodeByTheTable := by
  refine ⟨fun w => exists_decodeWord_iff, length_filter_selects_le_one, fun w i h => ?_,
    fun s busy turn inRange illFormed => ?_⟩
  · obtain rfl := decodeWord_eq_ok_iff.mp h
    exact ⟨row_selects_encode i, rfl⟩
  · cases dec : decodeWord (fetchWord s) with
    | ok i => simp [exists_decodeWord_iff.mp ⟨i, dec⟩] at illFormed
    | error e =>
      have fault : fetch s = .fault .illegal (fetchWord s) := fetch_of_decodeWord_error inRange dec
      exact ⟨_, step_of_fetch_fault busy turn fault, raise_faultTaken _ _ _⟩

end Sys2Proof.Machine
end

section
/-!
PROOFS of the family 40_bitpoly: the word and the frame of an instruction that writes one BitPoly register or stores bytes,
rotation as addition of shifts modulo N, and the obligations O16, O17, O18 and O19.
-/

namespace Sys2Proof.Machine

/-! ## The word and the frame of an instruction -/

/-- The one word of an instruction has the fields that encode it (R81, R84). -/
theorem isWordOf_encodeFields (i : Instr) : IsWordOf i (encodeFields i) :=
  fun _ => decodeWord_eq_ok_iff.trans eq_comm

theorem changesB_advance_setB (d : BReg) (v : BitPoly) (s : State) : ChangesB d s (advance (setB d v s)) :=
  ⟨rfl, fun r hr => by rw [getB_advance, getB_setB, if_neg hr]⟩

theorem changesMem_advance_storeBytes (ea : Word) (vs : List Byte) (s : State) :
    ChangesMem ea.toNat vs.length s (advance (storeBytes ea vs s)) :=
  ⟨rfl, read_writeBytes_outside s.mem ea.toNat vs⟩

/-! ## What the BitPoly instructions do -/

/-- Bit b of byte j of memory after a BitPoly was stored (R64, R101). -/
theorem getLsbD_read_storeBytes_bitPolyBytes (s : State) (ea : Word) (v : BitPoly) {j b : Nat}
    (hj : j < s.params.bpBytes) (hb : b < 8) :
    ((storeBytes ea (bitPolyBytes s.params v) s).mem.read (ea.toNat + j)).getLsbD b
      = (decide (8 * j + b < s.params.n) && Nat.testBit v (8 * j + b)) := by
  rw [storeBytes_mem, read_writeBytes_inside _ _ _ _ (by simpa using hj), getLsbD_bitPolyBytes _ _ _ _ hj hb]

theorem exec_bxor (d s1 s2 : BReg) (s : State) :
    exec (.bxor d s1 s2) s = .next (advance (setB d (getB s s1 ^^^ getB s s2) s)) := rfl

/-- BROTR completes with a shift of at most N (R103). -/
theorem exec_brotr_of_le (d s1 : BReg) {s2 : XReg} {s : State} (h : (getX s s2).toNat ≤ s.params.n) :
    exec (.brotr d s1 s2) s
      = .next (advance (setB d (rotateRight s.params.n (getB s s1) (getX s s2).toNat) s)) := if_neg (by omega)

/-- BROTR faults with a shift above N (R103, R221). -/
theorem exec_brotr_of_gt (d s1 : BReg) {s2 : XReg} {s : State} (h : (getX s s2).toNat > s.params.n) :
    exec (.brotr d s1 s2) s = .next (raise .operandRange (getX s s2) s) := if_pos h

/-! ## Rotation is addition of shifts modulo N (R104) -/

/-- Rotation moves coefficient k to (k + N - sh) mod N: it multiplies by x^(N - sh). -/
theorem testBit_rotateRight_target (v : BitPoly) {n sh k : Nat} (hsh : sh ≤ n) (hk : k < n) :
    (rotateRight n v sh).testBit ((k + (n - sh)) % n) = v.testBit k := by
  have target : (k + (n - sh)) % n < n := Nat.mod_lt _ (by omega)
  have source : ((k + (n - sh)) % n + sh) % n = k := by
    rw [Nat.mod_add_mod, Nat.add_assoc, Nat.sub_add_cancel hsh, Nat.add_mod_right, Nat.mod_eq_of_lt hk]
  rw [testBit_rotateRight, source, decide_eq_true target, Bool.true_and]

/-- A rotation after a rotation adds the shifts. -/
theorem rotateRight_rotateRight (n : Nat) (v : BitPoly) (a b : Nat) :
    rotateRight n (rotateRight n v a) b = rotateRight n v (a + b) := by
  refine Nat.eq_of_testBit_eq fun k => ?_
  rw [testBit_rotateRight, testBit_rotateRight, testBit_rotateRight]
  by_cases hk : k < n
  · have inRange : (k + b) % n < n := Nat.mod_lt _ (by omega)
    rw [decide_eq_true inRange, Bool.true_and, Nat.mod_add_mod, Nat.add_assoc, Nat.add_comm b]
  · rw [decide_eq_false hk, Bool.false_and, Bool.false_and]

/-- Rotation by a multiple of N is the identity on well-formed values. -/
theorem rotateRight_of_mod_eq_zero {n sh : Nat} {v : BitPoly} (wf : BitPoly.wf n v = true) (hsh : sh % n = 0) :
    rotateRight n v sh = v := by
  have small : v < 2 ^ n := (wf_bitPoly_iff n v).mp wf
  refine Nat.eq_of_testBit_eq fun k => ?_
  rw [testBit_rotateRight, ← Nat.add_mod_mod, hsh, Nat.add_zero]
  by_cases hk : k < n
  · rw [Nat.mod_eq_of_lt hk, decide_eq_true hk, Bool.true_and]
  · rw [decide_eq_false hk, Bool.false_and,
      Nat.testBit_lt_two_pow (small.trans_le (Nat.pow_le_pow_right Nat.two_pos (Nat.le_of_not_lt hk)))]

/-! ## The obligations -/

/-- Settles O16: BST is one checked access that stores the bytes of the BitPoly. -/
theorem bstStoresTheBits : Obligations.BstStoresTheBits := by
  intro s s1 s2 imm
  have access : accessOf (.bst s1 s2 imm) s = some ⟨effAddr s s1 imm, 8, s.params.bpBytes⟩ := rfl
  have frame := changesMem_advance_storeBytes (effAddr s s1 imm) (bitPolyBytes s.params (getB s s2)) s
  rw [length_bitPolyBytes] at frame
  exact ⟨isWordOf_encodeFields _,
    fun ok => ⟨_, exec_of_accessOk access ok,
      fun j hj b hb => getLsbD_read_storeBytes_bitPolyBytes s _ _ hj hb, rfl, frame⟩,
    faultsOnAccess_of_checked (exec_of_accessOf access)⟩

/-- Settles O17: the destination takes the exclusive or of the two old sources, whichever register it is. -/
theorem bxorXorsTheBits : Obligations.BxorXorsTheBits := by
  refine fun s d s1 s2 => ⟨isWordOf_encodeFields _, _, exec_bxor d s1 s2 s, fun k => ?_, rfl,
    changesB_advance_setB _ _ _⟩
  rw [getB_advance, getB_setB, if_pos rfl, Nat.testBit_xor]

/-- Settles O18: a shift of at most N rotates the old source into the destination, and a larger one faults. -/
theorem brotrRotatesRight : Obligations.BrotrRotatesRight := by
  refine fun s d s1 s2 => ⟨isWordOf_encodeFields _,
    fun le => ⟨_, exec_brotr_of_le d s1 le, fun k => ?_, rfl, changesB_advance_setB _ _ _⟩,
    fun gt => ⟨_, exec_brotr_of_gt d s1 gt, raise_faultTaken _ _ _⟩⟩
  rw [getB_advance, getB_setB, if_pos rfl, testBit_rotateRight]

/-- Settles O19: shifts add, and a shift by a multiple of N is the identity. -/
theorem rotationIsRingMultiplication : Obligations.RotationIsRingMultiplication := by
  refine fun n v _ wf => ⟨fun sh hsh k hk => testBit_rotateRight_target v hsh hk,
    rotateRight_of_mod_eq_zero wf (Nat.zero_mod n), rotateRight_of_mod_eq_zero wf (Nat.mod_self n),
    fun sh hsh => ?_, fun a b _ => rotateRight_rotateRight n v a b⟩
  rw [rotateRight_rotateRight, Nat.add_sub_cancel' hsh, rotateRight_of_mod_eq_zero wf (Nat.mod_self n)]

end Sys2Proof.Machine
end

section
/-!
PROOFS of the family 41_ternary: a ternary value as the element of GF(3)[x]/(PHI) it stands for, TMUL as the product and TINV
as the power 3^(N-1) - 2 in this ring, and the obligations O22, O23, O24, O25 and O27.
-/

namespace Sys2Proof.Machine

/-! ## What the ternary instructions do -/

theorem exec_tmul (d s1 s2 : TReg) (s : State) :
    exec (.tmul d s1 s2) s = .next (advance (setT d (ternaryMul s.params.n (getT s s1) (getT s s2)) s)) := rfl

theorem exec_tinv (d s1 : TReg) (s : State) :
    exec (.tinv d s1) s = .next (advance (setT d (ternaryInverse s.params (getT s s1)) s)) := rfl

theorem changesT_advance_setT (d : TReg) (v : TernaryPoly) (s : State) : ChangesT d s (advance (setT d v s)) :=
  ⟨rfl, fun r hr => by rw [getT_advance, getT_setT, if_neg hr]⟩

/-- The register an instruction has just written. -/
theorem getT_advance_setT_self (d : TReg) (v : TernaryPoly) (s : State) : getT (advance (setT d v s)) d = v := by
  rw [getT_advance, getT_setT, if_pos rfl]

/-- The first plane of a stored ternary value is its sign plane (R65). -/
theorem getD_ternaryBytes_sign (p : Params) (v : TernaryPoly) {j : Nat} (hj : j < p.bpBytes) :
    (ternaryBytes p v).getD j 0 = (bitPolyBytes p v.s).getD j 0 :=
  List.getD_append _ _ _ _ (by rwa [length_bitPolyBytes])

/-- The second plane of a stored ternary value is its nonzero plane (R65). -/
theorem getD_ternaryBytes_nonzero (p : Params) (v : TernaryPoly) (j : Nat) :
    (ternaryBytes p v).getD (p.bpBytes + j) 0 = (bitPolyBytes p v.a).getD j 0 := by
  rw [ternaryBytes, List.getD_append_right _ _ _ _ (by simp), length_bitPolyBytes, Nat.add_sub_cancel_left]

/-- A byte of memory after a ternary value was stored. -/
theorem read_storeBytes_ternaryBytes (s : State) (ea : Word) (v : TernaryPoly) {i : Nat} (hi : i < s.params.tpBytes) :
    (storeBytes ea (ternaryBytes s.params v) s).mem.read (ea.toNat + i) = (ternaryBytes s.params v).getD i 0 := by
  rw [storeBytes_mem, read_writeBytes_inside _ _ _ _ (by rwa [length_ternaryBytes])]

/-- Bit b of byte j of each plane in memory after a ternary value was stored (R65, R125). -/
theorem getLsbD_read_storeBytes_ternaryBytes (s : State) (ea : Word) (v : TernaryPoly) {j b : Nat}
    (hj : j < s.params.bpBytes) (hb : b < 8) :
    ((storeBytes ea (ternaryBytes s.params v) s).mem.read (ea.toNat + j)).getLsbD b
        = (decide (8 * j + b < s.params.n) && v.s.testBit (8 * j + b))
      ∧ ((storeBytes ea (ternaryBytes s.params v) s).mem.read (ea.toNat + s.params.bpBytes + j)).getLsbD b
        = (decide (8 * j + b < s.params.n) && v.a.testBit (8 * j + b)) := by
  have size : s.params.tpBytes = 2 * s.params.bpBytes := rfl
  constructor
  · rw [read_storeBytes_ternaryBytes s ea v (by omega), getD_ternaryBytes_sign _ _ hj, getLsbD_bitPolyBytes _ _ _ _ hj hb]
  · rw [Nat.add_assoc, read_storeBytes_ternaryBytes s ea v (by omega), getD_ternaryBytes_nonzero,
      getLsbD_bitPolyBytes _ _ _ _ hj hb]

/-! ## A well-formed value is determined by its coefficients (R16, R17) -/

/-- A bit at or above N of a well-formed plane is zero. -/
theorem testBit_of_wf {n k : Nat} {p : BitPoly} (wf : BitPoly.wf n p = true) (hk : n ≤ k) : p.testBit k = false :=
  Nat.testBit_lt_two_pow (((wf_bitPoly_iff n p).mp wf).trans_le (Nat.pow_le_pow_right Nat.two_pos hk))

/-- A well-formed plane is the N-bit value of its own bits. -/
theorem bitsOf_testBit {n : Nat} {p : BitPoly} (wf : BitPoly.wf n p = true) : bitsOf n p.testBit = p := by
  refine Nat.eq_of_testBit_eq fun k => ?_
  rw [testBit_bitsOf]
  by_cases hk : k < n
  · rw [decide_eq_true hk, Bool.true_and]
  · rw [decide_eq_false hk, Bool.false_and, testBit_of_wf wf (Nat.le_of_not_lt hk)]

/-- A coefficient is -1 exactly where the sign bit is set (R16). -/
theorem tritAt_beq_two (v : TernaryPoly) (k : Nat) : (tritAt v k == 2) = v.s.testBit k := by
  cases hs : v.s.testBit k <;> cases ha : v.a.testBit k <;> simp [tritAt, hs, ha]

/-- A coefficient is not 0 exactly where a bit is set in one of the planes (R16). -/
theorem tritAt_bne_zero (v : TernaryPoly) (k : Nat) : (tritAt v k != 0) = (v.s ||| v.a).testBit k := by
  cases hs : v.s.testBit k <;> cases ha : v.a.testBit k <;> simp [tritAt, hs, ha]

/-- What well-formedness says: both planes fit N bits, and the nonzero plane covers the sign plane (R17, R23). -/
theorem planes_of_wf {n : Nat} {v : TernaryPoly} (wf : v.wf n = true) :
    BitPoly.wf n v.s = true ∧ BitPoly.wf n v.a = true ∧ v.s ||| v.a = v.a := by
  simp only [TernaryPoly.wf, Bool.and_eq_true, beq_iff_eq] at wf
  obtain ⟨⟨wfs, wfa⟩, sub⟩ := wf
  refine ⟨wfs, wfa, Nat.eq_of_testBit_eq fun k => ?_⟩
  rw [← sub, Nat.testBit_or, Nat.testBit_and]
  cases v.s.testBit k <;> cases v.a.testBit k <;> rfl

/-- Encoding the coefficients of a well-formed value gives it back (R123). -/
theorem encodeTrits_trits {n : Nat} {v : TernaryPoly} (wf : v.wf n = true) : encodeTrits (trits n v) = v := by
  obtain ⟨wfs, wfa, cover⟩ := planes_of_wf wf
  calc encodeTrits (trits n v) = ⟨bitsOf n v.s.testBit, bitsOf n (v.s ||| v.a).testBit⟩ := by
        simp only [encodeTrits, trits, bitsOf, List.map_map, Function.comp_def, tritAt_beq_two, tritAt_bne_zero]
    _ = v := by rw [cover, bitsOf_testBit wfs, bitsOf_testBit wfa]

/-- The coefficients of an encoded list of N residues are the list (R123). -/
theorem trits_encodeTrits {n : Nat} {e : List Nat} (len : e.length = n) (h : ∀ v ∈ e, v < 3) :
    trits n (encodeTrits e) = e := by
  refine List.ext_getElem (by simp [len]) fun k hk hk' => ?_
  simp [trits, tritAt_encodeTrits e h, List.getD_eq_getElem?_getD, hk']

/-- A well-formed value is canonical exactly when its last coefficient is 0 (R17, R122). -/
theorem canonical_iff (n : Nat) (v : TernaryPoly) :
    v.canonical n = true ↔ v.wf n = true ∧ tritAt v (n - 1) = 0 := by
  rw [TernaryPoly.canonical, Bool.and_eq_true, Bool.not_eq_true']
  refine and_congr_right fun wf => ?_
  obtain ⟨-, -, cover⟩ := planes_of_wf wf
  rw [← cover, ← tritAt_bne_zero, bne_eq_false_iff_eq]

@[simp] theorem tritAt_ternaryOne_zero : tritAt ternaryOne 0 = 1 := rfl

/-- Every coefficient of ONE but the first is 0 (R123). -/
@[simp] theorem tritAt_ternaryOne_of_ne {k : Nat} (hk : k ≠ 0) : tritAt ternaryOne k = 0 := by
  simp [tritAt, ternaryOne, Nat.testBit_one_eq_true_iff_self_eq_zero, hk]

/-- The coefficients of ONE (R123). -/
theorem trits_ternaryOne {n : Nat} (hn : 0 < n) : trits n ternaryOne = 1 :: List.replicate (n - 1) 0 := by
  obtain ⟨n, rfl⟩ := Nat.exists_eq_succ_of_ne_zero hn.ne'
  rw [trits, List.range_succ_eq_map, List.map_cons, List.map_map]
  refine congrArg₂ List.cons rfl (List.eq_replicate_iff.mpr ⟨by simp, fun c hc => ?_⟩)
  obtain ⟨k, -, rfl⟩ := List.mem_map.mp hc
  exact tritAt_ternaryOne_of_ne k.succ_ne_zero

theorem wf_ternaryOne {n : Nat} (hn : 0 < n) : ternaryOne.wf n = true := by
  simp [TernaryPoly.wf, BitPoly.wf, ternaryOne, Nat.one_lt_two_pow hn.ne']

/-! ## The product, coefficient by coefficient (R121, R122, R126) -/

/-- The cyclic sum of two ternary values (R121). -/
theorem convCoeff_trits {n : Nat} (v w : TernaryPoly) (k : Nat) :
    convCoeff n (trits n v) (trits n w) k
      = ∑ i ∈ Finset.range n, tritAt v i * tritAt w ((k + n - i) % n) := by
  rw [convCoeff, sum_map_range]
  refine Finset.sum_congr rfl fun i hi => ?_
  have hi : i < n := Finset.mem_range.mp hi
  rw [getD_trits n v i hi, getD_trits n w _ (Nat.mod_lt _ (by omega))]

/-- Coefficient k of a product is the cyclic sum at k less the one at N - 1, modulo 3 (R121, R122). -/
theorem tritAt_ternaryMul_eq_sub {n k : Nat} (v w : TernaryPoly) (hk : k < n) :
    (tritAt (ternaryMul n v w) k : Int)
      = ((convCoeff n (trits n v) (trits n w) k : Int) - convCoeff n (trits n v) (trits n w) (n - 1)) % 3 := by
  rw [tritAt_ternaryMul, getD_reduceTrits _ _ _ (by rwa [length_conv3]), getD_conv3 _ _ _ _ hk,
    getD_conv3 _ _ _ _ (by omega)]
  omega

/-- The last coefficient of a product is 0 (R122). -/
theorem canonical_ternaryMul {n : Nat} (hn : 0 < n) (v w : TernaryPoly) : (ternaryMul n v w).canonical n = true := by
  have last := tritAt_ternaryMul_eq_sub v w (Nat.sub_lt hn Nat.one_pos)
  rw [sub_self, Int.zero_emod] at last
  exact (canonical_iff n _).mpr ⟨wf_ternaryMul n v w, by omega⟩

/-- A product is ONE exactly when its reduced coefficients are 1, 0, ..., 0, as rule R130 says. -/
theorem ternaryMul_eq_one_iff {n : Nat} (hn : 0 < n) (v w : TernaryPoly) :
    ternaryMul n v w = ternaryOne ↔ reduceTrits n (conv3 n v w) = 1 :: List.replicate (n - 1) 0 := by
  rw [ternaryMul, ← trits_ternaryOne hn]
  constructor
  · intro h
    rw [← h, trits_encodeTrits (by simp) (reduceTrits_lt n _)]
  · intro h
    rw [h, encodeTrits_trits (wf_ternaryOne hn)]

theorem isTernaryInverse_iff {n : Nat} (hn : 0 < n) (w v : TernaryPoly) :
    IsTernaryInverse n w v ↔ v.canonical n = true ∧ ternaryMul n w v = ternaryOne := by
  rw [IsTernaryInverse, ternaryMul_eq_one_iff hn]

/-! ## The ring GF(3)[x]/(PHI) -/

section Quotient

open Polynomial

/-- PHI = 1 + x + ... + x^(N-1) over GF(3) (R15, R122). -/
noncomputable def phi (n : Nat) : (ZMod 3)[X] := ∑ i ∈ Finset.range n, X ^ i

/-- The polynomial with coefficients `c 0`, ..., `c (N-1)` over GF(3). -/
noncomputable def residuePoly (n : Nat) (c : Nat → ZMod 3) : (ZMod 3)[X] := ∑ i ∈ Finset.range n, C (c i) * X ^ i

/-- The element of GF(3)[x]/(PHI) with coefficients `c 0`, ..., `c (N-1)`. -/
noncomputable def ringElement (n : Nat) (c : Nat → ZMod 3) : AdjoinRoot (phi n) := AdjoinRoot.mk (phi n) (residuePoly n c)

/-- The element of GF(3)[x]/(PHI) that a ternary value stands for (R122); `ringOf_ternaryMul` and
`eq_of_ringOf_eq` tie it to the model. -/
noncomputable def ringOf (n : Nat) (v : TernaryPoly) : AdjoinRoot (phi n) := ringElement n fun k => (tritAt v k : ZMod 3)

theorem coeff_residuePoly (n : Nat) (c : Nat → ZMod 3) (k : Nat) :
    (residuePoly n c).coeff k = if k < n then c k else 0 := by
  simp [residuePoly, coeff_X_pow]

theorem ringElement_eq_sum (n : Nat) (c : Nat → ZMod 3) :
    ringElement n c = ∑ i ∈ Finset.range n, AdjoinRoot.of (phi n) (c i) * AdjoinRoot.root (phi n) ^ i := by
  simp [ringElement, residuePoly]

theorem ringElement_congr {n : Nat} {c e : Nat → ZMod 3} (h : ∀ k < n, c k = e k) :
    ringElement n c = ringElement n e := by
  rw [ringElement_eq_sum, ringElement_eq_sum]
  exact Finset.sum_congr rfl fun k hk => by rw [h k (Finset.mem_range.mp hk)]

theorem sum_root_pow (n : Nat) : ∑ i ∈ Finset.range n, AdjoinRoot.root (phi n) ^ i = 0 := by
  calc ∑ i ∈ Finset.range n, AdjoinRoot.root (phi n) ^ i
      = AdjoinRoot.mk (phi n) (∑ i ∈ Finset.range n, X ^ i) := by simp
    _ = 0 := AdjoinRoot.mk_self

/-- x^N = 1 modulo PHI, because PHI divides x^N - 1 (R122). -/
theorem root_pow_n (n : Nat) : AdjoinRoot.root (phi n) ^ n = 1 := by
  rw [← sub_eq_zero, ← geom_sum_mul, sum_root_pow, zero_mul]

theorem root_pow_mod (n m : Nat) : AdjoinRoot.root (phi n) ^ (m % n) = AdjoinRoot.root (phi n) ^ m :=
  (pow_eq_pow_mod m (root_pow_n n)).symm

/-- Adding a multiple of PHI changes no element of the ring (R122). -/
theorem ringElement_add_const (n : Nat) (c : Nat → ZMod 3) (m : ZMod 3) :
    ringElement n (fun k => c k + m) = ringElement n c := by
  simp only [ringElement_eq_sum, map_add, add_mul, Finset.sum_add_distrib, ← Finset.mul_sum, sum_root_pow,
    mul_zero, add_zero]

/-- Two elements whose last coefficient is 0 are equal only if their coefficients are: the degree of PHI is N - 1 (R122). -/
theorem eq_of_ringElement_eq {n : Nat} (hn : 0 < n) {c e : Nat → ZMod 3} (hc : c (n - 1) = 0) (he : e (n - 1) = 0)
    (h : ringElement n c = ringElement n e) : ∀ k < n, c k = e k := by
  have monic : (phi n).Monic := monic_geom_sum_X hn.ne'
  have degree_phi : ((n - 1 : Nat) : WithBot Nat) ≤ (phi n).degree :=
    le_degree_of_ne_zero (by simp [phi, coeff_X_pow, hn])
  have reduced {f : Nat → ZMod 3} (hf : f (n - 1) = 0) : residuePoly n f %ₘ phi n = residuePoly n f := by
    refine (modByMonic_eq_self_iff monic).mpr (lt_of_lt_of_le ?_ degree_phi)
    refine (degree_lt_iff_coeff_zero _ _).mpr fun k hk => ?_
    rw [coeff_residuePoly]
    split
    · rwa [show k = n - 1 by omega]
    · rfl
  have poly : residuePoly n c = residuePoly n e := by
    rw [← reduced hc, ← reduced he, ← AdjoinRoot.modByMonicHom_mk monic, ← AdjoinRoot.modByMonicHom_mk monic]
    exact congrArg _ h
  intro k hk
  simpa [coeff_residuePoly, hk] using congrArg (coeff · k) poly

/-- Moving every coefficient by i places, cyclically, multiplies by x^i. -/
theorem ringElement_rotated (n i : Nat) (hi : i < n) (c : Nat → ZMod 3) :
    ringElement n (fun k => c ((k + n - i) % n)) = AdjoinRoot.root (phi n) ^ i * ringElement n c := by
  have pos : 0 < n := by omega
  rw [ringElement_eq_sum, ringElement_eq_sum, Finset.mul_sum]
  refine Finset.sum_nbij' (fun k => (k + n - i) % n) (fun j => (i + j) % n) ?_ ?_ ?_ ?_ ?_
  · exact fun k _ => Finset.mem_range.mpr (Nat.mod_lt _ pos)
  · exact fun j _ => Finset.mem_range.mpr (Nat.mod_lt _ pos)
  · intro k hk
    rw [Nat.add_mod_mod, show i + (k + n - i) = k + n by omega, Nat.add_mod_right,
      Nat.mod_eq_of_lt (Finset.mem_range.mp hk)]
  · intro j hj
    have hj := Finset.mem_range.mp hj
    rw [Nat.add_sub_assoc hi.le, Nat.mod_add_mod, show i + j + (n - i) = j + n by omega, Nat.add_mod_right,
      Nat.mod_eq_of_lt hj]
  · intro k _
    have power : AdjoinRoot.root (phi n) ^ i * AdjoinRoot.root (phi n) ^ ((k + n - i) % n)
        = AdjoinRoot.root (phi n) ^ k := by
      rw [root_pow_mod, ← pow_add, show i + (k + n - i) = k + n by omega, pow_add, root_pow_n, mul_one]
    rw [← power]
    ring

/-- The cyclic sum of two lists of coefficients is the product in the ring (R121). -/
theorem ringElement_cyclic_sum (n : Nat) (c e : Nat → ZMod 3) :
    ringElement n (fun k => ∑ i ∈ Finset.range n, c i * e ((k + n - i) % n)) = ringElement n c * ringElement n e := by
  calc ringElement n (fun k => ∑ i ∈ Finset.range n, c i * e ((k + n - i) % n))
      = ∑ i ∈ Finset.range n, AdjoinRoot.of (phi n) (c i) * ringElement n (fun k => e ((k + n - i) % n)) := by
        simp only [ringElement_eq_sum, map_sum, map_mul, Finset.sum_mul, Finset.mul_sum, mul_assoc]
        exact Finset.sum_comm
    _ = ∑ i ∈ Finset.range n, AdjoinRoot.of (phi n) (c i) * AdjoinRoot.root (phi n) ^ i * ringElement n e :=
        Finset.sum_congr rfl fun i hi => by rw [ringElement_rotated n i (Finset.mem_range.mp hi), mul_assoc]
    _ = ringElement n c * ringElement n e := by rw [← Finset.sum_mul, ← ringElement_eq_sum]

/-- Values whose coefficients differ by a multiple of PHI stand for the same element (R122, R127). -/
theorem ringOf_eq_of_tritAt_add {n m : Nat} {v w : TernaryPoly} (h : ∀ k < n, tritAt v k = (tritAt w k + m) % 3) :
    ringOf n v = ringOf n w := by
  have residue : ∀ k < n, (tritAt v k : ZMod 3) = tritAt w k + m := fun k hk => by
    rw [h k hk, ZMod.natCast_mod _ 3, Nat.cast_add]
  rw [ringOf, ringElement_congr residue, ringElement_add_const, ringOf]

/-- A coefficient of a product in GF(3). -/
theorem residue_ternaryMul {n k : Nat} (v w : TernaryPoly) (hk : k < n) :
    (tritAt (ternaryMul n v w) k : ZMod 3)
      = (∑ i ∈ Finset.range n, (tritAt v i : ZMod 3) * tritAt w ((k + n - i) % n))
        + -(convCoeff n (trits n v) (trits n w) (n - 1) : ZMod 3) := by
  have cast : ((tritAt (ternaryMul n v w) k : Int) : ZMod 3)
      = ((convCoeff n (trits n v) (trits n w) k - convCoeff n (trits n v) (trits n w) (n - 1) : Int) : ZMod 3) := by
    rw [tritAt_ternaryMul_eq_sub v w hk]
    exact ZMod.intCast_mod _ 3
  rw [convCoeff_trits v w k] at cast
  push_cast at cast
  rw [cast, sub_eq_add_neg]

/-- TMUL multiplies in the ring (R122, R126). -/
theorem ringOf_ternaryMul (n : Nat) (v w : TernaryPoly) :
    ringOf n (ternaryMul n v w) = ringOf n v * ringOf n w := by
  rw [ringOf, ringElement_congr fun k => residue_ternaryMul v w, ringElement_add_const]
  exact ringElement_cyclic_sum n (fun k => tritAt v k) fun k => tritAt w k

/-- Two canonical values that stand for the same element are equal (R122). -/
theorem eq_of_ringOf_eq {n : Nat} (hn : 0 < n) {v w : TernaryPoly} (hv : v.canonical n = true) (hw : w.canonical n = true)
    (h : ringOf n v = ringOf n w) : v = w := by
  obtain ⟨wfv, lastv⟩ := (canonical_iff n v).mp hv
  obtain ⟨wfw, lastw⟩ := (canonical_iff n w).mp hw
  have residues := eq_of_ringElement_eq hn (by rw [lastv, Nat.cast_zero]) (by rw [lastw, Nat.cast_zero]) h
  rw [← encodeTrits_trits wfv, ← encodeTrits_trits wfw]
  refine congrArg encodeTrits (List.map_congr_left fun k hk => ?_)
  have mod := (ZMod.natCast_eq_natCast_iff' _ _ 3).mp (residues k (List.mem_range.mp hk))
  rwa [Nat.mod_eq_of_lt (tritAt_lt v k), Nat.mod_eq_of_lt (tritAt_lt w k)] at mod

/-- A product is determined by the elements its factors stand for (R127). -/
theorem ternaryMul_eq_of_ringOf_mul_eq {n : Nat} (hn : 0 < n) {v w v' w' : TernaryPoly}
    (h : ringOf n v * ringOf n w = ringOf n v' * ringOf n w') : ternaryMul n v w = ternaryMul n v' w' :=
  eq_of_ringOf_eq hn (canonical_ternaryMul hn v w) (canonical_ternaryMul hn v' w')
    (by rw [ringOf_ternaryMul, ringOf_ternaryMul, h])

/-- ONE is the 1 of the ring (R123). -/
theorem ringOf_ternaryOne {n : Nat} (hn : 0 < n) : ringOf n ternaryOne = 1 := by
  have later : ∀ i ∈ Finset.range n, i ≠ 0 →
      AdjoinRoot.of (phi n) (tritAt ternaryOne i : ZMod 3) * AdjoinRoot.root (phi n) ^ i = 0 := fun i _ hi => by
    simp [hi]
  rw [ringOf, ringElement_eq_sum, Finset.sum_eq_single_of_mem 0 (Finset.mem_range.mpr hn) later]
  simp

/-- For N > 1, where ONE is canonical, a product is ONE exactly when the factors are inverse to each other in the ring. -/
theorem ternaryMul_eq_one_iff_ringOf {n : Nat} (hn : 1 < n) (v w : TernaryPoly) :
    ternaryMul n v w = ternaryOne ↔ ringOf n v * ringOf n w = 1 := by
  have one : ternaryOne.canonical n = true :=
    (canonical_iff n _).mpr ⟨wf_ternaryOne (by omega), tritAt_ternaryOne_of_ne (by omega)⟩
  rw [← ringOf_ternaryMul, ← ringOf_ternaryOne (show 0 < n by omega)]
  exact ⟨congrArg _, eq_of_ringOf_eq (by omega) (canonical_ternaryMul (by omega) v w) one⟩

/-! ## The Frobenius map and the power 3^(N-1) - 2 (R133) -/

/-- Raising to the power 3^e moves the coefficient of x^i to x^(i * 3^e). -/
theorem ringElement_pow (n e : Nat) (c : Nat → ZMod 3) :
    ringElement n c ^ 3 ^ e
      = ∑ i ∈ Finset.range n, AdjoinRoot.of (phi n) (c i) * AdjoinRoot.root (phi n) ^ (i * 3 ^ e) := by
  have poly : residuePoly n c ^ 3 ^ e = ∑ i ∈ Finset.range n, C (c i) * X ^ (i * 3 ^ e) := by
    rw [residuePoly, sum_pow_char_pow]
    exact Finset.sum_congr rfl fun i _ => by rw [mul_pow, ← C_pow, ZMod.pow_card_pow, ← pow_mul]
  rw [ringElement, ← map_pow, poly]
  simp

/-- Moving to position j the coefficient at j * r, modulo N, where r and q are inverse to each other modulo N. -/
theorem ringElement_permuted {n q r : Nat} (hn : 0 < n) (h : q * r % n = 1 % n) (c : Nat → ZMod 3) :
    ringElement n (fun j => c (j * r % n))
      = ∑ i ∈ Finset.range n, AdjoinRoot.of (phi n) (c i) * AdjoinRoot.root (phi n) ^ (i * q) := by
  have undo {a b : Nat} (hab : a * b % n = 1 % n) {i : Nat} (hi : i ∈ Finset.range n) : i * a % n * b % n = i := by
    rw [Nat.mod_mul_mod, Nat.mul_assoc, Nat.mul_mod, hab, ← Nat.mul_mod, Nat.mul_one,
      Nat.mod_eq_of_lt (Finset.mem_range.mp hi)]
  have h' : r * q % n = 1 % n := by rwa [Nat.mul_comm]
  rw [ringElement_eq_sum]
  refine Finset.sum_nbij' (fun j => j * r % n) (fun i => i * q % n) ?_ ?_ ?_ ?_ ?_
  · exact fun j _ => Finset.mem_range.mpr (Nat.mod_lt _ hn)
  · exact fun i _ => Finset.mem_range.mpr (Nat.mod_lt _ hn)
  · exact fun j hj => undo h' hj
  · exact fun i hi => undo h hi
  · intro j hj
    rw [← root_pow_mod n (j * r % n * q), undo h' hj]

/-- The Frobenius map of the model permutes the coefficients. -/
theorem tritAt_ternaryFrobenius {n k : Nat} (e : Nat) (v : TernaryPoly) (hk : k < n) :
    tritAt (ternaryFrobenius n e v) k = tritAt v (k * 3 ^ (n - 1 - e) % n) := by
  simp [tritAt, ternaryFrobenius, testBit_bitsOf, hk]

/-- 1 + 3 + ... + 3^(2h-1) is (1 + 3 + ... + 3^(h-1)) * (1 + 3^h). -/
theorem geom_sum_double (h : Nat) :
    ∑ i ∈ Finset.range (h + h), 3 ^ i = ∑ i ∈ Finset.range h, 3 ^ i + (∑ i ∈ Finset.range h, 3 ^ i) * 3 ^ h := by
  rw [Finset.sum_range_add, Finset.sum_mul]
  simp only [pow_add, mul_comm]

section Prime

variable {n : Nat} (prime : n.Prime) (ge : 5 ≤ n)
include prime ge

/-- 3^(N-1) = 1 modulo N. -/
theorem three_pow_mod : 3 ^ (n - 1) % n = 1 % n := by
  have coprime : Nat.Coprime 3 n := (Nat.coprime_primes Nat.prime_three prime).mpr (by omega)
  have euler : 3 ^ n.totient ≡ 1 [MOD n] := Nat.ModEq.pow_totient coprime
  rwa [Nat.totient_prime prime] at euler

/-- The Frobenius map of the model raises to the power 3^e (R133). -/
theorem ringOf_ternaryFrobenius {e : Nat} (he : e ≤ n - 1) (v : TernaryPoly) :
    ringOf n (ternaryFrobenius n e v) = ringOf n v ^ 3 ^ e := by
  have inverse : 3 ^ e * 3 ^ (n - 1 - e) % n = 1 % n := by
    rw [← pow_add, Nat.add_sub_cancel' he, three_pow_mod prime ge]
  calc ringOf n (ternaryFrobenius n e v)
      = ringElement n (fun j => (tritAt v (j * 3 ^ (n - 1 - e) % n) : ZMod 3)) :=
        ringElement_congr fun k hk => by rw [tritAt_ternaryFrobenius e v hk]
    _ = ringOf n v ^ 3 ^ e := by
        rw [ringOf, ringElement_pow, ringElement_permuted prime.pos inverse fun k => (tritAt v k : ZMod 3)]

/-- Every element of the ring is its own power 3^(N-1) (R133). -/
theorem ringOf_pow_period (v : TernaryPoly) : ringOf n v ^ 3 ^ (n - 1) = ringOf n v := by
  rw [← ringOf_ternaryFrobenius prime ge le_rfl]
  refine ringElement_congr fun k hk => ?_
  rw [tritAt_ternaryFrobenius _ v hk, Nat.sub_self, pow_zero, Nat.mul_one, Nat.mod_eq_of_lt hk]

/-- `repunitPower` is the power 1 + 3 + ... + 3^(m-1) (R133). -/
theorem ringOf_repunitPower (v : TernaryPoly) {fuel m : Nat} (hfuel : m < 2 ^ fuel) (hm : m ≤ n - 1) :
    ringOf n (repunitPower n v fuel m) = ringOf n v ^ ∑ i ∈ Finset.range m, 3 ^ i := by
  induction fuel generalizing m with
  | zero =>
    obtain rfl : m = 0 := by simpa using hfuel
    simp [repunitPower, ringOf_ternaryOne prime.pos]
  | succ fuel ih =>
    rw [repunitPower]
    split
    case isTrue zero => simp [zero, ringOf_ternaryOne prime.pos]
    case isFalse =>
      have double : ringOf n (ternaryMul n (repunitPower n v fuel (m / 2))
            (ternaryFrobenius n (m / 2) (repunitPower n v fuel (m / 2))))
          = ringOf n v ^ ∑ i ∈ Finset.range (m / 2 + m / 2), 3 ^ i := by
        rw [ringOf_ternaryMul, ringOf_ternaryFrobenius prime ge (by omega), ih (by omega) (by omega), ← pow_mul,
          ← pow_add, geom_sum_double]
      simp only
      split
      case isTrue odd =>
        rw [ringOf_ternaryMul, ringOf_ternaryFrobenius prime ge (by omega), double, ← pow_mul, ← pow_succ', pow_one,
          mul_comm _ 3, ← geom_sum_succ, show m / 2 + m / 2 + 1 = m by omega]
      case isFalse even =>
        rw [double, show m / 2 + m / 2 = m by omega]

/-- The candidate of TINV is the power 3^(N-1) - 2, so it inverts every invertible value (R130, R133). -/
theorem ringOf_mul_inverseCandidate {v : TernaryPoly} (unit : IsUnit (ringOf n v)) :
    ringOf n v * ringOf n (inverseCandidate n v) = 1 := by
  have repunit := ringOf_repunitPower prime ge v (fuel := Nat.log2 n + 1) (m := n - 2)
    (lt_of_le_of_lt (Nat.sub_le n 2) Nat.lt_log2_self) (by omega)
  have exponent : (∑ i ∈ Finset.range (n - 2), 3 ^ i) * 6 + 3 = 3 ^ (n - 1) := by
    have geom : (∑ i ∈ Finset.range (n - 2), 3 ^ i) * 2 + 1 = 3 ^ (n - 2) := geom_sum_mul_add 2 (n - 2)
    rw [show n - 1 = n - 2 + 1 by omega, pow_succ]
    omega
  refine unit.mul_left_cancel ?_
  calc ringOf n v * (ringOf n v * ringOf n (inverseCandidate n v))
      = ringOf n v ^ 3 ^ (n - 1) := by
        rw [inverseCandidate, ringOf_ternaryMul, ringOf_ternaryFrobenius prime ge (by omega), ringOf_ternaryMul, repunit,
          ← exponent]
        ring
    _ = ringOf n v * 1 := by rw [ringOf_pow_period prime ge, mul_one]

end Prime

/-! ## The inverse (R130) -/

section Inverse

variable {p : Params} (wf : p.WF)
include wf

/-- TINV writes the inverse of R130 where there is one. -/
theorem ternaryInverse_of_isTernaryInverse {v w : TernaryPoly} (h : IsTernaryInverse p.n v w) :
    ternaryInverse p v = w := by
  have ge : 5 ≤ p.n := wf.five_le_n
  obtain ⟨canonical, product⟩ := (isTernaryInverse_iff (by omega) v w).mp h
  have inverse : ringOf p.n v * ringOf p.n w = 1 := (ternaryMul_eq_one_iff_ringOf (by omega) v w).mp product
  have candidate : ringOf p.n v * ringOf p.n (inverseCandidate p.n v) = 1 :=
    ringOf_mul_inverseCandidate wf.prime ge (IsUnit.of_mul_eq_one _ inverse)
  rw [ternaryInverse, if_pos ((ternaryMul_eq_one_iff_ringOf (by omega) v _).mpr candidate)]
  refine eq_of_ringOf_eq (by omega) (canonical_ternaryMul (by omega) _ _) canonical ?_
  exact (IsUnit.of_mul_eq_one _ inverse).mul_left_cancel (candidate.trans inverse.symm)

/-- TINV writes INV_NONINV where there is no inverse (R131): the candidate it accepts is an inverse. -/
theorem ternaryInverse_of_not_exists {v : TernaryPoly} (h : ¬ ∃ w, IsTernaryInverse p.n v w) :
    ternaryInverse p v = nonInvertibleResult p v := by
  have pos : 0 < p.n := wf.prime.pos
  rw [ternaryInverse, if_neg]
  exact fun accepted => h ⟨_, (isTernaryInverse_iff pos v _).mpr ⟨canonical_ternaryMul pos _ _, accepted⟩⟩

end Inverse

end Quotient

/-! ## The obligations -/

/-- Settles O22: TST is one checked access that stores the bytes of the two planes. -/
theorem tstStoresThePlanes : Obligations.TstStoresThePlanes := by
  intro s s1 s2 imm
  have access : accessOf (.tst s1 s2 imm) s = some ⟨effAddr s s1 imm, 8, s.params.tpBytes⟩ := rfl
  have frame := changesMem_advance_storeBytes (effAddr s s1 imm) (ternaryBytes s.params (getT s s2)) s
  rw [length_ternaryBytes] at frame
  exact ⟨isWordOf_encodeFields _,
    fun ok => ⟨_, exec_of_accessOk access ok,
      fun j hj b hb => getLsbD_read_storeBytes_ternaryBytes s _ _ hj hb, rfl, frame⟩,
    faultsOnAccess_of_checked (exec_of_accessOf access)⟩

/-- Settles O23: the coefficients of the product are the reduced cyclic sums, and the last one is 0. -/
theorem tmulIsTheReducedProduct : Obligations.TmulIsTheReducedProduct := by
  refine fun s d s1 s2 => ⟨isWordOf_encodeFields _, _, exec_tmul d s1 s2 s, fun k hk => ?_, fun hn => ?_, rfl,
    changesT_advance_setT _ _ _⟩
  · rw [getT_advance_setT_self, tritAt_ternaryMul_eq_sub _ _ hk, convCoeff_trits, convCoeff_trits]
  · rw [getT_advance_setT_self]
    exact canonical_ternaryMul hn _ _

/-- Settles O24: operands that differ by a multiple of PHI stand for the same element of the ring. -/
theorem unreducedInputsSameProduct : Obligations.UnreducedInputsSameProduct := by
  intro s d r s1 s2 m hn h
  have product : ternaryMul s.params.n (getT s r) (getT s s2) = ternaryMul s.params.n (getT s s1) (getT s s2) :=
    ternaryMul_eq_of_ringOf_mul_eq hn (by rw [ringOf_eq_of_tritAt_add h])
  rw [exec_tmul, exec_tmul, product]

/-- Settles O25: the power 3^(N-1) - 2 inverts every invertible value, and an accepted candidate is an inverse. -/
theorem tinvIsTheInverse : Obligations.TinvIsTheInverse := by
  refine fun s d s1 wf => ⟨isWordOf_encodeFields _, _, exec_tinv d s1 s, fun v h => ?_, fun h => ?_, rfl,
    changesT_advance_setT _ _ _⟩
  · rw [getT_advance_setT_self, ternaryInverse_of_isTernaryInverse wf h]
  · rw [getT_advance_setT_self, ternaryInverse_of_not_exists wf h]

/-- Settles O27: TINV gives the inverse of R130, and multiplication in the ring commutes. -/
theorem inverseLaw : Obligations.InverseLaw := by
  intro s d e s1 w wf hd h
  have pos : 0 < s.params.n := wf.prime.pos
  refine ⟨_, _, exec_tinv d s1 s, exec_tmul e d s1 _, ?_⟩
  rw [getT_advance_setT_self, getT_advance_setT_self, ternaryInverse_of_isTernaryInverse wf h, advance_params, setT_params,
    getT_advance, getT_setT, if_neg hd.symm, ternaryMul_eq_of_ringOf_mul_eq pos (mul_comm _ _)]
  exact ((isTernaryInverse_iff pos _ w).mp h).2

end Sys2Proof.Machine
end

section
/-!
PROOFS of the family 42_truncring: what the TruncRing instructions do, a TruncRing value as the element of the group ring of
the integers modulo N over the integers modulo Q that it stands for, and the obligations O28, O29, O30, O33, O31 and O32.
-/

namespace Sys2Proof.Machine

/-! ## The frame and the meaning of the TruncRing instructions -/

theorem changesZ_advance_setZ (d : ZReg) (v : TruncPoly) (s : State) : ChangesZ d s (advance (setZ d v s)) :=
  ⟨rfl, fun r hr => by rw [getZ_advance, getZ_setZ, if_neg hr]⟩

/-- The register an instruction has just written. -/
theorem getZ_advance_setZ_self (d : ZReg) (v : TruncPoly) (s : State) : getZ (advance (setZ d v s)) d = v := by
  rw [getZ_advance, getZ_setZ, if_pos rfl]

theorem exec_rmul (d s1 s2 : ZReg) (s : State) :
    exec (.rmul d s1 s2) s
      = .next (advance (setZ d (truncMul s.params.n s.params.q (getZ s s1) (getZ s s2)) s)) := rfl

theorem exec_rscale (d s1 : ZReg) (imm : BitVec 16) (s : State) :
    exec (.rscale d s1 imm) s
      = .next (advance (setZ d (truncScale s.params.q (uimm imm).toNat (getZ s s1)) s)) := rfl

theorem exec_rneg (d s1 : ZReg) (s : State) :
    exec (.rneg d s1) s = .next (advance (setZ d (truncNeg s.params.q (getZ s s1)) s)) := rfl

theorem exec_rfromt (d : ZReg) (s1 : TReg) (s : State) :
    exec (.rfromt d s1) s
      = .next (advance (setZ d (truncOfTernary s.params.n s.params.q (getT s s1)) s)) := rfl

/-! ## What is loaded and stored -/

@[simp] theorem length_loadTrunc (s : State) (ea : Word) : (loadTrunc s ea).length = s.params.n := by
  rw [loadTrunc, List.length_map]
  exact (halfwords_spec s.params.n _ (length_readBytes _ _ _)).1

/-- A function that keeps 0 acts on the coefficients of a list one by one, the absent ones among them. -/
theorem getD_map_of_zero {f : Nat → Nat} (h : f 0 = 0) (l : List Nat) (k : Nat) :
    (l.map f).getD k 0 = f (l.getD k 0) := by
  conv_lhs => rw [← h]
  exact List.getD_map l 0 f

/-- Coefficient k of the TruncRing value at an address (R66, R150). -/
theorem getD_loadTrunc (s : State) (ea : Word) {k : Nat} (hk : k < s.params.n) :
    (loadTrunc s ea).getD k 0
      = ((s.mem.read (ea.toNat + 2 * k)).toNat + 256 * (s.mem.read (ea.toNat + 2 * k + 1)).toNat) % s.params.q := by
  have size : s.params.rpBytes = 2 * s.params.n := rfl
  obtain ⟨-, halfword⟩ := halfwords_spec s.params.n (loadBytes s ea s.params.rpBytes) (length_readBytes _ _ _)
  rw [loadTrunc, getD_map_of_zero (f := (· % s.params.q)) (Nat.zero_mod _), halfword k hk, loadBytes,
    readBytes_getD _ _ _ _ (by omega), readBytes_getD _ _ _ _ (by omega), ← Nat.add_assoc]

/-- Each value of a list takes two bytes of its buffer, in order. -/
theorem getD_flatMap_toBytes_two (l : List Nat) (k j : Nat) (hj : j < 2) :
    (l.flatMap (toBytes 2)).getD (2 * k + j) 0 = (toBytes 2 (l.getD k 0)).getD j 0 := by
  induction l generalizing k with
  | nil => rw [getD_toBytes 2 _ j hj]; simp
  | cons c l ih =>
    cases k with
    | zero => rw [List.flatMap_cons, List.getD_append _ _ _ _ (by simpa using hj)]; simp
    | succ k =>
      rw [List.flatMap_cons, List.getD_append_right _ _ _ _ (by rw [length_toBytes]; omega), length_toBytes,
        show 2 * (k + 1) + j - 2 = 2 * k + j by omega, ih, List.getD_cons_succ]

/-- Byte j of the halfword of coefficient k of a stored TruncRing value (R66, R151). -/
theorem getD_truncBytes (p : Params) (c : TruncPoly) {k j : Nat} (hk : k < p.n) (hj : j < 2) :
    (truncBytes p c).getD (2 * k + j) 0 = BitVec.ofNat 8 (c.getD k 0 / 256 ^ j) := by
  have buffer : truncBytes p c = ((List.range p.n).map fun i => c.getD i 0).flatMap (toBytes 2) := by
    rw [truncBytes, List.flatMap_map]
  rw [buffer, getD_flatMap_toBytes_two _ _ _ hj, getD_toBytes _ _ _ hj]
  simp [List.getD_eq_getElem?_getD, hk]

/-- A byte of memory after a TruncRing value was stored (R151). -/
theorem toNat_read_storeBytes_truncBytes (s : State) (ea : Word) (c : TruncPoly) {k j : Nat} (hk : k < s.params.n)
    (hj : j < 2) :
    ((storeBytes ea (truncBytes s.params c) s).mem.read (ea.toNat + (2 * k + j))).toNat
      = c.getD k 0 / 256 ^ j % 256 := by
  have inside : 2 * k + j < (truncBytes s.params c).length := by
    rw [length_truncBytes, Params.rpBytes]
    omega
  rw [storeBytes_mem, read_writeBytes_inside _ _ _ _ inside, getD_truncBytes _ _ hk hj, BitVec.toNat_ofNat]

/-! ## Coefficients of the results -/

@[simp] theorem length_truncMul (n q : Nat) (a b : TruncPoly) : (truncMul n q a b).length = n := by
  rw [truncMul, List.length_map, length_cyclicConv]

@[simp] theorem length_truncScale (q m : Nat) (a : TruncPoly) : (truncScale q m a).length = a.length :=
  List.length_map _

@[simp] theorem length_truncNeg (q : Nat) (a : TruncPoly) : (truncNeg q a).length = a.length := List.length_map _

@[simp] theorem length_truncOfTernary (n q : Nat) (v : TernaryPoly) : (truncOfTernary n q v).length = n := by
  rw [truncOfTernary, List.length_map, length_trits]

/-- A coefficient of a scaled value (R157). -/
theorem getD_truncScale (q m : Nat) (a : TruncPoly) (k : Nat) :
    (truncScale q m a).getD k 0 = a.getD k 0 * m % q := by
  rw [truncScale, getD_map_of_zero (by rw [Nat.zero_mul, Nat.zero_mod]), Nat.mul_mod_mod]

/-- A coefficient of a negated value (R158). -/
theorem getD_truncNeg (q : Nat) (a : TruncPoly) (k : Nat) : (truncNeg q a).getD k 0 = (q - a.getD k 0) % q := by
  rw [truncNeg, getD_map_of_zero (by rw [Nat.sub_zero, Nat.mod_self])]

/-- A coefficient of a lifted ternary value (R159). -/
theorem getD_truncOfTernary {n k : Nat} (q : Nat) (v : TernaryPoly) (hk : k < n) :
    (truncOfTernary n q v).getD k 0 = (if tritAt v k = 2 then q - 1 else tritAt v k) % q := by
  have zero : liftTrit q 0 = 0 := Nat.zero_mod q
  rw [truncOfTernary, getD_map_of_zero zero, getD_trits n v k hk, liftTrit]

theorem getD_truncMonomial {n k : Nat} (c j : Nat) (hk : k < n) :
    (truncMonomial n c j).getD k 0 = if k = j then c else 0 := by
  simp [truncMonomial, List.getD_eq_getElem?_getD, hk]

/-- A coefficient of a sum of two values of one length. -/
theorem getD_truncAdd (q : Nat) {a b : TruncPoly} (h : a.length = b.length) (k : Nat) :
    (truncAdd q a b).getD k 0 = (a.getD k 0 + b.getD k 0) % q := by
  by_cases hk : k < a.length <;> simp [truncAdd, List.getD_eq_getElem?_getD, hk, h ▸ hk]

/-! ## Well-formed values (R24, R152) -/

theorem q_pos (p : Params) : 0 < p.q := Nat.two_pow_pos _

theorem wf_truncMul (p : Params) (a b : TruncPoly) : TruncPoly.wf p.n p.logQ (truncMul p.n p.q a b) = true :=
  wf_map_mod _ _ _ _ (length_cyclicConv _ _ _) fun _ => Nat.mod_lt _ (q_pos p)

theorem wf_truncScale {p : Params} {a : TruncPoly} (wf : TruncPoly.wf p.n p.logQ a = true) (m : Nat) :
    TruncPoly.wf p.n p.logQ (truncScale p.q m a) = true :=
  wf_map_mod _ _ _ _ ((wf_truncPoly_iff _ _ _).mp wf).1 fun _ => Nat.mod_lt _ (q_pos p)

theorem wf_truncNeg {p : Params} {a : TruncPoly} (wf : TruncPoly.wf p.n p.logQ a = true) :
    TruncPoly.wf p.n p.logQ (truncNeg p.q a) = true :=
  wf_map_mod _ _ _ _ ((wf_truncPoly_iff _ _ _).mp wf).1 fun _ => Nat.mod_lt _ (q_pos p)

theorem wf_truncAdd {p : Params} {a b : TruncPoly} (wfa : TruncPoly.wf p.n p.logQ a = true)
    (wfb : TruncPoly.wf p.n p.logQ b = true) : TruncPoly.wf p.n p.logQ (truncAdd p.q a b) = true := by
  obtain ⟨lena, -⟩ := (wf_truncPoly_iff _ _ _).mp wfa
  obtain ⟨lenb, -⟩ := (wf_truncPoly_iff _ _ _).mp wfb
  have sums : truncAdd p.q a b = (List.zipWith (· + ·) a b).map (· % p.q) := by
    rw [truncAdd, List.map_zipWith]
  rw [sums]
  exact wf_map_mod _ _ _ _ (by simp [lena, lenb]) fun _ => Nat.mod_lt _ (q_pos p)

/-- A coefficient of a well-formed value is below Q, the absent ones among them. -/
theorem getD_lt_of_wf {p : Params} {a : TruncPoly} (wf : TruncPoly.wf p.n p.logQ a = true) (k : Nat) :
    a.getD k 0 < p.q := by
  obtain ⟨-, small⟩ := (wf_truncPoly_iff _ _ _).mp wf
  rw [List.getD_eq_getElem?_getD]
  cases h : a[k]? with
  | none => exact q_pos p
  | some v => exact small v (List.mem_of_getElem? h)

/-- Well-formed values are equal when their coefficients are equal modulo Q. -/
theorem eq_of_coefficients_eq {p : Params} {a b : TruncPoly} (wfa : TruncPoly.wf p.n p.logQ a = true)
    (wfb : TruncPoly.wf p.n p.logQ b = true) (h : ∀ k < p.n, (a.getD k 0 : ZMod p.q) = b.getD k 0) : a = b := by
  obtain ⟨lena, -⟩ := (wf_truncPoly_iff _ _ _).mp wfa
  obtain ⟨lenb, -⟩ := (wf_truncPoly_iff _ _ _).mp wfb
  refine List.ext_getElem (lena.trans lenb.symm) fun k hka hkb => ?_
  have residues := (ZMod.natCast_eq_natCast_iff' _ _ p.q).mp (h k (lena ▸ hka))
  rw [Nat.mod_eq_of_lt (getD_lt_of_wf wfa k), Nat.mod_eq_of_lt (getD_lt_of_wf wfb k)] at residues
  rwa [List.getD_eq_getElem _ _ hka, List.getD_eq_getElem _ _ hkb] at residues

/-! ## The ring (Z/Q)[x]/(x^N - 1) as the group ring of Z/N (R153, R155) -/

/-- The element of (Z/Q)[x]/(x^N - 1) that a TruncRing value stands for, where x^i is the group element i of Z/N;
`truncOf_truncMul` and `eq_of_truncOf_eq` tie it to the model. -/
noncomputable def truncOf (n q : Nat) (a : TruncPoly) : AddMonoidAlgebra (ZMod q) (Fin n) :=
  .ofCoeff (Finsupp.equivFunOnFinite.symm fun i => (a.getD i.val 0 : ZMod q))

@[simp] theorem coeff_truncOf {n q : Nat} (a : TruncPoly) (i : Fin n) :
    (truncOf n q a).coeff i = a.getD i.val 0 := rfl

/-- RMUL multiplies in the ring (R153). -/
theorem truncOf_truncMul {n q : Nat} [NeZero n] (a b : TruncPoly) :
    truncOf n q (truncMul n q a b) = truncOf n q a * truncOf n q b := by
  ext k
  have index (i : Fin n) : (k.val + n - i.val) % n = (-i + k).val := by
    rw [neg_add_eq_sub, Fin.val_sub]
    congr 1
    omega
  rw [AddMonoidAlgebra.coeff_mul_apply_left, Finsupp.sum_fintype _ _ (by simp), coeff_truncOf,
    getD_truncMul _ _ _ _ _ k.isLt, ZMod.natCast_mod, convCoeff, sum_map_range, Finset.sum_range]
  simp [index]

/-- The value c * x^j. -/
theorem truncOf_truncMonomial {n q : Nat} (c : Nat) (j : Fin n) :
    truncOf n q (truncMonomial n c j) = AddMonoidAlgebra.single j (c : ZMod q) := by
  ext k
  rw [coeff_truncOf, getD_truncMonomial _ _ k.isLt, AddMonoidAlgebra.coeff_single, Finsupp.single_apply]
  simp [Fin.ext_iff, eq_comm]

theorem truncOf_truncAdd {n q : Nat} {a b : TruncPoly} (h : a.length = b.length) :
    truncOf n q (truncAdd q a b) = truncOf n q a + truncOf n q b := by
  ext k
  rw [AddMonoidAlgebra.coeff_add, Finsupp.add_apply, coeff_truncOf, coeff_truncOf, coeff_truncOf, getD_truncAdd q h,
    ZMod.natCast_mod, Nat.cast_add]

/-- Scaling is the product by a constant (R155). -/
theorem truncOf_truncScale {n q : Nat} [NeZero n] (m : Nat) (a : TruncPoly) :
    truncOf n q (truncScale q m a) = AddMonoidAlgebra.single 0 (m : ZMod q) * truncOf n q a := by
  ext k
  rw [AddMonoidAlgebra.coeff_single_zero_mul, coeff_truncOf, getD_truncScale, ZMod.natCast_mod, Nat.cast_mul, mul_comm,
    coeff_truncOf]

/-- The element of a well-formed value determines it. -/
theorem eq_of_truncOf_eq {p : Params} [NeZero p.n] {a b : TruncPoly} (wfa : TruncPoly.wf p.n p.logQ a = true)
    (wfb : TruncPoly.wf p.n p.logQ b = true) (h : truncOf p.n p.q a = truncOf p.n p.q b) : a = b :=
  eq_of_coefficients_eq wfa wfb fun k hk => congrArg (fun f => f.coeff ⟨k, hk⟩) h

/-- The product by x^j moves coefficient i to (i + j) mod N (R155). -/
theorem getD_truncMul_truncMonomial_one {p : Params} {a : TruncPoly} (wf : TruncPoly.wf p.n p.logQ a = true) {i j : Nat}
    (hi : i < p.n) (hj : j < p.n) :
    (truncMul p.n p.q (truncMonomial p.n 1 j) a).getD ((i + j) % p.n) 0 = a.getD i 0 := by
  have : NeZero p.n := ⟨by omega⟩
  have moved : (truncOf p.n p.q (truncMul p.n p.q (truncMonomial p.n 1 j) a)).coeff (⟨i, hi⟩ + ⟨j, hj⟩)
      = (truncOf p.n p.q a).coeff ⟨i, hi⟩ := by
    rw [truncOf_truncMul, truncOf_truncMonomial 1 ⟨j, hj⟩, AddMonoidAlgebra.coeff_single_mul_apply, Nat.cast_one,
      one_mul, neg_add_eq_sub, add_sub_cancel_right]
  have residues := (ZMod.natCast_eq_natCast_iff' _ _ p.q).mp moved
  rwa [Nat.mod_eq_of_lt (getD_lt_of_wf (wf_truncMul p _ _) _), Nat.mod_eq_of_lt (getD_lt_of_wf wf _)] at residues

/-- Negation is scaling by Q - 1, which is -1 modulo Q (R155). -/
theorem truncNeg_eq_truncScale {p : Params} {a : TruncPoly} (wf : TruncPoly.wf p.n p.logQ a = true) :
    truncNeg p.q a = truncScale p.q (p.q - 1) a := by
  refine eq_of_coefficients_eq (wf_truncNeg wf) (wf_truncScale wf _) fun k _ => ?_
  have minusOne : ((p.q - 1 : Nat) : ZMod p.q) = -1 := by
    rw [Nat.cast_sub (q_pos p), ZMod.natCast_self, Nat.cast_one, zero_sub]
  rw [getD_truncNeg, getD_truncScale, ZMod.natCast_mod, ZMod.natCast_mod, Nat.cast_sub (getD_lt_of_wf wf k).le,
    ZMod.natCast_self, zero_sub, Nat.cast_mul, minusOne, mul_neg_one]

/-! ## The obligations -/

/-- Settles O28: RLD is one checked access that loads the halfwords modulo Q. -/
theorem rldLoadsTheCoefficients : Obligations.RldLoadsTheCoefficients := by
  intro s d s1 imm
  have access : accessOf (.rld d s1 imm) s = some ⟨effAddr s s1 imm, 2, s.params.rpBytes⟩ := rfl
  refine ⟨isWordOf_encodeFields _, fun ok => ⟨_, exec_of_accessOk access ok, ?_, fun k hk => ?_, rfl,
    changesZ_advance_setZ _ _ _⟩, faultsOnAccess_of_checked (exec_of_accessOf access)⟩
  · rw [accessEffect, getZ_advance_setZ_self, length_loadTrunc]
  · rw [accessEffect, getZ_advance_setZ_self, getD_loadTrunc _ _ hk, Params.q]

/-- Settles O29: RST is one checked access that stores the halfword of each coefficient. -/
theorem rstStoresTheCoefficients : Obligations.RstStoresTheCoefficients := by
  intro s s1 s2 imm
  have access : accessOf (.rst s1 s2 imm) s = some ⟨effAddr s s1 imm, 2, s.params.rpBytes⟩ := rfl
  have frame := changesMem_advance_storeBytes (effAddr s s1 imm) (truncBytes s.params (getZ s s2)) s
  rw [length_truncBytes] at frame
  refine ⟨isWordOf_encodeFields _, fun ok => ⟨_, exec_of_accessOk access ok, fun k hk => ⟨?_, ?_⟩, rfl, frame⟩,
    faultsOnAccess_of_checked (exec_of_accessOf access)⟩
  · have low := toNat_read_storeBytes_truncBytes s (effAddr s s1 imm) (getZ s s2) hk Nat.two_pos
    rwa [pow_zero, Nat.div_one] at low
  · have high := toNat_read_storeBytes_truncBytes s (effAddr s s1 imm) (getZ s s2) hk Nat.one_lt_two
    rwa [pow_one] at high

/-- Settles O30: the coefficients of the product are the cyclic sums modulo Q, and RMUL does not read ACCEL_EN. -/
theorem rmulIsTheProduct : Obligations.RmulIsTheProduct := by
  refine fun s d s1 s2 => ⟨isWordOf_encodeFields _, ⟨_, exec_rmul d s1 s2 s, ?_, fun k hk => ?_, rfl,
    changesZ_advance_setZ _ _ _⟩, _, _, exec_rmul d s1 s2 _, exec_rmul d s1 s2 _, rfl⟩
  · rw [getZ_advance_setZ_self, length_truncMul]
  · rw [getZ_advance_setZ_self, getD_truncMul _ _ _ _ _ hk, convCoeff, sum_map_range, Params.q]

/-- Settles O33: the products and sums of values are those of a commutative ring, in which a value of one coefficient is a
constant times a power of x. -/
theorem truncRingLaws : Obligations.TruncRingLaws := by
  intro p a b c m wf wfa wfb wfc
  have : NeZero p.n := ⟨wf.prime.ne_zero⟩
  have wfmul := wf_truncMul p
  obtain ⟨lenb, -⟩ := (wf_truncPoly_iff _ _ _).mp wfb
  obtain ⟨lenc, -⟩ := (wf_truncPoly_iff _ _ _).mp wfc
  have constant (e : Nat) : truncOf p.n p.q (truncMonomial p.n e 0) = AddMonoidAlgebra.single 0 (e : ZMod p.q) :=
    truncOf_truncMonomial e 0
  refine ⟨eq_of_truncOf_eq (wfmul _ _) (wfmul _ _) ?_, eq_of_truncOf_eq (wfmul _ _) (wfmul _ _) ?_,
    eq_of_truncOf_eq (wfmul _ _) wfa ?_, eq_of_truncOf_eq (wfmul _ _) (wf_truncAdd (wfmul _ _) (wfmul _ _)) ?_,
    eq_of_truncOf_eq (wf_truncScale wfa m) (wfmul _ _) ?_, truncNeg_eq_truncScale wfa,
    fun j hj i hi => getD_truncMul_truncMonomial_one wfa hi hj⟩
  · rw [truncOf_truncMul, truncOf_truncMul, mul_comm]
  · rw [truncOf_truncMul, truncOf_truncMul, truncOf_truncMul, truncOf_truncMul, mul_assoc]
  · rw [truncOf_truncMul, constant, Nat.cast_one, ← AddMonoidAlgebra.one_def, one_mul]
  · rw [truncOf_truncMul, truncOf_truncAdd (lenb.trans lenc.symm), mul_add, truncOf_truncAdd (by simp), truncOf_truncMul,
      truncOf_truncMul]
  · rw [truncOf_truncScale, truncOf_truncMul, constant, ZMod.natCast_mod]

/-- Settles O31: RSCALE and RNEG act on each coefficient. -/
theorem rscaleAndRneg : Obligations.RscaleAndRneg := by
  refine fun s d s1 imm => ⟨isWordOf_encodeFields _, isWordOf_encodeFields _,
    ⟨_, exec_rscale d s1 imm s, ?_, fun k => ?_, rfl, changesZ_advance_setZ _ _ _⟩,
    ⟨_, exec_rneg d s1 s, ?_, fun k => ?_, rfl, changesZ_advance_setZ _ _ _⟩⟩
  · rw [getZ_advance_setZ_self, length_truncScale]
  · rw [getZ_advance_setZ_self, getD_truncScale, toNat_uimm, Params.q]
  · rw [getZ_advance_setZ_self, length_truncNeg]
  · rw [getZ_advance_setZ_self, getD_truncNeg, Params.q]

/-- Settles O32: RFROMT lifts each coefficient of the ternary value as it is stored. -/
theorem rfromtLifts : Obligations.RfromtLifts := by
  refine fun s d s1 => ⟨isWordOf_encodeFields _, _, exec_rfromt d s1 s, ?_, fun k hk => ?_, rfl,
    changesZ_advance_setZ _ _ _⟩
  · rw [getZ_advance_setZ_self, length_truncOfTernary]
  · rw [getZ_advance_setZ_self, getD_truncOfTernary _ _ hk, Params.q]

end Sys2Proof.Machine
end

section
/-!
PROOFS of the family 43_sampler: every bit of a loaded plane, the raw planes that the repair sends to one value as an interval
of sets of bit positions, and the obligations O15, O20 and O21.
-/

namespace Sys2Proof.Machine

/-! ## Every bit of a loaded plane -/

theorem getB_advance_setB_self (d : BReg) (v : BitPoly) (s : State) : getB (advance (setB d v s)) d = v := by
  rw [getB_advance, getB_setB, if_pos rfl]

/-- What holds of the bits below 8 * BP_BYTES, which a plane's bytes hold, holds of every bit: N is no larger, so the cut
to N bits clears the rest (R64). -/
theorem testBit_maskBits_of_lt {p : Params} {v k : Nat} {bit : Bool}
    (h : k < 8 * p.bpBytes → Nat.testBit (maskBits p.n v) k = (decide (k < p.n) && bit)) :
    Nat.testBit (maskBits p.n v) k = (decide (k < p.n) && bit) := by
  by_cases hk : k < p.n
  · exact h (hk.trans_le (n_le_bpBytes p))
  · rw [testBit_maskBits, decide_eq_false hk, Bool.false_and, Bool.false_and]

/-- Every bit of the BitPoly at an address, the padding included (R64, R181). -/
theorem testBit_loadBitPoly_all (s : State) (ea : Word) (k : Nat) :
    Nat.testBit (loadBitPoly s ea) k
      = (decide (k < s.params.n) && (s.mem.read (ea.toNat + k / 8)).getLsbD (k % 8)) :=
  testBit_maskBits_of_lt (testBit_loadBitPoly s ea k)

/-- Every bit of the second plane of the TernaryPoly at an address, the padding included (R65, R182). -/
theorem testBit_loadSecondPlane_all (s : State) (ea : Word) (k : Nat) :
    Nat.testBit (loadSecondPlane s ea) k
      = (decide (k < s.params.n) && (s.mem.read (ea.toNat + s.params.bpBytes + k / 8)).getLsbD (k % 8)) :=
  testBit_maskBits_of_lt (testBit_loadSecondPlane s ea k)

/-! ## The repair -/

/-- The repair keeps the sign plane (R182). -/
@[simp] theorem repair_s (sign raw : BitPoly) : (repair sign raw).s = sign := rfl

/-- The repair adds the sign plane to the nonzero plane (R182). -/
@[simp] theorem repair_a (sign raw : BitPoly) : (repair sign raw).a = raw ||| sign := rfl

theorem repair_eq_iff {sign raw : BitPoly} {v : TernaryPoly} :
    repair sign raw = v ↔ sign = v.s ∧ raw ||| v.s = v.a := by
  constructor
  · rintro rfl
    exact ⟨rfl, rfl⟩
  · rintro ⟨rfl, cover⟩
    rw [repair, cover]

/-! ## The raw planes that the repair sends to one value (R183) -/

section BitPositions

open Finset (equivBitIndices)

theorem mem_equivBitIndices {p k : Nat} : k ∈ equivBitIndices p ↔ p.testBit k = true := by
  rw [Finset.equivBitIndices_apply, List.mem_toFinset, Nat.mem_bitIndices]

theorem equivBitIndices_or (p q : Nat) : equivBitIndices (p ||| q) = equivBitIndices p ∪ equivBitIndices q := by
  ext k
  rw [Finset.mem_union, mem_equivBitIndices, mem_equivBitIndices, mem_equivBitIndices, Nat.testBit_or, Bool.or_eq_true]

theorem equivBitIndices_subset {s a : Nat} (cover : s ||| a = a) : equivBitIndices s ⊆ equivBitIndices a := by
  rw [← Finset.union_eq_right, ← equivBitIndices_or, cover]

/-- A raw nonzero plane becomes `a` under the sign plane `s` when it agrees with `a` off the bits of `s` and is free on
them: its bit positions lie between those of `a` without `s` and those of `a`. -/
theorem or_eq_iff_mem_Icc {raw s a : Nat} (cover : s ||| a = a) :
    raw ||| s = a ↔ equivBitIndices raw ∈ Finset.Icc (equivBitIndices a \ equivBitIndices s) (equivBitIndices a) := by
  rw [← equivBitIndices.apply_eq_iff_eq, equivBitIndices_or, Finset.mem_Icc, sdiff_le_iff']
  constructor
  · intro h
    exact ⟨h.ge, h ▸ Finset.subset_union_left⟩
  · rintro ⟨lower, upper⟩
    exact (Finset.union_subset upper (equivBitIndices_subset cover)).antisymm lower

/-- Each of the m bits of `s` leaves the raw plane a free bit: 2^m raw planes become `a`. -/
theorem card_filter_or_eq {n s a : Nat} (cover : s ||| a = a) (ha : a < 2 ^ n) :
    ((Finset.range (2 ^ n)).filter fun raw => raw ||| s = a).card = 2 ^ (equivBitIndices s).card := by
  have inRange {raw : Nat} (h : raw ||| s = a) : raw < 2 ^ n := (h ▸ Nat.left_le_or).trans_lt ha
  calc ((Finset.range (2 ^ n)).filter fun raw => raw ||| s = a).card
      = (Finset.Icc (equivBitIndices a \ equivBitIndices s) (equivBitIndices a)).card :=
        Finset.card_equiv equivBitIndices fun raw => by
          rw [Finset.mem_filter, Finset.mem_range, and_iff_right_of_imp inRange, or_eq_iff_mem_Icc cover]
    _ = 2 ^ (equivBitIndices s).card := by
        rw [Finset.card_Icc_finset Finset.sdiff_subset,
          Finset.card_sdiff_of_subset (equivBitIndices_subset cover),
          Nat.sub_sub_self (Finset.card_le_card (equivBitIndices_subset cover))]

/-- The number of coefficients -1 of a well-formed value is the number of bits of its sign plane (R16). -/
theorem countP_tritAt_eq_two {n : Nat} {v : TernaryPoly} (wf : BitPoly.wf n v.s = true) :
    ((List.range n).countP fun k => tritAt v k == 2) = (equivBitIndices v.s).card := by
  have positions : (Finset.range n).filter (fun k => v.s.testBit k = true) = equivBitIndices v.s := by
    ext k
    have below (h : v.s.testBit k = true) : k < n :=
      lt_of_not_ge fun hk => Bool.false_ne_true ((testBit_of_wf wf hk).symm.trans h)
    rw [Finset.mem_filter, Finset.mem_range, mem_equivBitIndices, and_iff_right_of_imp below]
  calc ((List.range n).countP fun k => tritAt v k == 2)
      = Nat.count (fun k => v.s.testBit k = true) n := by simp only [tritAt_beq_two, Nat.count, Bool.decide_eq_true]
    _ = ((Finset.range n).filter fun k => v.s.testBit k = true).card := Nat.count_eq_card_filter_range _ n
    _ = (equivBitIndices v.s).card := by rw [positions]

/-- The raw pairs of one repaired value have its sign plane, and a nonzero plane that the sign plane completes. -/
theorem filter_repair_eq {n : Nat} {v : TernaryPoly} (hs : v.s < 2 ^ n) :
    ((Finset.range (2 ^ n) ×ˢ Finset.range (2 ^ n)).filter fun raw => repair raw.1 raw.2 = v)
      = {v.s} ×ˢ (Finset.range (2 ^ n)).filter fun raw => raw ||| v.s = v.a := by
  ext ⟨sign, raw⟩
  simp only [Finset.mem_filter, Finset.mem_product, Finset.mem_singleton, Finset.mem_range, repair_eq_iff]
  constructor
  · rintro ⟨⟨-, hraw⟩, rfl, cover⟩
    exact ⟨rfl, hraw, cover⟩
  · rintro ⟨rfl, hraw, cover⟩
    exact ⟨⟨hs, hraw⟩, rfl, cover⟩

end BitPositions

/-! ## The obligations -/

/-- Settles O15: SAMPB is one checked access that loads the bits of the BitPoly. -/
theorem sampbLoadsTheBits : Obligations.SampbLoadsTheBits := by
  intro s d s1 imm
  have access : accessOf (.sampb d s1 imm) s = some ⟨effAddr s s1 imm, 8, s.params.bpBytes⟩ := rfl
  refine ⟨isWordOf_encodeFields _,
    fun ok => ⟨_, exec_of_accessOk access ok, fun k => ?_, rfl, changesB_advance_setB _ _ _⟩,
    faultsOnAccess_of_checked (exec_of_accessOf access)⟩
  rw [accessEffect, getB_advance_setB_self, testBit_loadBitPoly_all]

/-- Settles O20: SAMPT is one checked access that loads the two planes, each cut to N bits, and repairs the second with the
first. -/
theorem samptRepairsTheSample : Obligations.SamptRepairsTheSample := by
  intro s d s1 imm
  have access : accessOf (.sampt d s1 imm) s = some ⟨effAddr s s1 imm, 8, s.params.tpBytes⟩ := rfl
  refine ⟨isWordOf_encodeFields _,
    fun ok => ⟨_, exec_of_accessOk access ok, fun k => ?_, fun k => ?_, rfl, changesT_advance_setT _ _ _⟩,
    faultsOnAccess_of_checked (exec_of_accessOf access)⟩
  · rw [accessEffect, getT_advance_setT_self, repair_s, testBit_loadBitPoly_all]
  · rw [accessEffect, getT_advance_setT_self, repair_a, Nat.testBit_or, testBit_loadSecondPlane_all,
      testBit_loadBitPoly_all, Bool.and_or_distrib_left]

/-- Settles O21: the sign plane is the value's own, and each of its m bits leaves one bit of the raw nonzero plane free. -/
theorem samplerBias : Obligations.SamplerBias := by
  intro n v wf
  obtain ⟨wfs, wfa, cover⟩ := planes_of_wf wf
  rw [filter_repair_eq ((wf_bitPoly_iff n v.s).mp wfs), Finset.card_product, Finset.card_singleton, Nat.one_mul,
    card_filter_or_eq cover ((wf_bitPoly_iff n v.a).mp wfa), countP_tritAt_eq_two wfs]

end Sys2Proof.Machine
end

section
/-!
PROOFS of the family 44_sequencer: the meaning and the frame of the sequencer instructions, the addition of a signed offset to
a word, the ends of a run, and the obligations O4, O7, O8, O9, O11, O12, O13 and O14.
-/

namespace Sys2Proof

/-! ## The opcode of a word -/

theorem op_encodeFields (i : Instr) : (encodeFields i).op = opcodeOf i := by
  cases i <;> rfl

/-- The opcode field of a word that decodes is the opcode of its instruction (R84). -/
theorem op_of_decodeWord {w : Word} {i : Instr} (h : decodeWord w = .ok i) : w.extractLsb' 26 6 = opcodeOf i := by
  obtain rfl := decodeWord_eq_ok_iff.mp h
  have fields : fieldsOf (encode i) = encodeFields i := fieldsOf_packFields _
  rw [← op_encodeFields, ← fields, fieldsOf]

/-- NOP alone has opcode 0 (R84). -/
theorem eq_nop_of_opcodeOf_eq_zero {i : Instr} (h : opcodeOf i = 0#6) : i = .nop := by
  cases i
  case nop => rfl
  all_goals exact absurd h (by simp [opcodeOf])

end Sys2Proof

namespace Sys2Proof.Machine

/-! ## The meaning and the frame of the instructions -/

theorem exec_nop (s : State) : exec .nop s = .next (advance s) := rfl

theorem exec_halt (s : State) : exec .halt s = .next (endByHalt s) := rfl

theorem exec_li (d : XReg) (imm : BitVec 16) (s : State) :
    exec (.li d imm) s = .next (advance (setX d (uimm imm) s)) := rfl

theorem exec_lui (d : XReg) (imm : BitVec 16) (s : State) :
    exec (.lui d imm) s = .next (advance (setX d (hiimm imm) s)) := rfl

theorem exec_addi (d s1 : XReg) (imm : BitVec 16) (s : State) :
    exec (.addi d s1 imm) s = .next (advance (setX d (getX s s1 + simm imm) s)) := rfl

theorem exec_jmp (imm : BitVec 16) (s : State) : exec (.jmp imm) s = .next (jumpBy imm s) := rfl

/-- DJNZ falls through where the counter becomes 0 (R198). -/
theorem exec_djnz_of_eq_one {d : XReg} (imm : BitVec 16) {s : State} (h : getX s d = 1) :
    exec (.djnz d imm) s = .next (advance (setX d (getX s d - 1) s)) :=
  if_neg (by simp [h])

/-- DJNZ branches where the counter does not become 0, a counter of 0 among them (R198). -/
theorem exec_djnz_of_ne_one {d : XReg} (imm : BitVec 16) {s : State} (h : getX s d ≠ 1) :
    exec (.djnz d imm) s = .next (jumpBy imm (setX d (getX s d - 1) s)) :=
  if_pos fun zero => h (sub_eq_zero.mp zero)

theorem getX_advance_setX_self (d : XReg) (v : Word) (s : State) : getX (advance (setX d v s)) d = v := by
  rw [getX_advance, getX_setX, if_pos rfl]

theorem changesX_advance_setX (d : XReg) (v : Word) (s : State) : ChangesX d s (advance (setX d v s)) :=
  ⟨rfl, fun r hr => by rw [getX_advance, getX_setX, if_neg hr]⟩

theorem changesX_jumpBy_setX (d : XReg) (v : Word) (imm : BitVec 16) (s : State) :
    ChangesX d s (jumpBy imm (setX d v s)) :=
  ⟨rfl, fun r hr => by rw [getX_jumpBy, getX_setX, if_neg hr]⟩

/-! ## Adding a signed offset to a word -/

/-- A word plus a signed number is their sum modulo 2^32. -/
theorem toNat_add_ofInt (v : Word) (z : Int) :
    ((v + BitVec.ofInt 32 z).toNat : Int) = ((v.toNat : Int) + z) % 2 ^ 32 := by
  rw [BitVec.toNat_add, BitVec.toNat_ofInt]
  omega

/-- Subtracting 1 is adding the signed number -1. -/
theorem toNat_sub_one (v : Word) : ((v - 1).toNat : Int) = ((v.toNat : Int) - 1) % 2 ^ 32 := by
  rw [BitVec.sub_eq_add_neg, show -(1 : Word) = BitVec.ofInt 32 (-1) from rfl, toNat_add_ofInt, Int.sub_eq_add_neg]

theorem simm_eq_ofInt (imm : BitVec 16) : simm imm = BitVec.ofInt 32 imm.toInt := rfl

/-- The offset of a branch is four times the signed immediate (R82). -/
theorem woff_eq_ofInt (imm : BitVec 16) : woff imm = BitVec.ofInt 32 (4 * imm.toInt) := by
  rw [BitVec.ofInt_mul, mul_comm, woff]
  rfl

/-! ## The word at an address -/

/-- The little-endian word of the four bytes at an address (R61, R196). -/
theorem toNat_ofNat_leNat_loadBytes (s : State) (ea : Word) :
    (BitVec.ofNat 32 (leNat (loadBytes s ea 4))).toNat
      = (s.mem.read ea.toNat).toNat + 256 * (s.mem.read (ea.toNat + 1)).toNat
        + 65536 * (s.mem.read (ea.toNat + 2)).toNat + 16777216 * (s.mem.read (ea.toNat + 3)).toNat := by
  have bytes : loadBytes s ea 4 = [s.mem.read ea.toNat, s.mem.read (ea.toNat + 1), s.mem.read (ea.toNat + 2),
      s.mem.read (ea.toNat + 3)] := readBytes_eq s.mem ea.toNat 4
  have fits := leNat_lt (loadBytes s ea 4)
  rw [loadBytes, length_readBytes, ← loadBytes] at fits
  rw [BitVec.toNat_ofNat, Nat.mod_eq_of_lt (by omega), bytes]
  simp only [leNat]
  omega

/-! ## The ends of a run -/

/-- A fetch at a pc whose four bytes do not lie in memory is out of range (R191, R223). -/
theorem fetch_of_gt {s : State} (h : s.pc.toNat + 4 > s.params.memBytes) : fetch s = .fault .fetchRange s.pc :=
  if_pos h

/-- A sequencer turn during a run executes the fetched instruction (R191). -/
theorem step_of_fetch_instr {s : State} {i : Instr} (busy : s.busy = true) (turn : sequencerTurn s)
    (h : fetch s = .instr i) : step s = exec i (turnTaken s) := by
  rw [step_of_sequencerTurn turn, sequencerStep, turnTaken_busy, if_pos busy, fetch_turnTaken, h]

@[simp] theorem accessEffect_busy (i : Instr) (s : State) : (accessEffect i s).busy = s.busy := by
  cases i <;> rfl

/-- No instruction but HALT ends a run without ERR: it leaves BUSY alone or takes a fault (R192, R227). -/
theorem busy_eq_or_err_of_exec {i : Instr} {s t : State} (notHalt : i ≠ .halt) (h : exec i s = .next t) :
    t.busy = s.busy ∨ t.err = true := by
  cases access : accessOf i s with
  | some a =>
    rw [exec_of_accessOf access] at h
    rcases checked_cases s (advance (accessEffect i s)) a.ea a.align a.size with ⟨eq, -⟩ | ⟨eq, -⟩ | ⟨eq, -⟩
    all_goals obtain rfl := Host.Outcome.next.inj (h.symm.trans eq)
    · exact .inl (accessEffect_busy i s)
    · exact .inr rfl
    · exact .inr rfl
  | none =>
    cases i
    case halt => exact absurd rfl notHalt
    case lw | sw | sampb | bst | sampt | tst | rld | rst => exact nomatch access
    case brotr d s1 s2 =>
      rcases Nat.lt_or_ge s.params.n (getX s s2).toNat with gt | le
      · rw [exec_brotr_of_gt d s1 gt] at h
        exact .inr (Host.Outcome.next.inj h ▸ rfl)
      · rw [exec_brotr_of_le d s1 le] at h
        exact .inl (Host.Outcome.next.inj h ▸ rfl)
    case djnz d imm =>
      by_cases one : getX s d = 1
      · rw [exec_djnz_of_eq_one imm one] at h
        exact .inl (Host.Outcome.next.inj h ▸ rfl)
      · rw [exec_djnz_of_ne_one imm one] at h
        exact .inl (Host.Outcome.next.inj h ▸ rfl)
    all_goals exact .inl (Host.Outcome.next.inj h ▸ rfl)

/-- A write of CTRL during a run ends it by ABORT, which sets ERR, or leaves a run in progress (R47, R230). -/
theorem busy_or_err_writeCtrl (v : Word) {s : State} (busy : s.busy = true) :
    (writeCtrl v s).busy = true ∨ (writeCtrl v s).err = true :=
  writeCtrl_induction (P := fun u => u.busy = true ∨ u.err = true) v (.inl busy) (fun _ _ _ => .inr rfl)
    (fun _ _ h => h) fun _ _ _ => .inl rfl

/-- No host step but reset ends a run without ERR (R192). -/
theorem busy_or_err_of_hostStep {a : HostAct} {s t : State} (notReset : a ≠ .reset) (busy : s.busy = true)
    (h : hostStep a s = .next t) : t.busy = true ∨ t.err = true := by
  rcases hostStep_cases h with ⟨_, _, -, -, rfl⟩ | ⟨offset, _, v, -, -, rfl⟩ | ⟨_, _, -, idle, -⟩ |
    ⟨_, _, _, -, idle, -⟩ | ⟨reset, -⟩
  · exact .inl busy
  · rcases csrUpdate_cases offset v s with ⟨-, eq⟩ | ⟨-, eq⟩ | ⟨-, eq⟩ | ⟨-, eq⟩ | ⟨-, eq⟩ <;> rw [eq]
    · exact .inl (by rw [writeCfg_of_locked_or_busy v (.inr busy), busy])
    · exact busy_or_err_writeCtrl v busy
    · exact .inl busy
    · exact .inl (by rw [writeEntry_of_busy v busy, busy])
    · exact .inl busy
  · exact absurd busy (by simp [idle])
  · exact absurd busy (by simp [idle])
  · exact absurd reset notReset

/-- A sequencer step that ends a run without ERR is that of a HALT (R192). -/
theorem fetch_eq_halt_of_step {s t : State} (busy : s.busy = true) (turn : sequencerTurn s) (h : step s = .next t)
    (ended : t.busy = false) (noErr : t.err = false) : fetch s = .instr .halt := by
  cases fetched : fetch s with
  | fault c info =>
    rw [step_of_fetch_fault busy turn fetched] at h
    obtain rfl := Host.Outcome.next.inj h
    exact nomatch noErr
  | instr i =>
    rw [step_of_fetch_instr busy turn fetched] at h
    by_contra other
    have notHalt : i ≠ .halt := fun eq => other (eq ▸ rfl)
    rcases busy_eq_or_err_of_exec notHalt h with still | err
    · simp [still, busy] at ended
    · simp [err] at noErr

/-! ## The obligations -/

/-- Settles O4: the step is determined by the fetch, and the fetch by the range of the pc and the decoding of the word. -/
theorem stepRunsTheDecodedInstruction : Obligations.StepRunsTheDecodedInstruction := by
  refine fun s busy turn => ⟨fun outOfRange =>
    ⟨_, step_of_fetch_fault busy turn (fetch_of_gt outOfRange), raise_faultTaken _ _ _⟩, fun inRange => ?_⟩
  rw [decodeBytes_fetchBytes]
  cases dec : decodeWord (fetchWord s) with
  | ok i =>
    refine ⟨fun j rest h => ?_, fun _ => nofun⟩
    cases h
    exact step_of_fetch_instr busy turn (fetch_of_decodeWord_ok inRange dec)
  | error e =>
    exact ⟨fun _ _ => nofun, fun _ _ =>
      ⟨_, step_of_fetch_fault busy turn (fetch_of_decodeWord_error inRange dec), raise_faultTaken _ _ _⟩⟩

/-- Settles O7: a word with op = 0 that decodes is the word of NOP, which is 0. -/
theorem nopOnlyAdvances : Obligations.NopOnlyAdvances := by
  refine ⟨isWordOf_encodeFields _, fun w op nonzero => ?_, fun s => ⟨_, exec_nop s, rfl, rfl⟩⟩
  cases dec : decodeWord w with
  | error e => exact ⟨e, rfl⟩
  | ok i =>
    obtain rfl := eq_nop_of_opcodeOf_eq_zero ((op_of_decodeWord dec).symm.trans op)
    exact absurd (decodeWord_eq_ok_iff.mp dec).symm nonzero

/-- Settles O8: HALT has its effect in every state, and every other step but reset keeps BUSY or sets ERR. -/
theorem haltEndsTheRun : Obligations.HaltEndsTheRun := by
  refine ⟨isWordOf_encodeFields _, fun s => ⟨_, exec_halt s, endByHalt_haltTaken s, ?_⟩,
    fun s t busy h ended noErr => ?_⟩
  · rw [irq, endByHalt_done, endByHalt_ie, Bool.true_or, Bool.and_true]
  · rcases sequencerTurn_or_hostTurn s with turn | ⟨a, rest, turn⟩
    · exact .inr ⟨turn, fetch_eq_halt_of_step busy turn h ended noErr⟩
    · rw [step_of_hostTurn turn] at h
      by_cases reset : a = .reset
      · exact .inl ⟨rest, reset ▸ turn⟩
      · rcases busy_or_err_of_hostStep (s := turnTaken s) reset busy h with still | err
        · simp [still] at ended
        · simp [err] at noErr

/-- Settles O9: each of the three writes one register, ADDI the sum with the signed immediate. -/
theorem scalarImmediates : Obligations.ScalarImmediates := by
  refine fun s d s1 imm => ⟨isWordOf_encodeFields _, isWordOf_encodeFields _, isWordOf_encodeFields _,
    ⟨_, exec_li d imm s, ?_, rfl, changesX_advance_setX _ _ _⟩,
    ⟨_, exec_lui d imm s, ?_, rfl, changesX_advance_setX _ _ _⟩,
    ⟨_, exec_addi d s1 imm s, ?_, rfl, changesX_advance_setX _ _ _⟩⟩
  · rw [getX_advance_setX_self, toNat_uimm]
  · rw [getX_advance_setX_self, toNat_hiimm]
  · rw [getX_advance_setX_self, simm_eq_ofInt, toNat_add_ofInt]

/-- Settles O11: LW is one checked access that loads the four bytes, with the address from the old base. -/
theorem lwLoadsTheWord : Obligations.LwLoadsTheWord := by
  intro s d s1 imm
  have access : accessOf (.lw d s1 imm) s = some ⟨effAddr s s1 imm, 4, 4⟩ := rfl
  refine ⟨isWordOf_encodeFields _, fun ok => ⟨_, exec_of_accessOk access ok, ?_, rfl, changesX_advance_setX _ _ _⟩,
    faultsOnAccess_of_checked (exec_of_accessOf access)⟩
  rw [accessEffect, getX_advance_setX_self, toNat_ofNat_leNat_loadBytes]

/-- Settles O12: SW is one checked access that stores the four bytes of the register. -/
theorem swStoresTheWord : Obligations.SwStoresTheWord := by
  intro s s1 s2 imm
  have access : accessOf (.sw s1 s2 imm) s = some ⟨effAddr s s1 imm, 4, 4⟩ := rfl
  have frame := changesMem_advance_storeBytes (effAddr s s1 imm) (toBytes 4 (getX s s2).toNat) s
  rw [length_toBytes] at frame
  refine ⟨isWordOf_encodeFields _, fun ok => ⟨_, exec_of_accessOk access ok, fun k hk => ?_, rfl, frame⟩,
    faultsOnAccess_of_checked (exec_of_accessOf access)⟩
  rw [accessEffect, advance_mem, storeBytes_mem, read_writeBytes_toBytes _ _ _ _ _ hk, BitVec.toNat_ofNat]

/-- Settles O13: JMP adds four times the signed immediate to the pc. -/
theorem jmpMovesThePc : Obligations.JmpMovesThePc := by
  refine fun s imm => ⟨isWordOf_encodeFields _, _, exec_jmp imm s, ?_, rfl⟩
  rw [jumpBy_pc, woff_eq_ofInt, toNat_add_ofInt]

/-- Settles O14: the counter loses 1 modulo 2^32, and the pc moves by 4 or by the offset as it became 0 or not. -/
theorem djnzDecrementsAndBranches : Obligations.DjnzDecrementsAndBranches := by
  intro s d imm
  refine ⟨isWordOf_encodeFields _, ?_⟩
  by_cases one : getX s d = 1
  · refine ⟨_, exec_djnz_of_eq_one imm one, ?_, ?_, changesX_advance_setX _ _ _⟩
    · rw [getX_advance_setX_self, toNat_sub_one]
    · rw [if_pos one, advance_pc, setX_pc]
      exact toNat_add_ofInt s.pc 4
  · refine ⟨_, exec_djnz_of_ne_one imm one, ?_, ?_, changesX_jumpBy_setX _ _ _ _⟩
    · rw [getX_jumpBy, getX_setX, if_pos rfl, toNat_sub_one]
    · rw [if_neg one, jumpBy_pc, setX_pc, woff_eq_ofInt, toNat_add_ofInt]

end Sys2Proof.Machine
end

section
/-!
PROOFS of the family 60_exceptions: everything an instruction can do, said once (it raises the fault `faultOf` names, it is
HALT, or it completes and changes data only), the CTRL write with ABORT alone, and the obligations O35 and O46.
-/

namespace Sys2Proof.Machine

/-! ## Which fault an instruction raises -/

/-- An instruction that makes an access has the fault of its access, alignment first (R67 to R69, R231). -/
theorem faultOf_of_accessOf {i : Instr} {s : State} {a : Access} (h : accessOf i s = some a) :
    faultOf i s = if a.ea.toNat % a.align ≠ 0 then some (.misaligned, a.ea)
      else if a.ea.toNat + a.size > s.params.memBytes then some (.memRange, a.ea) else none := by
  simp only [faultOf, h]

/-- BROTR has a fault where its shift is above N (R103). -/
theorem faultOf_brotr (d s1 : BReg) (s2 : XReg) (s : State) :
    faultOf (.brotr d s1 s2) s
      = if (getX s s2).toNat > s.params.n then some (.operandRange, getX s s2) else none := rfl

/-! ## Everything an instruction can do -/

/-- From `s` to `t` only the pc, the data registers and memory may change: no CSR but PC, which reads the pc while busy, and
neither agenda nor replies. -/
def ChangesData (s t : State) : Prop :=
  { t with pc := s.pc, x := s.x, b := s.b, t := s.t, z := s.z, mem := s.mem } = s

/-- A change of data keeps the fault registers, the status bits and the PC register. -/
theorem ChangesData.keeps_faultRegisters_status {s t : State} (h : ChangesData s t) :
    t.errCause = s.errCause ∧ t.errPc = s.errPc ∧ t.errInfo = s.errInfo ∧ t.err = s.err
      ∧ t.busy = s.busy ∧ t.done = s.done ∧ t.pcReg = s.pcReg := by
  rw [ChangesData] at h
  rw [← h]
  exact ⟨rfl, rfl, rfl, rfl, rfl, rfl, rfl⟩

theorem changesData_advance_accessEffect (i : Instr) (s : State) : ChangesData s (advance (accessEffect i s)) := by
  cases i <;> rfl

/-- Everything an instruction can do: it raises the fault `faultOf` names, or it has none and is HALT, or it has none and
completes with a change of data (R192, R221, R222). -/
theorem exec_cases (i : Instr) (s : State) :
    (∃ c info, faultOf i s = some (c, info) ∧ exec i s = .next (raise c info s)) ∨
    (faultOf i s = none ∧ i = .halt ∧ exec i s = .next (endByHalt s)) ∨
    (faultOf i s = none ∧ i ≠ .halt ∧ ∃ t, exec i s = .next t ∧ ChangesData s t) := by
  cases access : accessOf i s with
  | some a =>
    rw [exec_of_accessOf access, faultOf_of_accessOf access]
    rcases checked_cases s (advance (accessEffect i s)) a.ea a.align a.size with
      ⟨eq, aligned, inRange⟩ | ⟨eq, misaligned⟩ | ⟨eq, aligned, outOfRange⟩
    · have notHalt : i ≠ .halt := fun halt => nomatch halt ▸ access
      exact .inr (.inr ⟨by rw [if_neg (not_not.mpr aligned), if_neg (Nat.not_lt.mpr inRange)], notHalt, _, eq,
        changesData_advance_accessEffect i s⟩)
    · exact .inl ⟨_, _, if_pos misaligned, eq⟩
    · exact .inl ⟨_, _, by rw [if_neg (not_not.mpr aligned), if_pos outOfRange], eq⟩
  | none =>
    cases i
    case halt => exact .inr (.inl ⟨rfl, rfl, exec_halt s⟩)
    case lw | sw | sampb | bst | sampt | tst | rld | rst => exact nomatch access
    case brotr d s1 s2 =>
      rw [faultOf_brotr]
      rcases Nat.lt_or_ge s.params.n (getX s s2).toNat with gt | le
      · exact .inl ⟨_, _, if_pos gt, exec_brotr_of_gt d s1 gt⟩
      · exact .inr (.inr ⟨if_neg (Nat.not_lt.mpr le), nofun, _, exec_brotr_of_le d s1 le, rfl⟩)
    case djnz d imm =>
      by_cases one : getX s d = 1
      · exact .inr (.inr ⟨rfl, nofun, _, exec_djnz_of_eq_one imm one, rfl⟩)
      · exact .inr (.inr ⟨rfl, nofun, _, exec_djnz_of_ne_one imm one, rfl⟩)
    all_goals exact .inr (.inr ⟨rfl, nofun, _, rfl, rfl⟩)

/-! ## An action bit of CTRL that is 0 -/

@[simp] theorem abortAction_false (s : State) : abortAction false s = s := rfl

@[simp] theorem wipeAction_false (s : State) : wipeAction false s = s := rfl

@[simp] theorem startAction_false (s : State) : startAction false s = s := rfl

theorem abortAction_true_of_busy {s : State} (h : s.busy = true) : abortAction true s = raise .aborted 0 s :=
  if_pos h

/-- A write of CTRL with ABORT alone among the action bits stores IE and then aborts (R47). -/
theorem hostStep_ctrl_abort {v : Word} (s : State) (noStart : v.getLsbD 0 = false) (abort : v.getLsbD 1 = true)
    (noWipe : v.getLsbD 2 = false) :
    hostStep (.csrWrite 0x018 4 v) s = .next (abortAction true { s with ie := v.getLsbD 3 }) := by
  rw [hostStep_csrWrite v s (by decide) (by decide), csrUpdate_ctrl, writeCtrl, noStart, abort, noWipe,
    startAction_false, wipeAction_false]

/-! ## The obligations -/

/-- Settles O35: an instruction raises the fault `faultOf` names, or has none and is HALT, which leaves the fault registers and
ERR alone, or has none and changes data only. -/
theorem faultsAreExactlyThese : Obligations.FaultsAreExactlyThese := by
  intro i s
  rcases exec_cases i s with ⟨c, info, fault, eq⟩ | ⟨noFault, halt, eq⟩ | ⟨noFault, -, t, eq, data⟩
  · refine ⟨_, eq, fun c' info' fault' => ?_, fun noFault => ?_⟩
    · obtain ⟨rfl, rfl⟩ := Prod.mk.inj (Option.some.inj (fault.symm.trans fault'))
      exact raise_faultTaken c info s
    · exact nomatch fault.symm.trans noFault
  · exact ⟨_, eq, fun _ _ fault => (nomatch noFault.symm.trans fault),
      fun _ => ⟨rfl, rfl, rfl, rfl, fun notHalt => absurd halt notHalt⟩⟩
  · obtain ⟨cause, errPc, errInfo, err, status⟩ := data.keeps_faultRegisters_status
    exact ⟨t, eq, fun _ _ fault => (nomatch noFault.symm.trans fault),
      fun _ => ⟨cause, errPc, errInfo, err, fun _ => status⟩⟩

/-- Settles O46: after IE is stored, the abort takes the fault ABORTED where a run is in progress and does nothing else. -/
theorem abortEndsTheRun : Obligations.AbortEndsTheRun := by
  refine fun s v noStart abort noWipe => ⟨fun busy => ?_, fun idle => ?_⟩
  · rw [hostStep_ctrl_abort s noStart abort noWipe, abortAction_true_of_busy (s := { s with ie := v.getLsbD 3 }) busy]
    exact ⟨_, rfl, raise_faultTaken .aborted 0 _⟩
  · rw [hostStep_ctrl_abort s noStart abort noWipe, abortAction_of_idle true (s := { s with ie := v.getLsbD 3 }) idle]

end Sys2Proof.Machine
end

section
/-!
PROOFS of the family 70_reset_and_hazards: the CTRL write with START alone and with WIPE alone, what either does while idle
and while busy, and the obligations O45 and O47.
-/

namespace Sys2Proof.Machine

/-! ## START and WIPE by the state of BUSY -/

theorem startAction_true_of_idle {s : State} (h : s.busy = false) : startAction true s = startRun s :=
  if_pos (by simp [h])

theorem startAction_of_busy (act : Bool) {s : State} (h : s.busy = true) : startAction act s = s :=
  if_neg (by simp [h])

theorem wipeAction_true_of_idle {s : State} (h : s.busy = false) : wipeAction true s = wipe s :=
  if_pos (by simp [h])

theorem wipeAction_of_busy (act : Bool) {s : State} (h : s.busy = true) : wipeAction act s = s :=
  if_neg (by simp [h])

/-! ## A write of CTRL with one action bit: IE is stored first, and the action sees it (R47) -/

theorem hostStep_ctrl_start {v : Word} (s : State) (start : v.getLsbD 0 = true) (noAbort : v.getLsbD 1 = false)
    (noWipe : v.getLsbD 2 = false) :
    hostStep (.csrWrite 0x018 4 v) s = .next (startAction true { s with ie := v.getLsbD 3 }) := by
  rw [hostStep_csrWrite v s (by decide) (by decide), csrUpdate_ctrl, writeCtrl, start, noAbort, noWipe,
    abortAction_false, wipeAction_false]

theorem hostStep_ctrl_wipe {v : Word} (s : State) (noStart : v.getLsbD 0 = false) (noAbort : v.getLsbD 1 = false)
    (wipes : v.getLsbD 2 = true) :
    hostStep (.csrWrite 0x018 4 v) s = .next (wipeAction true { s with ie := v.getLsbD 3 }) := by
  rw [hostStep_csrWrite v s (by decide) (by decide), csrUpdate_ctrl, writeCtrl, noStart, noAbort, wipes,
    abortAction_false, startAction_false]

/-! ## What the two actions leave unchanged -/

/-- A START changes the status, the fault registers and the pc and nothing else (R265). -/
theorem startRun_frame (s : State) :
    { startRun s with
      busy := s.busy, done := s.done, err := s.err, errCause := s.errCause, errPc := s.errPc
      errInfo := s.errInfo, pc := s.pc } = s := rfl

/-- A WIPE changes memory and the data registers and nothing else, so no CSR (R268). -/
theorem wipe_frame (s : State) : { wipe s with mem := s.mem, x := s.x, b := s.b, t := s.t, z := s.z } = s := rfl

theorem registersZero_wipe (s : State) : registersZero (wipe s) := by
  simp [registersZero]

/-! ## The obligations -/

/-- Settles O45: after IE is stored, the START begins a run at the word of ENTRY, which is four times the 30 bits it holds,
where the part is idle, and does nothing where a run is in progress. -/
theorem startBeginsARun : Obligations.StartBeginsARun := by
  refine fun s v start noAbort noWipe => ⟨fun idle => ?_, fun busy => ?_⟩
  · rw [hostStep_ctrl_start s start noAbort noWipe, startAction_true_of_idle (s := { s with ie := v.getLsbD 3 }) idle]
    exact ⟨_, rfl, rfl, rfl, rfl, rfl, rfl, rfl, toNat_entryWord s, startRun_frame { s with ie := v.getLsbD 3 }⟩
  · rw [hostStep_ctrl_start s start noAbort noWipe, startAction_of_busy true (s := { s with ie := v.getLsbD 3 }) busy]

/-- Settles O47: after IE is stored, the WIPE zeroes memory and the registers where the part is idle and does nothing where a
run is in progress. -/
theorem wipeZeroesMemoryAndRegisters : Obligations.WipeZeroesMemoryAndRegisters := by
  refine fun s v noStart noAbort wipes => ⟨fun idle => ?_, fun busy => ?_⟩
  · rw [hostStep_ctrl_wipe s noStart noAbort wipes, wipeAction_true_of_idle (s := { s with ie := v.getLsbD 3 }) idle]
    exact ⟨_, rfl, read_wipe s.mem, registersZero_wipe _, wipe_frame { s with ie := v.getLsbD 3 }⟩
  · rw [hostStep_ctrl_wipe s noStart noAbort wipes, wipeAction_of_busy true (s := { s with ie := v.getLsbD 3 }) busy]

end Sys2Proof.Machine
end

section
/-!
PROOFS of the family other, the step and the instructions: decoding the bytes of an encoded instruction, the step of a placed
word and of an idle part, everything an instruction that completes does (its data and its next pc, said apart), and the
obligations O2, O5, O6, O36, O37, O38 and O39.
-/

namespace Sys2Proof.Machine

/-! ## Decoding, placing a word, and the idle turn -/

/-- Settles O2: the four bytes of an encoded instruction hold its word, and decoding the word gives the instruction back. -/
theorem decodeOfEncode : Obligations.DecodeOfEncode := by
  intro i rest
  rw [encodeBytes, decodeBytes_append (length_toBytes 4 _), wordOf_toBytes, decodeWord_encode]
  rfl

/-- Settles O5: the sequencer's step of an idle part is the part as it stands. -/
theorem idleSequencerChangesNothing : Obligations.IdleSequencerChangesNothing := by
  intro s idle turn
  rw [step_of_sequencerTurn turn, sequencerStep_of_idle (s := turnTaken s) idle]

theorem running_busy (s : State) : (running s).busy = true := by
  unfold running
  split
  · assumption
  · rfl

@[simp] theorem running_params (s : State) : (running s).params = s.params := by
  unfold running
  split <;> rfl

@[simp] theorem placeable_params (s : State) : (placeable s).params = s.params := by
  unfold placeable
  split <;> rfl

@[simp] theorem placeable_busy (s : State) : (placeable s).busy = s.busy := by
  unfold placeable
  split <;> rfl

/-- Four bytes at the placeable pc lie in memory, where memory has four bytes. -/
theorem placeable_inRange {s : State} (h : 4 ≤ s.params.memBytes) :
    (placeable s).pc.toNat + 4 ≤ s.params.memBytes := by
  unfold placeable
  split
  · simpa using h
  · omega

/-- The bytes of a placed word are the ones the next fetch reads. -/
theorem fetchBytes_placeWord (s : State) (nbits w : Nat) :
    fetchBytes (placeWord s nbits w) = toBytes 4 (w % 2 ^ nbits) := by
  have placed := readBytes_writeBytes s.mem s.pc.toNat (toBytes 4 (w % 2 ^ nbits))
  rwa [length_toBytes] at placed

/-- The four bytes of a table word decode to its instruction. -/
theorem exists_decodeBytes_of_decodeTableWord {nbits w : Nat} {i : Instr} (h : decodeTableWord nbits w = some i) :
    ∃ rest, decodeBytes (toBytes 4 (w % 2 ^ nbits)) = .ok (i, rest) := by
  unfold decodeTableWord at h
  split at h
  case h_1 j rest decoded => exact ⟨rest, Option.some.inj h ▸ decoded⟩
  case h_2 => exact nomatch h

theorem fetch_of_decodeBytes_ok {s : State} {i : Instr} {rest : List Byte}
    (inRange : s.pc.toNat + 4 ≤ s.params.memBytes) (h : decodeBytes (fetchBytes s) = .ok (i, rest)) :
    fetch s = .instr i := by
  rw [fetch, if_neg (by omega), h]

/-- Settles O6: the placed state is busy, the sequencer is next, and the fetch reads the word that was placed. -/
theorem placedWordRunsNext : Obligations.PlacedWordRunsNext := by
  intro s w i hmem decodes
  have busy : (s.withFetchWord 32 w).busy = true := (placeable_busy _).trans (running_busy s)
  have turn : sequencerTurn (s.withFetchWord 32 w) := sequencerTurn_sequencerNext _
  have inRange : (s.withFetchWord 32 w).pc.toNat + 4 ≤ (s.withFetchWord 32 w).params.memBytes := by
    have params : (s.withFetchWord 32 w).params = (running s).params := placeable_params _
    rw [params]
    exact placeable_inRange (s := running s) (by rwa [running_params])
  obtain ⟨rest, decoded⟩ := exists_decodeBytes_of_decodeTableWord decodes
  have fetched : decodeBytes (fetchBytes (s.withFetchWord 32 w)) = .ok (i, rest) := by
    rw [State.withFetchWord, fetchBytes_placeWord, decoded]
  exact step_of_fetch_instr busy turn (fetch_of_decodeBytes_ok inRange fetched)

/-! ## What an instruction that completes does: its data and its next pc -/

/-- What an instruction that completes changes in the data registers and in memory, the pc apart; `exec_of_completes` ties it
to `exec`. -/
def dataEffect (i : Instr) (s : State) : State :=
  match i with
  | .li d imm => setX d (uimm imm) s
  | .lui d imm => setX d (hiimm imm) s
  | .addi d s1 imm => setX d (getX s s1 + simm imm) s
  | .djnz d _ => setX d (getX s d - 1) s
  | .bxor d s1 s2 => setB d (getB s s1 ^^^ getB s s2) s
  | .brotr d s1 s2 => setB d (rotateRight s.params.n (getB s s1) (getX s s2).toNat) s
  | .tmul d s1 s2 => setT d (ternaryMul s.params.n (getT s s1) (getT s s2)) s
  | .tinv d s1 => setT d (ternaryInverse s.params (getT s s1)) s
  | .rmul d s1 s2 => setZ d (truncMul s.params.n s.params.q (getZ s s1) (getZ s s2)) s
  | .rscale d s1 imm => setZ d (truncScale s.params.q (uimm imm).toNat (getZ s s1)) s
  | .rneg d s1 => setZ d (truncNeg s.params.q (getZ s s1)) s
  | .rfromt d s1 => setZ d (truncOfTernary s.params.n s.params.q (getT s s1)) s
  | i => accessEffect i s

/-- The pc after an instruction that completes: the target of a branch that is taken, and pc + 4 else (R28);
`exec_of_completes` ties it to `exec`. -/
def nextPc (i : Instr) (s : State) : Word :=
  match i with
  | .jmp imm => s.pc + woff imm
  | .djnz d imm => if getX s d = 1 then s.pc + 4 else s.pc + woff imm
  | _ => s.pc + 4

/-- The state of an instruction that completes and is not HALT. -/
def completed (i : Instr) (s : State) : State := { dataEffect i s with pc := nextPc i s }

/-- What every memory instruction does when it completes is the effect of its access. -/
theorem completed_of_accessOf {i : Instr} {s : State} {a : Access} (h : accessOf i s = some a) :
    completed i s = advance (accessEffect i s) := by
  cases i
  case lw | sw | sampb | bst | sampt | tst | rld | rst => rfl
  all_goals exact nomatch h

/-- The access of an instruction without a fault is aligned and in range (R67, R68). -/
theorem accessOk_of_faultOf_eq_none {i : Instr} {s : State} {a : Access} (h : accessOf i s = some a)
    (noFault : faultOf i s = none) : accessOk s a := by
  rw [faultOf_of_accessOf h] at noFault
  split at noFault
  · exact nomatch noFault
  · split at noFault
    · exact nomatch noFault
    · exact ⟨by omega, by omega⟩

/-- An instruction without a fault that is not HALT completes with its data and its next pc. -/
theorem exec_of_completes {i : Instr} {s : State} (noFault : faultOf i s = none) (notHalt : i ≠ .halt) :
    exec i s = .next (completed i s) := by
  cases access : accessOf i s with
  | some a =>
    rw [completed_of_accessOf access]
    exact exec_of_accessOk access (accessOk_of_faultOf_eq_none access noFault)
  | none =>
    cases i
    case halt => exact absurd rfl notHalt
    case lw | sw | sampb | bst | sampt | tst | rld | rst => exact nomatch access
    case brotr d s1 s2 =>
      refine exec_brotr_of_le d s1 (Nat.not_lt.mp fun gt => ?_)
      rw [faultOf_brotr, if_pos gt] at noFault
      exact nomatch noFault
    case djnz d imm =>
      by_cases one : getX s d = 1
      · rw [exec_djnz_of_eq_one imm one, completed, nextPc, if_pos one]
        rfl
      · rw [exec_djnz_of_ne_one imm one, completed, nextPc, if_neg one]
        rfl
    all_goals rfl

/-- A property of the next state of an instruction: the fault it raises, HALT, and completing are the three cases. -/
theorem exec_induction {P : State → Prop} (i : Instr) (s : State)
    (fault : ∀ c info, faultOf i s = some (c, info) → P (raise c info s)) (halt : P (endByHalt s))
    (completes : faultOf i s = none → P (completed i s)) : ∃ t, exec i s = .next t ∧ P t := by
  rcases exec_cases i s with ⟨c, info, faults, eq⟩ | ⟨-, -, eq⟩ | ⟨noFault, notHalt, -⟩
  · exact ⟨_, eq, fault c info faults⟩
  · exact ⟨_, eq, halt⟩
  · exact ⟨_, exec_of_completes noFault notHalt, completes noFault⟩

/-! ## The pc stays a multiple of 4 -/

theorem nextPc_aligned (i : Instr) {s : State} (h : s.pc.toNat % 4 = 0) : (nextPc i s).toNat % 4 = 0 := by
  have four : (4 : Word).toNat % 4 = 0 := rfl
  unfold nextPc
  split
  · exact add_aligned h (woff_aligned _)
  · split
    · exact add_aligned h four
    · exact add_aligned h (woff_aligned _)
  · exact add_aligned h four

/-- Settles O39: a fault and HALT keep the pc, and the next pc is a multiple of 4 away. -/
theorem pcStaysAligned : Obligations.PcStaysAligned := fun i s aligned =>
  exec_induction i s (fun _ _ _ => aligned) aligned fun _ => nextPc_aligned i aligned

/-! ## The registers stay well formed -/

theorem wf_loadTrunc (s : State) (ea : Word) : TruncPoly.wf s.params.n s.params.logQ (loadTrunc s ea) = true := by
  have length : (halfwords (loadBytes s ea s.params.rpBytes)).length = s.params.n :=
    (halfwords_spec s.params.n _ (length_readBytes _ _ _)).1
  exact wf_map_mod _ _ _ _ length fun _ => Nat.mod_lt _ (q_pos s.params)

theorem wf_truncOfTernary (p : Params) (v : TernaryPoly) :
    TruncPoly.wf p.n p.logQ (truncOfTernary p.n p.q v) = true :=
  wf_map_mod _ _ _ _ (length_trits _ _) fun _ => Nat.mod_lt _ (q_pos p)

/-- Each value an instruction writes to a polynomial register is well formed (R22, R23, R24). -/
theorem registersWF_dataEffect (i : Instr) {s : State} (h : RegistersWF s) : RegistersWF (dataEffect i s) := by
  have small (r : BReg) : getB s r < 2 ^ s.params.n := (wf_bitPoly_iff _ _).mp (h.b r)
  cases i
  case sampb d s1 imm => exact registersWF_setB h d (maskBits_lt _ _)
  case bxor d s1 s2 => exact registersWF_setB h d (Nat.xor_lt_two_pow (small s1) (small s2))
  case brotr d s1 s2 => exact registersWF_setB h d (bitsOf_lt _ _)
  case sampt d s1 imm => exact registersWF_setT h d (wf_repair (maskBits_lt _ _) (maskBits_lt _ _))
  case tmul d s1 s2 => exact registersWF_setT h d (wf_ternaryMul _ _ _)
  case tinv d s1 => exact registersWF_setT h d (wf_ternaryInverse _ _)
  case rld d s1 imm => exact registersWF_setZ h d (wf_loadTrunc s _)
  case rmul d s1 s2 => exact registersWF_setZ h d (wf_truncMul _ _ _)
  case rscale d s1 imm => exact registersWF_setZ h d (wf_truncScale (h.z s1) _)
  case rneg d s1 => exact registersWF_setZ h d (wf_truncNeg (h.z s1))
  case rfromt d s1 => exact registersWF_setZ h d (wf_truncOfTernary _ _)
  all_goals exact registersWF_congr h rfl rfl rfl rfl

/-- A new pc touches no register. -/
theorem registersWF_completed (i : Instr) {s : State} (h : RegistersWF s) : RegistersWF (completed i s) :=
  registersWF_congr (registersWF_dataEffect i h) rfl rfl rfl rfl

theorem registersWF_raise (c : Cause) (info : Word) (s : State) : RegistersWF (raise c info s) :=
  registersWF_of_zero (raise_faultTaken c info s).zero

theorem registersWF_endByHalt (s : State) : RegistersWF (endByHalt s) :=
  registersWF_of_zero (endByHalt_haltTaken s).zero

/-- Settles O38: a fault and HALT zero the registers, and an instruction that completes writes a well-formed value. -/
theorem instructionsKeepRegistersWellFormed : Obligations.InstructionsKeepRegistersWellFormed := fun i s wf =>
  exec_induction i s (fun c info _ => registersWF_raise c info s) (registersWF_endByHalt s)
    fun _ => registersWF_completed i wf

/-! ## What an instruction stores -/

/-- The bytes an instruction stores when it completes, from the first address `storeOf` names on. -/
def storedBytes (i : Instr) (s : State) : List Byte :=
  match i with
  | .sw _ s2 _ => toBytes 4 (getX s s2).toNat
  | .bst _ s2 _ => bitPolyBytes s.params (getB s s2)
  | .tst _ s2 _ => ternaryBytes s.params (getT s s2)
  | .rst _ s2 _ => truncBytes s.params (getZ s s2)
  | _ => []

theorem mem_completed_of_storeOf_eq_none {i : Instr} {s : State} (h : storeOf i s = none) :
    (completed i s).mem = s.mem := by
  cases i
  case sw | bst | tst | rst => exact nomatch h
  all_goals rfl

/-- An instruction that stores writes its bytes where its access lies, which names their number. -/
theorem mem_completed_of_storeOf {i : Instr} {s : State} {first size : Nat} (h : storeOf i s = some (first, size)) :
    (completed i s).mem = s.mem.writeBytes first (storedBytes i s) ∧ (storedBytes i s).length = size
      ∧ ∃ a, accessOf i s = some a ∧ a.ea.toNat = first ∧ a.size = size := by
  cases i
  case sw => cases h; exact ⟨rfl, length_toBytes _ _, _, rfl, rfl, rfl⟩
  case bst => cases h; exact ⟨rfl, length_bitPolyBytes _ _, _, rfl, rfl, rfl⟩
  case tst => cases h; exact ⟨rfl, length_ternaryBytes _ _, _, rfl, rfl, rfl⟩
  case rst => cases h; exact ⟨rfl, length_truncBytes _ _, _, rfl, rfl, rfl⟩
  all_goals exact nomatch h

/-- A byte the instruction does not store to reads as before (R70). -/
theorem read_completed_of_not_storesTo {i : Instr} {s : State} {a : Nat} (h : ¬ storesTo i s a) :
    (completed i s).mem.read a = s.mem.read a := by
  match store : storeOf i s with
  | none => rw [mem_completed_of_storeOf_eq_none store]
  | some (first, size) =>
    obtain ⟨mem, length, -⟩ := mem_completed_of_storeOf store
    rw [mem, read_writeBytes_outside _ _ _ _ ?_]
    by_contra inside
    exact h ⟨first, size, store, by omega, by omega⟩

/-- Settles O36: a fault and HALT keep memory, and an instruction that completes writes the bytes it stores and no other. -/
theorem memoryFrame : Obligations.MemoryFrame := fun i s =>
  exec_induction i s (fun _ _ _ => ⟨fun _ _ => rfl, fun _ => rfl⟩) ⟨fun _ _ => rfl, fun _ => rfl⟩ fun noFault =>
    ⟨fun _ => read_completed_of_not_storesTo, fun fault => absurd noFault fault⟩

/-! ## What no program reaches -/

/-- From `s` to `t` CFG, IE, ENTRY, the part and the host's replies are kept. -/
def KeepsHostState (s t : State) : Prop :=
  t.accelEn = s.accelEn ∧ t.lock = s.lock ∧ t.ie = s.ie ∧ t.entry = s.entry ∧ t.params = s.params
    ∧ t.replies = s.replies

theorem keepsHostState_completed (i : Instr) (s : State) : KeepsHostState s (completed i s) := by
  cases i <;> exact ⟨rfl, rfl, rfl, rfl, rfl, rfl⟩

theorem keepsHostState_raise (c : Cause) (info : Word) (s : State) : KeepsHostState s (raise c info s) :=
  ⟨rfl, rfl, rfl, rfl, rfl, rfl⟩

/-- Settles O37: an idle turn changes nothing, a fault of the fetch and HALT keep what the host set, and so does every
instruction. -/
theorem programsCannotReachTheCsrs : Obligations.ProgramsCannotReachTheCsrs := by
  intro s turn
  cases busy : s.busy with
  | false => exact ⟨_, idleSequencerChangesNothing s busy turn, rfl, rfl, rfl, rfl, rfl, rfl⟩
  | true =>
    cases fetched : fetch s with
    | fault c info => exact ⟨_, step_of_fetch_fault busy turn fetched, keepsHostState_raise c info (turnTaken s)⟩
    | instr i =>
      rw [step_of_fetch_instr busy turn fetched]
      exact exec_induction (P := KeepsHostState s) i (turnTaken s) (fun c info _ => keepsHostState_raise c info _)
        ⟨rfl, rfl, rfl, rfl, rfl, rfl⟩ fun _ => keepsHostState_completed i (turnTaken s)

end Sys2Proof.Machine
end

section
/-!
PROOFS of the family other, values: a constant ternary value as zero in the ring, loading back what a store wrote, the value
of LI32, and the obligations O26, O34 and O44.
-/

namespace Sys2Proof.Machine

/-! ## A constant value is a multiple of PHI (R132) -/

@[simp] theorem tritAt_zeroTernary (k : Nat) : tritAt zeroTernary k = 0 := by
  simp [tritAt, zeroTernary]

/-- The first coefficient of a product with zero is 0. -/
theorem tritAt_ternaryMul_zeroTernary {n : Nat} (hn : 0 < n) (w : TernaryPoly) :
    tritAt (ternaryMul n zeroTernary w) 0 = 0 := by
  have coefficient := tritAt_ternaryMul_eq_sub zeroTernary w hn
  simpa [convCoeff_trits] using coefficient

/-- A value with all coefficients equal is a multiple of PHI, so its products are those of zero (R122, R132). -/
theorem ternaryMul_of_constant {n : Nat} (hn : 0 < n) {v : TernaryPoly} (h : ∀ k < n, tritAt v k = tritAt v 0)
    (w : TernaryPoly) : ternaryMul n v w = ternaryMul n zeroTernary w := by
  have multiple : ∀ k < n, tritAt v k = (tritAt zeroTernary k + tritAt v 0) % 3 := fun k hk => by
    rw [h k hk, tritAt_zeroTernary, Nat.zero_add, Nat.mod_eq_of_lt (tritAt_lt v 0)]
  exact ternaryMul_eq_of_ringOf_mul_eq hn (by rw [ringOf_eq_of_tritAt_add multiple])

/-- A constant value has no inverse: the first coefficient of each of its products is 0, and ONE's is 1 (R130, R132). -/
theorem not_exists_isTernaryInverse_of_constant {n : Nat} (hn : 0 < n) {v : TernaryPoly}
    (h : ∀ k < n, tritAt v k = tritAt v 0) : ¬ ∃ w, IsTernaryInverse n v w := by
  rintro ⟨w, inverse⟩
  obtain ⟨-, product⟩ := (isTernaryInverse_iff hn v w).mp inverse
  have first : tritAt (ternaryMul n v w) 0 = 0 := by
    rw [ternaryMul_of_constant hn h, tritAt_ternaryMul_zeroTernary hn]
  rw [product, tritAt_ternaryOne_zero] at first
  exact one_ne_zero first

/-- Settles O26: a constant value is zero in the ring, which has no inverse, and INV_NONINV is well formed. -/
theorem constantValuesAreNotInvertible : Obligations.ConstantValuesAreNotInvertible := by
  intro s d s1 wf constant
  have none := not_exists_isTernaryInverse_of_constant wf.prime.pos constant
  refine ⟨none, _, exec_tinv d s1 s, ?_, ?_, rfl, changesT_advance_setT _ _ _⟩
  · rw [getT_advance_setT_self, ternaryInverse_of_not_exists wf none]
  · rw [getT_advance_setT_self]
    exact wf_ternaryInverse s.params _

/-! ## Loading back what a store wrote -/

/-- A plane whose bits below N are those of a well-formed plane, and 0 above, is this plane. -/
theorem eq_of_testBit_of_wf {n : Nat} {p q : BitPoly} {bit : Nat → Bool} (wf : BitPoly.wf n p = true)
    (hq : ∀ k, q.testBit k = (decide (k < n) && bit k)) (h : ∀ k < n, bit k = p.testBit k) : q = p := by
  refine Nat.eq_of_testBit_eq fun k => ?_
  rw [hq, ← bitsOf_testBit wf, testBit_bitsOf]
  by_cases hk : k < n
  · rw [h k hk]
  · rw [decide_eq_false hk, Bool.false_and, Bool.false_and]

/-- The byte of a bit below N is one of the plane's bytes (R8). -/
theorem div_eight_lt_bpBytes {p : Params} {k : Nat} (hk : k < p.n) : k / 8 < p.bpBytes := by
  have fits := n_le_bpBytes p
  omega

/-- A loaded BitPoly is the one just stored (R64, R101, R181). -/
theorem loadBitPoly_storeBytes (s : State) (ea : Word) {v : BitPoly} (wf : BitPoly.wf s.params.n v = true) :
    loadBitPoly (storeBytes ea (bitPolyBytes s.params v) s) ea = v := by
  refine eq_of_testBit_of_wf wf (testBit_loadBitPoly_all _ ea) fun k hk => ?_
  rw [getLsbD_read_storeBytes_bitPolyBytes s ea v (div_eight_lt_bpBytes hk) (Nat.mod_lt _ (by decide)), Nat.div_add_mod,
    decide_eq_true hk, Bool.true_and]

/-- Each loaded plane of a TernaryPoly is the one just stored (R65, R125, R182). -/
theorem loadPlanes_storeBytes (s : State) (ea : Word) {v : TernaryPoly} (wf : v.wf s.params.n = true) :
    loadBitPoly (storeBytes ea (ternaryBytes s.params v) s) ea = v.s
      ∧ loadSecondPlane (storeBytes ea (ternaryBytes s.params v) s) ea = v.a := by
  obtain ⟨wfs, wfa, -⟩ := planes_of_wf wf
  have stored {k : Nat} (hk : k < s.params.n) :=
    getLsbD_read_storeBytes_ternaryBytes s ea v (div_eight_lt_bpBytes hk) (Nat.mod_lt k (show 0 < 8 by decide))
  refine ⟨eq_of_testBit_of_wf wfs (testBit_loadBitPoly_all _ ea) fun k hk => ?_,
    eq_of_testBit_of_wf wfa (testBit_loadSecondPlane_all _ ea) fun k hk => ?_⟩
  · rw [(stored hk).1, Nat.div_add_mod, decide_eq_true hk, Bool.true_and]
  · rw [storeBytes_params, (stored hk).2, Nat.div_add_mod, decide_eq_true hk, Bool.true_and]

/-- The repair changes no well-formed value (R120, R182). -/
theorem repair_of_wf {n : Nat} {v : TernaryPoly} (wf : v.wf n = true) : repair v.s v.a = v := by
  obtain ⟨-, -, cover⟩ := planes_of_wf wf
  rw [repair_eq_iff, Nat.or_comm, cover]
  exact ⟨rfl, rfl⟩

/-- A loaded TruncRing value is the one just stored: a coefficient below Q fits a halfword (R66, R150, R151). -/
theorem loadTrunc_storeBytes {s : State} (ea : Word) {c : TruncPoly} (hq : s.params.logQ ≤ 16)
    (wf : TruncPoly.wf s.params.n s.params.logQ c = true) :
    loadTrunc (storeBytes ea (truncBytes s.params c) s) ea = c := by
  refine eq_of_coefficients_eq (p := s.params) (wf_loadTrunc _ ea) wf fun k hk => congrArg _ ?_
  have low := toNat_read_storeBytes_truncBytes s ea c hk Nat.two_pos
  have high := toNat_read_storeBytes_truncBytes s ea c hk Nat.one_lt_two
  have q_le : s.params.q ≤ 2 ^ 16 := Nat.pow_le_pow_right Nat.two_pos hq
  have small : c.getD k 0 < s.params.q := getD_lt_of_wf wf k
  rw [pow_zero, Nat.div_one, Nat.add_zero] at low
  rw [pow_one, ← Nat.add_assoc] at high
  rw [getD_loadTrunc (storeBytes ea (truncBytes s.params c) s) ea hk, low, high, storeBytes_params,
    show c.getD k 0 % 256 + 256 * (c.getD k 0 / 256 % 256) = c.getD k 0 by omega, Nat.mod_eq_of_lt small]

/-- Settles O34: each load reads the bytes just stored, and the value they hold is the well-formed one of the register. -/
theorem storedValuesReload : Obligations.StoredValuesReload := by
  intro s s1 imm wf regs
  refine ⟨fun d r ok => ?_, fun d r ok => ?_, fun d r ok => ?_⟩
  · refine ⟨_, _, exec_of_accessOk (i := .bst s1 r imm) rfl ok, exec_of_accessOk (i := .sampb d s1 imm) rfl ok, ?_⟩
    exact (getB_advance_setB_self d _ _).trans (loadBitPoly_storeBytes s _ (regs.b r))
  · obtain ⟨sign, nonzero⟩ := loadPlanes_storeBytes s (effAddr s s1 imm) (regs.t r)
    refine ⟨_, _, exec_of_accessOk (i := .tst s1 r imm) rfl ok, exec_of_accessOk (i := .sampt d s1 imm) rfl ok, ?_⟩
    exact (getT_advance_setT_self d _ _).trans ((congrArg₂ repair sign nonzero).trans (repair_of_wf (regs.t r)))
  · refine ⟨_, _, exec_of_accessOk (i := .rst s1 r imm) rfl ok, exec_of_accessOk (i := .rld d s1 imm) rfl ok, ?_⟩
    exact (getZ_advance_setZ_self d _ _).trans (loadTrunc_storeBytes _ wf.logQ_le (regs.z r))

/-! ## The pseudo-instructions (R89) -/

theorem execList_of_exec {i : Instr} {is : List Instr} {s t : State} (h : exec i s = .next t) :
    execList (i :: is) s = execList is t := by
  rw [execList, h]

theorem ChangesX.trans {d : XReg} {s t u : State} (h1 : ChangesX d s t) (h2 : ChangesX d t u) : ChangesX d s u := by
  obtain ⟨rest1, other1⟩ := h1
  obtain ⟨rest2, other2⟩ := h2
  refine ⟨?_, fun r hr => (other2 r hr).trans (other1 r hr)⟩
  rw [← rest2] at rest1
  exact rest1

/-- A word below 65536 is its low half, zero-extended. -/
theorem uimm_li32Low {v : Word} (h : v.toNat < 65536) : uimm (li32Low v) = v := by
  refine BitVec.eq_of_toNat_eq ?_
  rw [toNat_uimm, li32Low, BitVec.extractLsb'_toNat, Nat.shiftRight_zero, Nat.mod_eq_of_lt h]

/-- What LUI must load has a zero low half: the sign-extended low half has the low half of the value. -/
theorem toNat_sub_simm_li32Low_mod (v : Word) : (v - simm (li32Low v)).toNat % 65536 = 0 := by
  have low : (li32Low v).toNat = v.toNat % 65536 := by
    rw [li32Low, BitVec.extractLsb'_toNat, Nat.shiftRight_zero]
  rw [BitVec.toNat_sub, simm, BitVec.toNat_signExtend, BitVec.toNat_setWidth, low]
  split <;> omega

/-- LUI loads a word whose low half is zero (R89, R194). -/
theorem hiimm_li32High (v : Word) : hiimm (li32High v) = v - simm (li32Low v) := by
  have low := toNat_sub_simm_li32Low_mod v
  refine BitVec.eq_of_toNat_eq ?_
  have lt := (v - simm (li32Low v)).isLt
  rw [toNat_hiimm, li32High, ← simm, BitVec.extractLsb'_toNat, Nat.shiftRight_eq_div_pow]
  omega

/-- LI32 of a value that fits 16 bits is one LI. -/
theorem execList_pseudoLi32_of_lt {v : Word} (h : v.toNat < 65536) (d : XReg) (s : State) :
    execList (pseudoLi32 d v) s = .next (advance (setX d v s)) := by
  rw [pseudoLi32, if_pos h, execList_of_exec (exec_li d _ s), uimm_li32Low h, execList]

/-- LI32 of a larger value is LUI of the high part and ADDI of the low part, which add up to the value. -/
theorem execList_pseudoLi32_of_ge {v : Word} (h : ¬ v.toNat < 65536) (d : XReg) (s : State) :
    execList (pseudoLi32 d v) s
      = .next (advance (setX d v (advance (setX d (v - simm (li32Low v)) s)))) := by
  rw [pseudoLi32, if_neg h, execList_of_exec (exec_lui d _ s), execList_of_exec (exec_addi d d _ _), hiimm_li32High,
    getX_advance_setX_self, sub_add_cancel, execList]

/-- Settles O44: LI32 takes one word or two, and MV adds 0. -/
theorem pseudoInstructionsExpand : Obligations.PseudoInstructionsExpand := by
  refine fun s d s1 v => ⟨?_, _, execList_of_exec (exec_addi d s1 0 s), ?_, changesX_advance_setX _ _ _, rfl⟩
  · by_cases h : v.toNat < 65536
    · refine ⟨_, execList_pseudoLi32_of_lt h d s, getX_advance_setX_self _ _ _, changesX_advance_setX _ _ _, ?_⟩
      rw [pseudoLi32, if_pos h]
      rfl
    · refine ⟨_, execList_pseudoLi32_of_ge h d s, getX_advance_setX_self _ _ _,
        (changesX_advance_setX _ _ _).trans (changesX_advance_setX _ _ _), ?_⟩
      rw [pseudoLi32, if_neg h]
      exact add_assoc s.pc 4 4
  · rw [getX_advance_setX_self, show simm 0 = 0 from rfl, add_zero]

end Sys2Proof.Machine
end

section
/-!
PROOFS of the family other, the host: the bits of STATUS and CTRL, the order of the actions of CTRL, the window above the
writable registers, the memory port and the duties of the host, reset, and the obligations O48, O51, O55, O57, O58 and O59.
-/

namespace Sys2Proof.Machine

/-! ## STATUS and the read-only registers of the window -/

/-- The bits of STATUS (R48). -/
theorem getLsbD_statusWord (s : State) (k : Nat) :
    (statusWord s).getLsbD k = if k = 0 then s.busy else if k = 1 then s.done else if k = 2 then s.err else false := by
  rw [statusWord, BitVec.getLsbD_or, BitVec.getLsbD_or, getLsbD_bitAt _ (by decide), getLsbD_bitAt _ (by decide),
    getLsbD_bitAt _ (by decide)]
  by_cases h0 : k = 0
  · simp [h0]
  · by_cases h1 : k = 1
    · simp [h1]
    · by_cases h2 : k = 2 <;> simp [h0, h1, h2]

/-- Settles O51: a write of STATUS is its update, and the three bits do not overlap. -/
theorem statusClearsByOnes : Obligations.StatusClearsByOnes :=
  ⟨fun s v => hostStep_csrWrite v s (by decide) (by decide), getLsbD_statusWord⟩

/-- An offset above ENTRY is not writable (R40, R50 to R53). -/
theorem csrUpdate_of_readOnly {offset : Nat} (h : 0x020 < offset) (v : Word) (s : State) : csrUpdate offset v s = s := by
  rcases csrUpdate_cases offset v s with ⟨rfl, -⟩ | ⟨rfl, -⟩ | ⟨rfl, -⟩ | ⟨rfl, -⟩ | ⟨-, eq⟩
  case inr.inr.inr.inr => exact eq
  all_goals omega

/-- An offset above ERRINFO is not mapped (R40). -/
theorem csrValue_of_unmapped {offset : Nat} (h : 0x030 < offset) (s : State) : csrValue s offset = 0 := by
  unfold csrValue
  split
  case h_14 => rfl
  all_goals omega

/-- Settles O55: each cause reads its code, nothing above ENTRY is writable, and nothing above ERRINFO is mapped. -/
theorem faultAndUnmappedCsrs : Obligations.FaultAndUnmappedCsrs := by
  have code {s : State} {c : Cause} (h : s.errCause = c) : csrValue s 0x028 = causeCode c := by
    rw [csrValue_errCause, h]
  refine ⟨fun s => ⟨code, code, code, code, code, code, code, csrValue_errPc s, csrValue_errInfo s⟩,
    fun s offset v aligned low high => ?_, fun s offset aligned low high => ?_⟩
  · rw [hostStep_csrWrite v s aligned high, csrUpdate_of_readOnly (by omega)]
  · rw [hostStep_csrRead s aligned high, csrValue_of_unmapped (by omega), reply]

/-! ## The order of the actions of CTRL (R47) -/

/-- Storing the IE a state has changes nothing. -/
theorem with_ie_eq_self {s : State} {ie : Bool} (h : s.ie = ie) : { s with ie := ie } = s := by
  rw [← h]

@[simp] theorem abortAction_ie (act : Bool) (s : State) : (abortAction act s).ie = s.ie := by
  rcases abortAction_cases act s with ⟨-, -, eq⟩ | ⟨-, eq⟩ <;> simp [eq]

@[simp] theorem wipeAction_ie (act : Bool) (s : State) : (wipeAction act s).ie = s.ie := by
  rcases wipeAction_cases act s with ⟨-, -, eq⟩ | ⟨-, eq⟩ <;> simp [eq]

/-- A write of CTRL stores IE and then acts by its three action bits. -/
theorem hostStep_ctrl (v : Word) (s : State) :
    hostStep (.csrWrite 0x018 4 v) s
      = .next (startAction (v.getLsbD 0) (wipeAction (v.getLsbD 2)
          (abortAction (v.getLsbD 1) { s with ie := v.getLsbD 3 }))) :=
  hostStep_csrWrite v s (by decide) (by decide)

/-- A write of the ABORT bit and the IE bit of a word. -/
theorem hostStep_ctrl_abortBit (v : Word) (s : State) :
    hostStep (.csrWrite 0x018 4 (v &&& 0xA#32)) s = .next (abortAction (v.getLsbD 1) { s with ie := v.getLsbD 3 }) := by
  rw [hostStep_ctrl]
  simp

/-- A write of the WIPE bit and the IE bit of a word. -/
theorem hostStep_ctrl_wipeBit (v : Word) (s : State) :
    hostStep (.csrWrite 0x018 4 (v &&& 0xC#32)) s = .next (wipeAction (v.getLsbD 2) { s with ie := v.getLsbD 3 }) := by
  rw [hostStep_ctrl]
  simp

/-- A write of the START bit and the IE bit of a word. -/
theorem hostStep_ctrl_startBit (v : Word) (s : State) :
    hostStep (.csrWrite 0x018 4 (v &&& 0x9#32)) s = .next (startAction (v.getLsbD 0) { s with ie := v.getLsbD 3 }) := by
  rw [hostStep_ctrl]
  simp

/-- ABORT, WIPE and START of one write while busy: the run is aborted, and the next one starts on a wiped part. -/
theorem hostStep_ctrl_all {v : Word} {s : State} (busy : s.busy = true) (start : v.getLsbD 0 = true)
    (abort : v.getLsbD 1 = true) (wipes : v.getLsbD 2 = true) :
    hostStep (.csrWrite 0x018 4 v) s = .next (startRun (wipe (raise .aborted 0 { s with ie := v.getLsbD 3 }))) := by
  rw [hostStep_ctrl, start, abort, wipes, abortAction_true_of_busy (s := { s with ie := v.getLsbD 3 }) busy,
    wipeAction_true_of_idle rfl, startAction_true_of_idle rfl]

/-- Settles O48: the one write and the last of the three writes act alike, since each write stores the IE that stands. -/
theorem ctrlActionsInOrder : Obligations.CtrlActionsInOrder := by
  refine ⟨fun s v => ⟨_, _, _, hostStep_ctrl_abortBit v s, hostStep_ctrl_wipeBit v _, hostStep_ctrl_startBit v _, ?_⟩,
    fun s k => ?_, fun s v busy start abort wipes => ⟨_, hostStep_ctrl_all busy start abort wipes, rfl, rfl, rfl, rfl,
      toNat_entryWord s, rfl, registersZero_wipe _, read_wipe s.mem, rfl, rfl⟩⟩
  · have ie : (abortAction (v.getLsbD 1) { s with ie := v.getLsbD 3 }).ie = v.getLsbD 3 := abortAction_ie _ _
    rw [hostStep_ctrl, with_ie_eq_self ie, with_ie_eq_self ((wipeAction_ie _ _).trans ie)]
  · rw [csrValue_ctrl, getLsbD_bitAt _ (by decide)]
    by_cases h : k = 3 <;> simp [h]

/-! ## The memory port and the duties of the host (R78, R247) -/

theorem hostAccessOk_iff (s : State) (addr n : Nat) :
    hostAccessOk s addr n = true ↔ (n = 1 ∨ n = 2 ∨ n = 4) ∧ addr % n = 0 ∧ addr + n ≤ s.params.memBytes := by
  simp [hostAccessOk, or_assoc, and_assoc]

/-- The host keeps the duties of a memory access: it is idle, and the access is legal (R78). -/
def MemoryDutyKept (s : State) (addr n : Nat) : Prop := s.busy = false ∧ hostAccessOk s addr n = true

/-- The four ways to break the duties of a memory access are all of them. -/
theorem not_memoryDutyKept_iff (s : State) (addr n : Nat) :
    ¬ MemoryDutyKept s addr n
      ↔ s.busy = true ∨ ¬ (n = 1 ∨ n = 2 ∨ n = 4) ∨ addr % n ≠ 0 ∨ addr + n > s.params.memBytes := by
  rw [MemoryDutyKept, hostAccessOk_iff, not_and_or, not_and_or, not_and_or, Bool.not_eq_false, Nat.not_le]

/-- A duty-keeping read of memory gives the host the bytes, the first the lowest. -/
theorem hostStep_memRead {s : State} {addr n : Nat} (h : MemoryDutyKept s addr n) :
    hostStep (.memRead addr n) s = .next (reply (BitVec.ofNat 32 (leNat (s.mem.readBytes addr n))) s) := by
  obtain ⟨idle, ok⟩ := h
  simp [hostStep, hostMemRead, idle, ok]

/-- A duty-keeping write of memory stores the low bytes of the word. -/
theorem hostStep_memWrite {s : State} {addr n : Nat} (v : Word) (h : MemoryDutyKept s addr n) :
    hostStep (.memWrite addr n v) s = .next { s with mem := s.mem.writeBytes addr (toBytes n v.toNat) } := by
  obtain ⟨idle, ok⟩ := h
  simp [hostStep, hostMemWrite, idle, ok]

theorem hostStep_memRead_refused {s : State} {addr n : Nat} (h : ¬ MemoryDutyKept s addr n) :
    ∃ r, hostStep (.memRead addr n) s = .refused r := by
  cases busy : s.busy with
  | true => exact ⟨_, if_pos busy⟩
  | false =>
    have breach : ¬ hostAccessOk s addr n = true := fun ok => h ⟨busy, ok⟩
    exact ⟨.hostMemoryAccess, by simp [hostStep, hostMemRead, busy, breach]⟩

theorem hostStep_memWrite_refused {s : State} {addr n : Nat} (v : Word) (h : ¬ MemoryDutyKept s addr n) :
    ∃ r, hostStep (.memWrite addr n v) s = .refused r := by
  cases busy : s.busy with
  | true => exact ⟨_, if_pos busy⟩
  | false =>
    have breach : ¬ hostAccessOk s addr n = true := fun ok => h ⟨busy, ok⟩
    exact ⟨.hostMemoryAccess, by simp [hostStep, hostMemWrite, busy, breach]⟩

/-- Byte k of the number of little-endian bytes (R61). -/
theorem leNat_div_mod (bs : List Byte) (k : Nat) : leNat bs / 256 ^ k % 256 = (bs.getD k 0).toNat := by
  refine Nat.eq_of_testBit_eq fun j => ?_
  rw [show (256 : Nat) ^ k = 2 ^ (8 * k) by rw [Nat.pow_mul], show (256 : Nat) = 2 ^ 8 from rfl, Nat.testBit_mod_two_pow,
    Nat.testBit_div_two_pow, testBit_leNat, BitVec.testBit_toNat]
  by_cases hj : j < 8
  · rw [show (j + 8 * k) / 8 = k by omega, show (j + 8 * k) % 8 = j by omega, decide_eq_true hj, Bool.true_and]
  · rw [decide_eq_false hj, Bool.false_and, BitVec.getLsbD_of_ge _ _ (by omega)]

/-- A number of at most four bytes fits a word. -/
theorem toNat_ofNat_leNat {bs : List Byte} (h : bs.length ≤ 4) : (BitVec.ofNat 32 (leNat bs)).toNat = leNat bs := by
  have fits : leNat bs < 256 ^ 4 := (leNat_lt bs).trans_le (Nat.pow_le_pow_right (by decide) h)
  rw [BitVec.toNat_ofNat]
  exact Nat.mod_eq_of_lt fits

/-- Settles O57: a kept duty has the access's effect, and each breach is refused. -/
theorem hostMemoryPort : Obligations.HostMemoryPort := by
  refine ⟨fun s addr n v breach => ?_, fun s addr n v idle width aligned inRange => ?_⟩
  · have broken := (not_memoryDutyKept_iff s addr n).mpr breach
    obtain ⟨r, read⟩ := hostStep_memRead_refused broken
    obtain ⟨r', write⟩ := hostStep_memWrite_refused v broken
    exact ⟨r, r', read, write⟩
  · have kept : MemoryDutyKept s addr n := ⟨idle, (hostAccessOk_iff s addr n).mpr ⟨width, aligned, inRange⟩⟩
    have value : (BitVec.ofNat 32 (leNat (s.mem.readBytes addr n))).toNat = leNat (s.mem.readBytes addr n) :=
      toNat_ofNat_leNat (by rw [length_readBytes]; omega)
    refine ⟨⟨_, hostStep_memRead kept, ?_, fun k hk => ?_⟩, _, hostStep_memWrite v kept, rfl, fun k hk => ?_,
      fun a ha => read_writeBytes_outside _ _ _ _ (by rwa [length_toBytes])⟩
    · have bound := leNat_lt (s.mem.readBytes addr n)
      rwa [length_readBytes, ← value] at bound
    · rw [value, leNat_div_mod, readBytes_getD _ _ _ _ hk]
    · rw [read_writeBytes_toBytes _ _ _ _ _ hk, BitVec.toNat_ofNat]

/-- An access of the CSR window is refused or answers by its duty. -/
theorem hostStep_csr_dichotomy {ok : Bool} {duty : Prop} (h : ok = true ↔ duty) (t : State) (r : Refusal) :
    (¬ duty → ∃ r', (if ok then .next t else .refused r : Result) = .refused r')
      ∧ (¬ ¬ duty → ∃ t', (if ok then .next t else .refused r : Result) = .next t') :=
  ⟨fun breach => ⟨r, if_neg (mt h.mp breach)⟩, fun kept => ⟨t, if_pos (h.mpr (not_not.mp kept))⟩⟩

/-- A host step is refused where it breaks a duty and answers a next state where it keeps them (R247). -/
theorem hostStep_by_duty (a : HostAct) (s : State) :
    (BreaksDuty a s → ∃ r, hostStep a s = .refused r) ∧ (¬ BreaksDuty a s → ∃ t, hostStep a s = .next t) := by
  cases a with
  | csrRead offset width => exact hostStep_csr_dichotomy (csrAccessOk_iff offset width) _ _
  | csrWrite offset width v => exact hostStep_csr_dichotomy (csrAccessOk_iff offset width) _ _
  | memRead addr n =>
    refine ⟨fun breach => hostStep_memRead_refused ((not_memoryDutyKept_iff s addr n).mpr breach), fun kept => ?_⟩
    exact ⟨_, hostStep_memRead (not_not.mp (mt (not_memoryDutyKept_iff s addr n).mp kept))⟩
  | memWrite addr n v =>
    refine ⟨fun breach => hostStep_memWrite_refused v ((not_memoryDutyKept_iff s addr n).mpr breach), fun kept => ?_⟩
    exact ⟨_, hostStep_memWrite v (not_not.mp (mt (not_memoryDutyKept_iff s addr n).mp kept))⟩
  | reset => exact ⟨False.elim, fun _ => ⟨_, rfl⟩⟩

/-- Settles O58: a host turn is its step, a read of the window is the register's value, and the duties decide. -/
theorem hostTurnsAndDuties : Obligations.HostTurnsAndDuties :=
  ⟨fun _ _ _ turn => step_of_hostTurn turn, fun s _ aligned inside => hostStep_csrRead s aligned inside,
    hostStep_by_duty⟩

/-! ## Reset (R260, R262) -/

/-- Settles O59: every field but the parameters and the host's own is that of the state after reset. -/
theorem resetInputZeroesTheState : Obligations.ResetInput := fun s =>
  ⟨resetInput s, rfl, rfl, rfl, rfl, rfl, rfl, rfl, rfl, rfl, rfl, rfl, rfl, rfl,
    registersZero_resetState s.params (s.mem.epoch + 1), rfl, rfl, read_reset s.params (s.mem.epoch + 1)⟩

end Sys2Proof.Machine
end

section
/-!
PROOFS of the family other, the invariant: what each operation of the machine does to it, the ways a run ends and the state
each of them leaves, and the obligations O40, O41 and O43.
-/

namespace Sys2Proof.Machine

/-! ## What the invariant does not read -/

/-- The invariant does not read the agenda, the replies, IE, ENTRY or LOCK. -/
theorem Inv.congr {s t : State} (h : Inv s)
    (same : { t with agenda := s.agenda, replies := s.replies, ie := s.ie, entry := s.entry, lock := s.lock } = s) :
    Inv t := by
  rw [← same] at h
  obtain ⟨params, ⟨canonical, inside⟩, ⟨b, t, z⟩,
    ⟨exclusive, busyStatus, busyFault, doneFault, errCause, accel⟩, aligned, idleZero, idlePc⟩ := h
  exact ⟨params, ⟨canonical, inside⟩, ⟨b, t, z⟩,
    ⟨exclusive, busyStatus, busyFault, doneFault, errCause, accel⟩, aligned, idleZero, idlePc⟩

theorem inv_turnTaken {s : State} (h : Inv s) : Inv (turnTaken s) := h.congr rfl

theorem inv_reply {s : State} (h : Inv s) (v : Word) : Inv (reply v s) := h.congr rfl

/-! ## Reset -/

theorem inv_resetState {p : Params} (wf : p.WF) (epoch : Nat) : Inv (resetState p epoch) where
  params := wf
  mem := ⟨rfl, rfl⟩
  regs := registersWF_of_zero (registersZero_resetState p epoch)
  status := ⟨by simp [resetState], nofun, nofun, nofun, nofun, nofun⟩
  pc_aligned := rfl
  idle_zero _ := registersZero_resetState p epoch
  idle_pc _ := rfl

theorem inv_resetInput {s : State} (h : Inv s) : Inv (resetInput s) :=
  (inv_resetState h.params (s.mem.epoch + 1)).congr rfl

theorem wf_reference : Params.reference.WF := by
  constructor <;> norm_num [Params.reference]

/-- Settles O41: every part that meets the constraints meets the invariant after reset, and the reference one meets them. -/
theorem resetMeetsTheInvariant : Obligations.ResetMeetsTheInvariant :=
  ⟨inv_resetState wf_reference 0, fun _ epoch wf => inv_resetState wf epoch⟩

/-! ## The ends of a run -/

/-- Taking a fault of a real cause during a run keeps the invariant (R227). -/
theorem inv_raise {s : State} (h : Inv s) (busy : s.busy = true) {c : Cause} (hc : c ≠ .none) (info : Word) :
    Inv (raise c info s) where
  params := h.params
  mem := ⟨h.mem.canonical, h.mem.inside⟩
  regs := registersWF_raise c info s
  status := by
    obtain ⟨notDone, -⟩ := h.status.busy_status busy
    exact ⟨by simp [notDone], nofun, nofun, by simp [notDone], fun _ => hc, h.status.accel⟩
  pc_aligned := h.pc_aligned
  idle_zero _ := (raise_faultTaken c info s).zero
  idle_pc _ := rfl

/-- HALT during a run keeps the invariant (R51, R192). -/
theorem inv_endByHalt {s : State} (h : Inv s) (busy : s.busy = true) : Inv (endByHalt s) where
  params := h.params
  mem := ⟨h.mem.canonical, h.mem.inside⟩
  regs := registersWF_endByHalt s
  status := by
    obtain ⟨-, noErr⟩ := h.status.busy_status busy
    exact ⟨by simp [noErr], nofun, nofun, fun _ => h.status.busy_fault busy, by simp [noErr], h.status.accel⟩
  pc_aligned := h.pc_aligned
  idle_zero _ := (endByHalt_haltTaken s).zero
  idle_pc _ := rfl

/-! ## An instruction that completes -/

theorem changesData_completed (i : Instr) (s : State) : ChangesData s (completed i s) := by
  cases i <;> rfl

@[simp] theorem completed_params (i : Instr) (s : State) : (completed i s).params = s.params := by
  cases i <;> rfl

@[simp] theorem completed_busy (i : Instr) (s : State) : (completed i s).busy = s.busy := by
  cases i <;> rfl

/-- The status rules read no data. -/
theorem StatusWF.of_changesData {s t : State} (h : StatusWF s) (data : ChangesData s t) : StatusWF t := by
  rw [ChangesData] at data
  rw [← data] at h
  obtain ⟨exclusive, busyStatus, busyFault, doneFault, errCause, accel⟩ := h
  exact ⟨exclusive, busyStatus, busyFault, doneFault, errCause, accel⟩

/-- A store whose access is in range keeps memory in canonical form and inside the part (R60). -/
theorem memoryWF_completed {i : Instr} {s : State} (h : MemoryWF s) (noFault : faultOf i s = none) :
    MemoryWF (completed i s) := by
  match store : storeOf i s with
  | none =>
    have mem := mem_completed_of_storeOf_eq_none store
    exact ⟨by rw [mem]; exact h.canonical, by rw [mem, completed_params]; exact h.inside⟩
  | some (first, size) =>
    obtain ⟨mem, length, a, access, rfl, rfl⟩ := mem_completed_of_storeOf store
    obtain ⟨-, inRange⟩ := accessOk_of_faultOf_eq_none access noFault
    exact ⟨by rw [mem]; exact wf_writeBytes _ _ _ h.canonical,
      by rw [mem, completed_params]; exact inside_writeBytes _ _ _ _ h.inside (by rwa [length])⟩

/-- An instruction that completes during a run keeps the invariant: it changes data and the pc alone. -/
theorem inv_completed {i : Instr} {s : State} (h : Inv s) (busy : s.busy = true) (noFault : faultOf i s = none) :
    Inv (completed i s) where
  params := by rw [completed_params]; exact h.params
  mem := memoryWF_completed h.mem noFault
  regs := registersWF_completed i h.regs
  status := h.status.of_changesData (changesData_completed i s)
  pc_aligned := nextPc_aligned i h.pc_aligned
  idle_zero idle := by simp [busy] at idle
  idle_pc idle := by simp [busy] at idle

/-! ## The sequencer -/

theorem faultOf_ne_none_and_ne_aborted {i : Instr} {s : State} {c : Cause} {info : Word}
    (h : faultOf i s = some (c, info)) : c ≠ .none ∧ c ≠ .aborted := by
  cases access : accessOf i s with
  | some a =>
    rw [faultOf_of_accessOf access] at h
    split at h
    · cases h; exact ⟨nofun, nofun⟩
    · split at h
      · cases h; exact ⟨nofun, nofun⟩
      · exact nomatch h
  | none =>
    cases i
    case brotr d s1 s2 =>
      rw [faultOf_brotr] at h
      split at h
      · cases h; exact ⟨nofun, nofun⟩
      · exact nomatch h
    case lw | sw | sampb | bst | sampt | tst | rld | rst => exact nomatch access
    all_goals exact nomatch h

theorem fetch_fault_ne_none_and_ne_aborted {s : State} {c : Cause} {info : Word} (h : fetch s = .fault c info) :
    c ≠ .none ∧ c ≠ .aborted := by
  unfold fetch at h
  split at h
  · cases h; exact ⟨nofun, nofun⟩
  · split at h
    · exact nomatch h
    · cases h; exact ⟨nofun, nofun⟩

/-- Everything a sequencer turn of a run can do: take a fault of cause 1 to 5, end by HALT, or complete an instruction that
has no fault; `stepEnd` says which (R191, R192, R227). -/
theorem step_sequencer_cases {s t : State} (busy : s.busy = true) (turn : sequencerTurn s) (h : step s = .next t) :
    (∃ c info, stepEnd s = some (.fault c) ∧ c ≠ .none ∧ c ≠ .aborted ∧ t = raise c info (turnTaken s)) ∨
    (stepEnd s = some .halt ∧ t = endByHalt (turnTaken s)) ∨
    (∃ i, stepEnd s = none ∧ faultOf i (turnTaken s) = none ∧ t = completed i (turnTaken s)) := by
  rw [stepEnd_of_sequencerTurn turn]
  cases fetched : fetch s with
  | fault c info =>
    rw [step_of_fetch_fault busy turn fetched] at h
    obtain ⟨real, notAborted⟩ := fetch_fault_ne_none_and_ne_aborted fetched
    exact .inl ⟨c, info, by simp only [sequencerEnd, fetched], real, notAborted, (Host.Outcome.next.inj h).symm⟩
  | instr i =>
    have ending : sequencerEnd s = if i = .halt then some .halt else (faultOf i s).map fun f => .fault f.1 := by
      simp only [sequencerEnd, fetched]
    have agenda : faultOf i (turnTaken s) = faultOf i s := by cases i <;> rfl
    rw [step_of_fetch_instr busy turn fetched] at h
    rcases exec_cases i (turnTaken s) with ⟨c, info, fault, eq⟩ | ⟨-, rfl, eq⟩ | ⟨noFault, notHalt, -⟩
    · obtain ⟨real, notAborted⟩ := faultOf_ne_none_and_ne_aborted fault
      have notHalt : i ≠ .halt := by rintro rfl; exact nomatch fault
      rw [agenda] at fault
      exact .inl ⟨c, info, by rw [ending, if_neg notHalt, fault]; rfl, real, notAborted,
        (Host.Outcome.next.inj (eq.symm.trans h)).symm⟩
    · exact .inr (.inl ⟨ending, (Host.Outcome.next.inj (eq.symm.trans h)).symm⟩)
    · have eq := exec_of_completes noFault notHalt
      refine .inr (.inr ⟨i, ?_, noFault, (Host.Outcome.next.inj (eq.symm.trans h)).symm⟩)
      rw [ending, if_neg notHalt, ← agenda, noFault]
      rfl

theorem inv_step_sequencer {s t : State} (h : Inv s) (turn : sequencerTurn s) (hstep : step s = .next t) : Inv t := by
  have taken : Inv (turnTaken s) := inv_turnTaken h
  cases busy : s.busy with
  | false =>
    rw [idleSequencerChangesNothing s busy turn] at hstep
    exact Host.Outcome.next.inj hstep ▸ taken
  | true =>
    rcases step_sequencer_cases busy turn hstep with ⟨c, info, -, real, -, rfl⟩ | ⟨-, rfl⟩ | ⟨i, -, noFault, rfl⟩
    · exact inv_raise taken busy real info
    · exact inv_endByHalt taken busy
    · exact inv_completed taken busy noFault

/-! ## The host -/

/-- WIPE while idle keeps the invariant (R268). -/
theorem inv_wipe {s : State} (h : Inv s) (idle : s.busy = false) : Inv (wipe s) where
  params := h.params
  mem := ⟨wf_wipe _, inside_wipe _ _⟩
  regs := registersWF_of_zero (registersZero_wipe s)
  status := ⟨h.status.exclusive, h.status.busy_status, h.status.busy_fault, h.status.done_fault, h.status.err_cause,
    h.status.accel⟩
  pc_aligned := h.pc_aligned
  idle_zero _ := registersZero_wipe s
  idle_pc _ := h.idle_pc idle

/-- START keeps the invariant: it clears the status and takes an aligned pc (R49, R265). -/
theorem inv_startRun {s : State} (h : Inv s) : Inv (startRun s) where
  params := h.params
  mem := ⟨h.mem.canonical, h.mem.inside⟩
  regs := ⟨h.regs.b, h.regs.t, h.regs.z⟩
  status := ⟨by simp, fun _ => ⟨rfl, rfl⟩, fun _ => ⟨rfl, rfl, rfl⟩, nofun, nofun, h.status.accel⟩
  pc_aligned := entryWord_aligned s
  idle_zero := nofun
  idle_pc := nofun

theorem inv_writeCtrl {s : State} (h : Inv s) (v : Word) : Inv (writeCtrl v s) :=
  writeCtrl_induction v (h.congr rfl) (fun _ busy hu => inv_raise hu busy (c := .aborted) nofun 0)
    (fun _ idle hu => inv_wipe hu idle) fun _ _ hu => inv_startRun hu

/-- A write of CFG sets ACCEL_EN only where the part has the path (R46). -/
theorem inv_writeCfg {s : State} (h : Inv s) (v : Word) : Inv (writeCfg v s) := by
  unfold writeCfg
  split
  · exact h
  · obtain ⟨exclusive, busyStatus, busyFault, doneFault, errCause, -⟩ := h.status
    exact ⟨h.params, ⟨h.mem.canonical, h.mem.inside⟩, ⟨h.regs.b, h.regs.t, h.regs.z⟩,
      ⟨exclusive, busyStatus, busyFault, doneFault, errCause, fun on => ((Bool.and_eq_true _ _).mp on).2⟩,
      h.pc_aligned, h.idle_zero, h.idle_pc⟩

/-- A write of STATUS only clears (R48). -/
theorem inv_writeStatus {s : State} (h : Inv s) (v : Word) : Inv (writeStatus v s) := by
  have wasDone (on : (writeStatus v s).done = true) : s.done = true := ((Bool.and_eq_true _ _).mp on).1
  have wasErr (on : (writeStatus v s).err = true) : s.err = true := ((Bool.and_eq_true _ _).mp on).1
  refine ⟨h.params, ⟨h.mem.canonical, h.mem.inside⟩, ⟨h.regs.b, h.regs.t, h.regs.z⟩, ?_, h.pc_aligned, h.idle_zero,
    h.idle_pc⟩
  refine ⟨fun ⟨done, err⟩ => h.status.exclusive ⟨wasDone done, wasErr err⟩, fun busy => ?_, h.status.busy_fault,
    fun done => h.status.done_fault (wasDone done), fun err => h.status.err_cause (wasErr err), h.status.accel⟩
  obtain ⟨notDone, noErr⟩ := h.status.busy_status busy
  exact ⟨Bool.eq_false_iff.mpr fun on => by simp [wasDone on] at notDone,
    Bool.eq_false_iff.mpr fun on => by simp [wasErr on] at noErr⟩

theorem inv_writeEntry {s : State} (h : Inv s) (v : Word) : Inv (writeEntry v s) := by
  unfold writeEntry
  split
  · exact h
  · exact h.congr rfl

theorem inv_csrUpdate {s : State} (h : Inv s) (offset : Nat) (v : Word) : Inv (csrUpdate offset v s) := by
  rcases csrUpdate_cases offset v s with ⟨-, eq⟩ | ⟨-, eq⟩ | ⟨-, eq⟩ | ⟨-, eq⟩ | ⟨-, eq⟩ <;> rw [eq]
  exacts [inv_writeCfg h v, inv_writeCtrl h v, inv_writeStatus h v, inv_writeEntry h v, h]

/-- A duty-keeping write of memory stays inside it (R60, R78). -/
theorem inv_hostMemWrite {s : State} (h : Inv s) {addr n : Nat} (ok : hostAccessOk s addr n = true) (v : Word) :
    Inv { s with mem := s.mem.writeBytes addr (toBytes n v.toNat) } := by
  obtain ⟨-, -, inRange⟩ := (hostAccessOk_iff s addr n).mp ok
  obtain ⟨exclusive, busyStatus, busyFault, doneFault, errCause, accel⟩ := h.status
  have inside : (s.mem.writeBytes addr (toBytes n v.toNat)).inside s.params.memBytes = true :=
    inside_writeBytes _ _ _ _ h.mem.inside (by rwa [length_toBytes])
  exact ⟨h.params, ⟨wf_writeBytes _ _ _ h.mem.canonical, inside⟩,
    ⟨h.regs.b, h.regs.t, h.regs.z⟩, ⟨exclusive, busyStatus, busyFault, doneFault, errCause, accel⟩, h.pc_aligned,
    h.idle_zero, h.idle_pc⟩

theorem inv_hostStep {a : HostAct} {s t : State} (h : Inv s) (hstep : hostStep a s = .next t) : Inv t := by
  rcases hostStep_cases hstep with ⟨_, _, -, -, rfl⟩ | ⟨offset, _, v, -, -, rfl⟩ | ⟨_, _, -, -, -, rfl⟩ |
    ⟨_, _, v, -, -, ok, rfl⟩ | ⟨-, rfl⟩
  · exact inv_reply h _
  · exact inv_csrUpdate h offset v
  · exact inv_reply h _
  · exact inv_hostMemWrite h ok v
  · exact inv_resetInput h

/-- Settles O40: a turn is the sequencer's or the host's, and every operation of either keeps the invariant. -/
theorem everyStepKeepsTheInvariant : Obligations.EveryStepKeepsTheInvariant := by
  intro s t h hstep
  rcases sequencerTurn_or_hostTurn s with turn | ⟨a, rest, turn⟩
  · exact inv_step_sequencer h turn hstep
  · rw [step_of_hostTurn turn] at hstep
    exact inv_hostStep (inv_turnTaken h) hstep

/-! ## The state a run leaves, by its end (R248, R266) -/

/-- What a step of a run leaves, by the end `stepEnd` names. -/
def LeftBy (e : Option RunEnd) (t : State) : Prop :=
  match e with
  | none => t.busy = true
  | some .halt => registersZero t ∧ t.busy = false ∧ t.done = true ∧ t.err = false ∧ t.errCause = .none
  | some (.fault c) => registersZero t
      ∧ t.busy = false ∧ t.done = false ∧ t.err = true ∧ t.errCause = c ∧ c ≠ .none ∧ c ≠ .aborted
  | some .abort => registersZero t ∧ t.done = false ∧ (t.busy = false → t.err = true ∧ t.errCause = .aborted)
  | some .reset => t.busy = false ∧ t.done = false ∧ t.err = false

theorem leftBy_step_sequencer {s t : State} (h : Inv s) (busy : s.busy = true) (turn : sequencerTurn s)
    (hstep : step s = .next t) : LeftBy (stepEnd s) t := by
  obtain ⟨notDone, noErr⟩ := h.status.busy_status busy
  obtain ⟨noCause, -⟩ := h.status.busy_fault busy
  rcases step_sequencer_cases busy turn hstep with ⟨c, info, ending, real, notAborted, rfl⟩ | ⟨ending, rfl⟩ |
    ⟨i, ending, -, rfl⟩ <;> rw [ending]
  · exact ⟨(raise_faultTaken c info _).zero, rfl, notDone, rfl, rfl, real, notAborted⟩
  · exact ⟨(endByHalt_haltTaken _).zero, rfl, rfl, noErr, noCause⟩
  · exact (completed_busy i _).trans busy

/-- An ABORT during a run zeroes the registers and takes the fault ABORTED, unless the same write starts the next run. -/
theorem leftBy_writeCtrl_abort {s : State} (notDone : s.done = false) (busy : s.busy = true) {v : Word}
    (abort : v.getLsbD 1 = true) : LeftBy (some .abort) (writeCtrl v s) := by
  have aborted : LeftBy (some .abort) (raise .aborted 0 { s with ie := v.getLsbD 3 }) :=
    ⟨(raise_faultTaken .aborted 0 _).zero, notDone, fun _ => ⟨rfl, rfl⟩⟩
  rw [writeCtrl, abort, abortAction_true_of_busy (s := { s with ie := v.getLsbD 3 }) busy]
  generalize raise .aborted 0 { s with ie := v.getLsbD 3 } = u at aborted
  have wiped : LeftBy (some .abort) (wipeAction (v.getLsbD 2) u) := by
    rcases wipeAction_cases (v.getLsbD 2) u with ⟨-, -, eq⟩ | ⟨-, eq⟩ <;> rw [eq]
    · exact ⟨registersZero_wipe u, aborted.2⟩
    · exact aborted
  generalize wipeAction (v.getLsbD 2) u = w at wiped
  rcases startAction_cases (v.getLsbD 0) w with ⟨-, -, eq⟩ | ⟨-, eq⟩ <;> rw [eq]
  · exact ⟨wiped.1, rfl, nofun⟩
  · exact wiped

/-- A write of CTRL without the ABORT bit leaves a run in progress: the other actions need an idle part (R47). -/
theorem writeCtrl_of_busy {s : State} (busy : s.busy = true) {v : Word} (noAbort : v.getLsbD 1 = false) :
    writeCtrl v s = { s with ie := v.getLsbD 3 } := by
  rw [writeCtrl, noAbort, abortAction_false, wipeAction_of_busy _ (s := { s with ie := v.getLsbD 3 }) busy,
    startAction_of_busy _ (s := { s with ie := v.getLsbD 3 }) busy]

/-- A write of the window during a run ends it by ABORT or leaves it in progress. -/
theorem leftBy_csrUpdate {s : State} (h : Inv s) (busy : s.busy = true) (offset : Nat) (v : Word) :
    LeftBy (hostEnd (.csrWrite offset 4 v)) (csrUpdate offset v s) := by
  obtain ⟨notDone, -⟩ := h.status.busy_status busy
  by_cases ctrl : offset = 0x018
  · subst ctrl
    cases abort : v.getLsbD 1 with
    | true =>
      rw [hostEnd, if_pos ⟨rfl, rfl, abort⟩]
      exact leftBy_writeCtrl_abort notDone busy abort
    | false =>
      rw [hostEnd, if_neg fun ⟨_, _, on⟩ => Bool.false_ne_true (abort.symm.trans on), csrUpdate_ctrl,
        writeCtrl_of_busy busy abort]
      exact busy
  · rw [hostEnd, if_neg (by simp [ctrl])]
    rcases csrUpdate_cases offset v s with ⟨-, eq⟩ | ⟨eq, -⟩ | ⟨-, eq⟩ | ⟨-, eq⟩ | ⟨-, eq⟩
    case inr.inl => exact absurd eq ctrl
    all_goals rw [eq]
    · rw [writeCfg_of_locked_or_busy v (.inr busy)]
      exact busy
    · exact busy
    · rw [writeEntry_of_busy v busy]
      exact busy
    · exact busy

theorem leftBy_hostStep {a : HostAct} {s t : State} (h : Inv s) (busy : s.busy = true) (hstep : hostStep a s = .next t) :
    LeftBy (hostEnd a) t := by
  rcases hostStep_cases hstep with ⟨_, _, rfl, -, rfl⟩ | ⟨offset, width, v, rfl, ok, rfl⟩ | ⟨_, _, -, idle, -⟩ |
    ⟨_, _, _, -, idle, -⟩ | ⟨rfl, rfl⟩
  · exact busy
  · obtain ⟨rfl, -⟩ := (csrAccessOk_iff offset width).mp ok
    exact leftBy_csrUpdate h busy offset v
  · simp [busy] at idle
  · simp [busy] at idle
  · exact ⟨rfl, rfl, rfl⟩

/-- A step of a run leaves what its end says, or a run in progress where it is no end. -/
theorem leftBy_step {s t : State} (h : Inv s) (busy : s.busy = true) (hstep : step s = .next t) :
    LeftBy (stepEnd s) t := by
  rcases sequencerTurn_or_hostTurn s with turn | ⟨a, rest, turn⟩
  · exact leftBy_step_sequencer h busy turn hstep
  · rw [step_of_hostTurn turn] at hstep
    rw [stepEnd_of_hostTurn turn]
    exact leftBy_hostStep (inv_turnTaken h) busy hstep

/-- Only the reset input ends a run by reset. -/
theorem agenda_of_stepEnd_reset {s : State} (h : stepEnd s = some .reset) : ∃ rest, s.agenda = .host .reset :: rest := by
  rcases sequencerTurn_or_hostTurn s with turn | ⟨a, rest, turn⟩
  · rw [stepEnd_of_sequencerTurn turn, sequencerEnd] at h
    split at h
    · exact nomatch h
    · split at h
      · exact nomatch h
      · obtain ⟨f, -, eq⟩ := Option.map_eq_some_iff.mp h
        exact nomatch eq
  · rw [stepEnd_of_hostTurn turn] at h
    cases a
    case reset => exact ⟨rest, turn⟩
    case csrWrite offset width v =>
      rw [hostEnd] at h
      split at h <;> exact nomatch h
    all_goals exact nomatch h

/-- Every end but reset leaves exactly one of DONE and ERR, zero registers, and a cause where ERR is 1 (R248). -/
theorem LeftBy.status {e : Option RunEnd} {t : State} (h : LeftBy e t) (ended : t.busy = false)
    (notReset : e ≠ some .reset) :
    (t.done = !t.err) ∧ registersZero t ∧ (t.err = true ↔ t.errCause ≠ .none) := by
  match e, h with
  | none, busy => exact absurd (ended.symm.trans busy) Bool.false_ne_true
  | some .halt, ⟨zero, _, done, noErr, noCause⟩ => simp [zero, done, noErr, noCause]
  | some (.fault c), ⟨zero, _, notDone, err, cause, real, _⟩ => simp [zero, notDone, err, cause, real]
  | some .abort, ⟨zero, notDone, aborted⟩ =>
    obtain ⟨err, cause⟩ := aborted ended
    simp [zero, notDone, err, cause]
  | some .reset, _ => exact absurd rfl notReset

/-- Settles O43: each end leaves its own status, and each but reset leaves one status bit and zero registers. -/
theorem runEndState : Obligations.RunEndState := by
  intro s t inv hstep busy
  have left := leftBy_step inv busy hstep
  refine ⟨fun ended notReset => left.status ended fun reset => ?_, fun ending => ?_, fun ending => ?_, fun c ending => ?_,
    fun ending => ?_, fun ending => ?_⟩
  · obtain ⟨rest, turn⟩ := agenda_of_stepEnd_reset reset
    exact notReset rest turn
  all_goals rw [ending] at left
  · exact left
  · exact left.2
  · exact left.2
  · exact left
  · exact left

end Sys2Proof.Machine
end

section
/-!
PROOFS of the family other, constant time: what two publicly equal states share at a fetch, an access, a fault and a step of
either agent, the trace of a run by its steps, and the obligation O42.
-/

namespace Sys2Proof.Machine

section PublicEquality

variable {sec : Secrets} {s s' : State} (h : PublicEq sec s s')
include h

/-! ## Updates that do not touch secrets -/

/-- An update that neither reads nor writes the registers and memory keeps public equality. -/
theorem PublicEq.update {f : State → State}
    (hf : ∀ u x b t z mem, f { u with x := x, b := b, t := t, z := z, mem := mem }
      = { f u with x := x, b := b, t := t, z := z, mem := mem }) : PublicEq sec (f s) (f s') := by
  have data (u : State) : f u = { f u with x := u.x, b := u.b, t := u.t, z := u.z, mem := u.mem } :=
    hf u u.x u.b u.t u.z u.mem
  refine ⟨?_, fun r hr => ?_, fun a ha => ?_⟩
  · conv_rhs => rw [← h.rest, hf]
    rw [data s]
  · rw [data s, data s']
    exact h.x r hr
  · rw [data s, data s']
    exact h.mem a ha

theorem publicEq_turnTaken : PublicEq sec (turnTaken s) (turnTaken s') := h.update fun _ _ _ _ _ _ => rfl

theorem PublicEq.accelEn_eq : s'.accelEn = s.accelEn := by
  rw [h.eq_update]

/-! ## The ends of a run -/

/-- Two faults of one cause leave states that differ at most in memory and in the info. -/
theorem publicEq_raise (c : Cause) (info info' : Word) :
    PublicEq sec (raise c info s) { raise c info' s' with errInfo := info } where
  rest := by
    rw [h.eq_update]
    rfl
  x r _ := (getX_raise c info' s' r).trans (getX_raise c info s r).symm
  mem := h.mem

theorem publicEq_endByHalt : PublicEq sec (endByHalt s) (endByHalt s') where
  rest := by
    rw [h.eq_update]
    rfl
  x r _ := (getX_endByHalt s' r).trans (getX_endByHalt s r).symm
  mem := h.mem

/-! ## The fetch -/

/-- Where no fetched byte differs, the fetch reads the same bytes. -/
theorem PublicEq.fetchBytes_eq (d : Discreet sec s s') : fetchBytes s' = fetchBytes s := by
  rw [fetchBytes, fetchBytes, h.pc_eq]
  refine readBytes_congr fun k hk => ?_
  by_cases secret : sec.mem (s.pc.toNat + k)
  · exact d.fetched k hk secret
  · exact h.mem _ secret

theorem PublicEq.fetchWord_eq (d : Discreet sec s s') : fetchWord s' = fetchWord s := by
  rw [fetchWord, fetchWord, h.fetchBytes_eq d]

theorem PublicEq.fetch_eq (d : Discreet sec s s') : fetch s' = fetch s := by
  rw [fetch, fetch, h.fetchBytes_eq d, h.fetchWord_eq d, h.pc_eq, h.params_eq]

end PublicEquality

/-! ## One instruction on two publicly equal states -/

/-- The operands of an instruction that a discreet step keeps public: its base, its counter, and whether its shift exceeds
N. -/
structure PublicOperands (sec : Secrets) (i : Instr) (s s' : State) : Prop where
  base : ∀ r, baseOf i = some r → ¬ sec.x r
  counter : ∀ d imm, i = .djnz d imm → ¬ sec.x d
  shift : ∀ d s1 s2, i = .brotr d s1 s2 → ((getX s s2).toNat ≤ s.params.n ↔ (getX s' s2).toNat ≤ s.params.n)

theorem Discreet.publicOperands {sec : Secrets} {s s' : State} (d : Discreet sec s s') {i : Instr}
    (fetched : fetch s = .instr i) : PublicOperands sec i s s' :=
  ⟨fun r => d.base i r fetched, fun r imm eq => d.counter r imm (eq ▸ fetched),
    fun r s1 s2 eq => d.shift r s1 s2 (eq ▸ fetched)⟩

section OneInstruction

variable {sec : Secrets} {s s' : State} (h : PublicEq sec s s') {i : Instr} (operands : PublicOperands sec i s s')
include h operands

/-- The effective address is the same, since it comes from a base that is not secret. -/
theorem effAddr_publicEq {r : XReg} (base : baseOf i = some r) (imm : BitVec 16) : effAddr s' r imm = effAddr s r imm := by
  rw [effAddr, effAddr, h.x r (operands.base r base)]

/-- The access is the same, since its address is. -/
theorem accessOf_publicEq : accessOf i s' = accessOf i s := by
  cases i
  case lw d s1 imm | sw s1 s2 imm | sampb d s1 imm | bst s1 s2 imm | sampt d s1 imm | tst s1 s2 imm | rld d s1 imm |
      rst s1 s2 imm => simp only [accessOf, effAddr_publicEq h operands rfl imm, h.params_eq]
  all_goals rfl

/-- The fault is the same but for the info of OPERAND_RANGE. -/
theorem faultOf_publicEq :
    (faultOf i s').map Prod.fst = (faultOf i s).map Prod.fst
      ∧ ((faultOf i s).map Prod.fst ≠ some .operandRange → faultOf i s' = faultOf i s) := by
  have same (eq : faultOf i s' = faultOf i s) : (faultOf i s').map Prod.fst = (faultOf i s).map Prod.fst
      ∧ ((faultOf i s).map Prod.fst ≠ some .operandRange → faultOf i s' = faultOf i s) :=
    ⟨congrArg (Option.map Prod.fst) eq, fun _ => eq⟩
  cases access : accessOf i s with
  | some a =>
    have access' := (accessOf_publicEq h operands).trans access
    exact same (by rw [faultOf_of_accessOf access, faultOf_of_accessOf access', h.params_eq])
  | none =>
    cases i
    case brotr d s1 s2 =>
      have shift := operands.shift d s1 s2 rfl
      rw [faultOf_brotr, faultOf_brotr, h.params_eq]
      by_cases le : (getX s s2).toNat ≤ s.params.n
      · rw [if_neg (Nat.not_lt.mpr le), if_neg (Nat.not_lt.mpr (shift.mp le))]
        exact ⟨rfl, fun _ => rfl⟩
      · rw [if_pos (Nat.lt_of_not_le le), if_pos (Nat.lt_of_not_le (mt shift.mpr le))]
        exact ⟨rfl, fun other => absurd rfl other⟩
    case lw | sw | sampb | bst | sampt | tst | rld | rst => exact nomatch access
    all_goals exact same rfl

theorem faultOf_eq_none_publicEq : faultOf i s' = none ↔ faultOf i s = none := by
  rw [← Option.map_eq_none_iff (f := Prod.fst), (faultOf_publicEq h operands).1, Option.map_eq_none_iff]

/-- The bytes an instruction stores to are the same, since its address is. -/
theorem storesTo_publicEq (a : Nat) : storesTo i s' a ↔ storesTo i s a := by
  have store : storeOf i s' = storeOf i s := by
    cases i
    case sw s1 s2 imm | bst s1 s2 imm | tst s1 s2 imm | rst s1 s2 imm =>
      simp only [storeOf, effAddr_publicEq h operands rfl imm, h.params_eq]
    all_goals rfl
  rw [storesTo, storesTo, store]

/-- The next pc is the same, since a DJNZ counter is public. -/
theorem nextPc_publicEq : nextPc i s' = nextPc i s := by
  cases i
  case djnz d imm => simp only [nextPc, h.pc_eq, h.x d (operands.counter d imm rfl)]
  all_goals simp only [nextPc, h.pc_eq]

/-- Every X register that is not secret after the instruction has the same value. -/
theorem getX_completed_publicEq {r : XReg} (hr : ¬ xSecretAfter sec i s s' r) :
    getX (completed i s') r = getX (completed i s) r := by
  have write {d : XReg} {v v' : Word} (hv : r = d → v' = v) (other : r ≠ d → ¬ sec.x r) :
      getX (setX d v' s') r = getX (setX d v s) r := by
    rw [getX_setX, getX_setX]
    by_cases eq : r = d
    · rw [if_pos eq, if_pos eq, hv eq]
    · rw [if_neg eq, if_neg eq, h.x r (other eq)]
  cases i
  case li d imm => exact write (fun _ => rfl) fun ne secret => hr ⟨ne, secret⟩
  case lui d imm => exact write (fun _ => rfl) fun ne secret => hr ⟨ne, secret⟩
  case addi d s1 imm =>
    rw [xSecretAfter] at hr
    refine write (fun eq => ?_) fun ne => by rwa [if_neg ne] at hr
    rw [if_pos eq] at hr
    rw [h.x s1 hr]
  case lw d s1 imm =>
    rw [xSecretAfter] at hr
    refine write (fun eq => ?_) fun ne => by rwa [if_neg ne] at hr
    rw [if_pos eq] at hr
    have address : effAddr s' s1 imm = effAddr s s1 imm := effAddr_publicEq h operands rfl imm
    have bytes : loadBytes s' (effAddr s s1 imm) 4 = loadBytes s (effAddr s s1 imm) 4 := by
      refine readBytes_congr fun k hk => ?_
      by_contra differ
      exact hr ⟨k, hk, not_not.mp fun notSecret => differ (h.mem _ notSecret), differ⟩
    rw [address, bytes]
  case djnz d imm =>
    refine write (fun _ => ?_) fun _ => hr
    rw [h.x d (operands.counter d imm rfl)]
  all_goals exact h.x r hr

/-- Every byte that is not secret after the instruction has the same value. -/
theorem read_completed_publicEq {a : Nat} (ha : ¬ memSecretAfter sec i s a) :
    (completed i s').mem.read a = (completed i s).mem.read a := by
  rw [memSecretAfter, not_or] at ha
  obtain ⟨stored, kept⟩ := ha
  by_cases stores : storesTo i s a
  · have publicWord : ∃ s1 s2 imm, i = .sw s1 s2 imm ∧ ¬ sec.x s2 := by
      by_contra none
      exact stored ⟨stores, fun s1 s2 imm eq => not_not.mp fun notSecret => none ⟨s1, s2, imm, eq, notSecret⟩⟩
    obtain ⟨s1, s2, imm, rfl, notSecret⟩ := publicWord
    obtain ⟨first, size, store, low, high⟩ := stores
    cases store
    obtain ⟨k, rfl⟩ := Nat.exists_eq_add_of_le low
    have hk : k < 4 := by omega
    have address : effAddr s' s1 imm = effAddr s s1 imm := effAddr_publicEq h operands rfl imm
    have written (u : State) : (completed (.sw s1 s2 imm) u).mem
        = u.mem.writeBytes (effAddr u s1 imm).toNat (toBytes 4 (getX u s2).toNat) := rfl
    rw [written, written, address, h.x s2 notSecret, read_writeBytes_toBytes _ _ _ _ _ hk,
      read_writeBytes_toBytes _ _ _ _ _ hk]
  · have notSecret : ¬ sec.mem a := fun secret => kept ⟨stores, secret⟩
    rw [read_completed_of_not_storesTo stores,
      read_completed_of_not_storesTo (mt (storesTo_publicEq h operands a).mp stores), h.mem a notSecret]

/-- An instruction that completes on both states leaves public equality, with the secrets it has moved. -/
theorem publicEq_completed :
    PublicEq ⟨xSecretAfter sec i s s', memSecretAfter sec i s⟩ (completed i s) (completed i s') where
  rest := by
    have update (u : State) : completed i u = { u with
        pc := nextPc i u, x := (completed i u).x, b := (completed i u).b, t := (completed i u).t, z := (completed i u).z
        mem := (completed i u).mem } := by cases i <;> rfl
    rw [update s', nextPc_publicEq h operands, h.eq_update, update s]
  x _ := getX_completed_publicEq h operands
  mem _ := read_completed_publicEq h operands

end OneInstruction

/-! ## A sequencer step on two publicly equal states -/

theorem exec_of_faultOf {i : Instr} {s : State} {c : Cause} {info : Word} (h : faultOf i s = some (c, info)) :
    exec i s = .next (raise c info s) := by
  rcases exec_cases i s with ⟨c', info', fault, eq⟩ | ⟨noFault, -⟩ | ⟨noFault, -⟩
  · cases h.symm.trans fault
    exact eq
  · exact nomatch h.symm.trans noFault
  · exact nomatch h.symm.trans noFault

@[simp] theorem faultOf_turnTaken (i : Instr) (s : State) : faultOf i (turnTaken s) = faultOf i s := by
  cases i <;> rfl

theorem completed_turnTaken (i : Instr) (s : State) : completed i (turnTaken s) = turnTaken (completed i s) := by
  cases i <;> rfl

theorem sequencerEnd_of_fetch_fault {s : State} {c : Cause} {info : Word} (h : fetch s = .fault c info) :
    sequencerEnd s = some (.fault c) := by
  rw [sequencerEnd, h]

theorem sequencerEnd_of_fetch_instr {s : State} {i : Instr} (h : fetch s = .instr i) :
    sequencerEnd s = if i = .halt then some .halt else (faultOf i s).map fun f => .fault f.1 := by
  rw [sequencerEnd, h]

theorem sequencerSecrets_of_fetch_fault {sec : Secrets} {s : State} (s' : State) {c : Cause} {info : Word}
    (h : fetch s = .fault c info) : sequencerSecrets sec s s' = sec := by
  rw [sequencerSecrets, h]

theorem sequencerSecrets_of_fetch_instr {sec : Secrets} {s : State} (s' : State) {i : Instr} (h : fetch s = .instr i) :
    sequencerSecrets sec s s'
      = if faultOf i s = none then ⟨xSecretAfter sec i s s', memSecretAfter sec i s⟩ else sec := by
  rw [sequencerSecrets, h]

/-- What a sequencer step from two publicly equal states leaves: next states that are publicly equal again, or differ in
the info of an OPERAND_RANGE fault as well. -/
def StaysPublicEq (sec : Secrets) (s s' : State) : Prop :=
  ∃ t t', step s = .next t ∧ step s' = .next t' ∧ PublicEq (secretsAfter sec s s') t { t' with errInfo := t.errInfo }
    ∧ (stepEnd s ≠ some (.fault .operandRange) → t'.errInfo = t.errInfo)

section SequencerStep

variable {sec : Secrets} {s s' : State} (h : PublicEq sec s s')
include h

/-- It is the sequencer's turn in both states. -/
theorem sequencerTurn_publicEq (turn : sequencerTurn s) : sequencerTurn s' := by
  rwa [sequencerTurn, h.agenda_eq]

variable (d : Discreet sec s s')
include d

/-- A discreet step shows the same observation (R276). -/
theorem observe_publicEq : observe s' = observe s := by
  by_cases outOfRange : s.pc.toNat + 4 > s.params.memBytes
  · rw [observe, observe, h.pc_eq, h.params_eq, if_pos outOfRange, if_pos outOfRange]
  · rw [observe, observe, h.pc_eq, h.params_eq, if_neg outOfRange, if_neg outOfRange, h.fetch_eq d, h.fetchWord_eq d]
    cases fetched : fetch s with
    | fault c info => rfl
    | instr i =>
      have operands := d.publicOperands fetched
      have latency : latencyOf s' i = latencyOf s i := by
        rw [latencyOf, latencyOf, h.params_eq, h.accelEn_eq]
      simp only [accessOf_publicEq h operands, faultOf_eq_none_publicEq h operands, latency]

/-- A discreet step ends the run alike. -/
theorem sequencerEnd_publicEq : sequencerEnd s' = sequencerEnd s := by
  cases fetched : fetch s with
  | fault c info =>
    rw [sequencerEnd_of_fetch_fault fetched, sequencerEnd_of_fetch_fault ((h.fetch_eq d).trans fetched)]
  | instr i =>
    obtain ⟨cause, -⟩ := faultOf_publicEq h (d.publicOperands fetched)
    have ending : ((faultOf i s').map Prod.fst).map RunEnd.fault = ((faultOf i s).map Prod.fst).map RunEnd.fault := by
      rw [cause]
    rw [Option.map_map, Option.map_map] at ending
    rw [sequencerEnd_of_fetch_instr fetched, sequencerEnd_of_fetch_instr ((h.fetch_eq d).trans fetched)]
    exact congrArg (ite (i = .halt) (some .halt)) ending

theorem stepEnd_publicEq (turn : sequencerTurn s) : stepEnd s' = stepEnd s := by
  rw [stepEnd_of_sequencerTurn turn, stepEnd_of_sequencerTurn (sequencerTurn_publicEq h turn), sequencerEnd_publicEq h d]

/-- A fetch that faults takes the same fault on both sides. -/
theorem staysPublicEq_of_fetch_fault (busy : s.busy = true) (turn : sequencerTurn s) {c : Cause} {info : Word}
    (fetched : fetch s = .fault c info) : StaysPublicEq sec s s' := by
  have fetched' := (h.fetch_eq d).trans fetched
  refine ⟨_, _, step_of_fetch_fault busy turn fetched,
    step_of_fetch_fault (h.busy_eq.trans busy) (sequencerTurn_publicEq h turn) fetched', ?_, fun _ => rfl⟩
  rw [secretsAfter_of_sequencerTurn sec s' turn, sequencerSecrets_of_fetch_fault s' fetched]
  exact publicEq_raise (publicEq_turnTaken h) c info info

section Fetched

variable (busy : s.busy = true) (turn : sequencerTurn s) {i : Instr} (fetched : fetch s = .instr i)
include busy turn fetched

/-- The step of both states is the execution of the one fetched instruction. -/
theorem staysPublicEq_of_exec {t t' : State} (run : exec i (turnTaken s) = .next t)
    (run' : exec i (turnTaken s') = .next t')
    (related : PublicEq (if faultOf i s = none then ⟨xSecretAfter sec i s s', memSecretAfter sec i s⟩ else sec) t
      { t' with errInfo := t.errInfo })
    (errInfo : (faultOf i s).map Prod.fst ≠ some .operandRange → t'.errInfo = t.errInfo) : StaysPublicEq sec s s' := by
  have turn' := sequencerTurn_publicEq h turn
  refine ⟨t, t', (step_of_fetch_instr busy turn fetched).trans run,
    (step_of_fetch_instr (h.busy_eq.trans busy) turn' ((h.fetch_eq d).trans fetched)).trans run', ?_,
    fun other => errInfo fun range => other ?_⟩
  · rwa [secretsAfter_of_sequencerTurn sec s' turn, sequencerSecrets_of_fetch_instr s' fetched]
  · obtain ⟨f, fault, cause⟩ := Option.map_eq_some_iff.mp range
    have notHalt : i ≠ .halt := by rintro rfl; exact nomatch fault
    rw [stepEnd_of_sequencerTurn turn, sequencerEnd_of_fetch_instr fetched, if_neg notHalt, fault, ← cause]
    rfl

/-- An instruction that faults takes the fault of one cause on both sides. -/
theorem staysPublicEq_of_fault {c : Cause} {info : Word} (fault : faultOf i s = some (c, info)) :
    StaysPublicEq sec s s' := by
  obtain ⟨cause, sameFault⟩ := faultOf_publicEq h (d.publicOperands fetched)
  rw [fault] at cause sameFault
  obtain ⟨⟨c', info'⟩, fault', rfl⟩ := Option.map_eq_some_iff.mp cause
  refine staysPublicEq_of_exec h d busy turn fetched (exec_of_faultOf ((faultOf_turnTaken i s).trans fault))
    (exec_of_faultOf ((faultOf_turnTaken i s').trans fault')) ?_ fun other => ?_
  · rw [fault, if_neg nofun]
    exact publicEq_raise (publicEq_turnTaken h) _ info info'
  · rw [fault] at other
    cases fault'.symm.trans (sameFault other)
    rfl

/-- An instruction that faults on neither side, HALT among them, moves its secrets on both. -/
theorem staysPublicEq_of_noFault (noFault : faultOf i s = none) {t t' : State} (run : exec i (turnTaken s) = .next t)
    (run' : exec i (turnTaken s') = .next t')
    (related : PublicEq ⟨xSecretAfter sec i s s', memSecretAfter sec i s⟩ t t') : StaysPublicEq sec s s' := by
  have errInfo : t'.errInfo = t.errInfo := by rw [related.eq_update]
  refine staysPublicEq_of_exec h d busy turn fetched run run' ?_ fun _ => errInfo
  rwa [if_pos noFault, ← errInfo]

theorem staysPublicEq_of_fetch_instr : StaysPublicEq sec s s' := by
  have operands := d.publicOperands fetched
  match fault : faultOf i s with
  | some (c, info) => exact staysPublicEq_of_fault h d busy turn fetched fault
  | none =>
    by_cases halt : i = .halt
    · subst halt
      have ended := publicEq_endByHalt (publicEq_turnTaken h)
      have noStore (a : Nat) : ¬ storesTo .halt s a := fun ⟨_, _, store, _⟩ => nomatch store
      exact staysPublicEq_of_noFault h d busy turn fetched fault (exec_halt _) (exec_halt _)
        ⟨ended.rest, ended.x, fun a ha => ended.mem a fun secret => ha (.inr ⟨noStore a, secret⟩)⟩
    · have completes := publicEq_turnTaken (publicEq_completed h operands)
      rw [← completed_turnTaken, ← completed_turnTaken] at completes
      have fault' : faultOf i s' = none := (faultOf_eq_none_publicEq h operands).mpr fault
      exact staysPublicEq_of_noFault h d busy turn fetched fault
        (exec_of_completes ((faultOf_turnTaken i s).trans fault) halt)
        (exec_of_completes ((faultOf_turnTaken i s').trans fault') halt) completes

end Fetched

/-- A discreet sequencer step of a run keeps secrets where they are tracked (R276). -/
theorem staysPublicEq (busy : s.busy = true) (turn : sequencerTurn s) : StaysPublicEq sec s s' := by
  cases fetched : fetch s with
  | fault c info => exact staysPublicEq_of_fetch_fault h d busy turn fetched
  | instr i => exact staysPublicEq_of_fetch_instr h d busy turn fetched

end SequencerStep

/-! ## A host step on two publicly equal states of a run -/

/-- A write of any other offset than the four writable ones is ignored (R40). -/
theorem csrUpdate_of_not_mem {offset : Nat} (h : offset ∉ [0x014, 0x018, 0x01C, 0x020]) (v : Word) (s : State) :
    csrUpdate offset v s = s := by
  rcases csrUpdate_cases offset v s with ⟨rfl, -⟩ | ⟨rfl, -⟩ | ⟨rfl, -⟩ | ⟨rfl, -⟩ | ⟨-, eq⟩
  case inr.inr.inr.inr => exact eq
  all_goals exact absurd (by decide) h

section HostStep

variable {sec : Secrets} {s s' : State} (h : PublicEq sec s s')
include h

/-- No register of the window reads a secret. -/
theorem csrValue_publicEq (offset : Nat) : csrValue s' offset = csrValue s offset := by
  rw [h.eq_update]
  rfl

/-- A write of the window that ends no run keeps public equality. -/
theorem csrUpdate_publicEq (busy : s.busy = true) {offset : Nat} {v : Word}
    (noEnd : hostEnd (.csrWrite offset 4 v) = none) : PublicEq sec (csrUpdate offset v s) (csrUpdate offset v s') := by
  have busy' : s'.busy = true := h.busy_eq.trans busy
  rcases csrUpdate_cases offset v s with ⟨rfl, -⟩ | ⟨rfl, -⟩ | ⟨rfl, -⟩ | ⟨rfl, -⟩ | ⟨other, -⟩
  · rw [csrUpdate_cfg, csrUpdate_cfg, writeCfg_of_locked_or_busy v (.inr busy), writeCfg_of_locked_or_busy v (.inr busy')]
    exact h
  · have noAbort : v.getLsbD 1 = false := by
      rw [hostEnd] at noEnd
      exact Bool.eq_false_iff.mpr fun abort => nomatch (if_pos ⟨rfl, rfl, abort⟩).symm.trans noEnd
    rw [csrUpdate_ctrl, csrUpdate_ctrl, writeCtrl_of_busy busy noAbort, writeCtrl_of_busy busy' noAbort]
    exact h.update (f := fun u => { u with ie := v.getLsbD 3 }) fun _ _ _ _ _ _ => rfl
  · exact h.update (f := writeStatus v) fun _ _ _ _ _ _ => rfl
  · rw [csrUpdate_entry, csrUpdate_entry, writeEntry_of_busy v busy, writeEntry_of_busy v busy']
    exact h
  · rw [csrUpdate_of_not_mem other, csrUpdate_of_not_mem other]
    exact h

/-- A host step answers on both sides or is refused on both, and one that ends no run keeps public equality. -/
theorem hostStep_publicEq (busy : s.busy = true) (a : HostAct) :
    (∃ t t', hostStep a s = .next t ∧ hostStep a s' = .next t' ∧ (hostEnd a = none → PublicEq sec t t'))
      ∨ ∃ r r', hostStep a s = .refused r ∧ hostStep a s' = .refused r' := by
  have busy' : s'.busy = true := h.busy_eq.trans busy
  cases a with
  | csrRead offset width =>
    by_cases ok : csrAccessOk offset width = true
    · refine .inl ⟨_, _, if_pos ok, if_pos ok, fun _ => ?_⟩
      rw [csrValue_publicEq h]
      exact h.update (f := reply _) fun _ _ _ _ _ _ => rfl
    · exact .inr ⟨_, _, if_neg ok, if_neg ok⟩
  | csrWrite offset width v =>
    by_cases ok : csrAccessOk offset width = true
    · obtain ⟨rfl, -⟩ := (csrAccessOk_iff offset width).mp ok
      exact .inl ⟨_, _, if_pos ok, if_pos ok, csrUpdate_publicEq h busy⟩
    · exact .inr ⟨_, _, if_neg ok, if_neg ok⟩
  | memRead addr n => exact .inr ⟨_, _, if_pos busy, if_pos busy'⟩
  | memWrite addr n v => exact .inr ⟨_, _, if_pos busy, if_pos busy'⟩
  | reset => exact .inl ⟨_, _, rfl, rfl, nofun⟩

end HostStep

/-! ## The trace of a run, step by step -/

theorem runTrace_of_idle {s : State} (idle : s.busy = false) (n : Nat) : runTrace n s = ⟨[], none⟩ := by
  cases n with
  | zero => rfl
  | succ n => rw [runTrace, if_neg (by simp [idle])]

theorem runTrace_of_refused {s : State} {r : Refusal} (h : step s = .refused r) (n : Nat) :
    runTrace n s = ⟨[], none⟩ := by
  cases n with
  | zero => rfl
  | succ n => simp only [runTrace, h, ite_self]

/-- A step that ends the run ends the trace. -/
theorem runTrace_of_end {s t : State} {e : RunEnd} (busy : s.busy = true) (h : step s = .next t)
    (ending : stepEnd s = some e) (n : Nat) : runTrace (n + 1) s = ⟨stepObserved s, some e⟩ := by
  simp only [runTrace, if_pos busy, h, ending]

/-- A step that does not end the run goes before the trace of the rest. -/
theorem runTrace_of_continue {s t : State} (busy : s.busy = true) (h : step s = .next t) (ending : stepEnd s = none)
    (n : Nat) : runTrace (n + 1) s = ⟨stepObserved s ++ (runTrace n t).steps, (runTrace n t).ending⟩ := by
  simp only [runTrace, if_pos busy, h, ending]

/-- Both steps are observed and end alike, and where they are no end the next states are publicly equal; or both are
refused. -/
def StepsAlike (sec : Secrets) (s s' : State) : Prop :=
  (∃ t t', step s = .next t ∧ step s' = .next t' ∧ stepObserved s' = stepObserved s ∧ stepEnd s' = stepEnd s
      ∧ (stepEnd s = none → PublicEq (secretsAfter sec s s') t t'))
    ∨ ∃ r r', step s = .refused r ∧ step s' = .refused r'

section Run

variable {sec : Secrets} {s s' : State} (h : PublicEq sec s s') (busy : s.busy = true)
include h busy

theorem stepsAlike_of_sequencerTurn (turn : sequencerTurn s) (d : Discreet sec s s') : StepsAlike sec s s' := by
  have turn' : sequencerTurn s' := sequencerTurn_publicEq h turn
  obtain ⟨t, t', step, step', related, errInfo⟩ := staysPublicEq h d busy turn
  refine .inl ⟨t, t', step, step', ?_, stepEnd_publicEq h d turn, fun noEnd => ?_⟩
  · rw [stepObserved_of_sequencerTurn turn, stepObserved_of_sequencerTurn turn', observe_publicEq h d]
  · rwa [← errInfo (by simp [noEnd])] at related

theorem stepsAlike_of_hostTurn {a : HostAct} {rest : List Turn} (turn : s.agenda = .host a :: rest) :
    StepsAlike sec s s' := by
  have turn' : s'.agenda = .host a :: rest := h.agenda_eq.trans turn
  rw [StepsAlike, step_of_hostTurn turn, step_of_hostTurn turn', stepObserved_of_hostTurn turn,
    stepObserved_of_hostTurn turn', stepEnd_of_hostTurn turn, stepEnd_of_hostTurn turn',
    secretsAfter_of_hostTurn sec s' turn]
  rcases hostStep_publicEq (publicEq_turnTaken h) busy a with ⟨t, t', step, step', related⟩ | refused
  · exact .inl ⟨t, t', step, step', rfl, rfl, related⟩
  · exact .inr refused

end Run

/-- Two runs that differ only where secrets lie have one trace, as long as their sequencer steps are discreet (R276). -/
theorem runTrace_publicEq (n : Nat) {sec : Secrets} {s s' : State} (h : PublicEq sec s s')
    (discreet : DiscreetRun n sec s s') : runTrace n s' = runTrace n s := by
  induction n generalizing sec s s' with
  | zero => rfl
  | succ n ih =>
    cases busy : s.busy with
    | false => rw [runTrace_of_idle busy, runTrace_of_idle (h.busy_eq.trans busy)]
    | true =>
      have busy' : s'.busy = true := h.busy_eq.trans busy
      obtain ⟨now, later⟩ := discreet
      have alike : StepsAlike sec s s' := by
        rcases sequencerTurn_or_hostTurn s with turn | ⟨a, rest, turn⟩
        · exact stepsAlike_of_sequencerTurn h busy turn (now turn)
        · exact stepsAlike_of_hostTurn h busy turn
      rcases alike with ⟨t, t', step, step', observed, ends, related⟩ | ⟨r, r', step, step'⟩
      · cases ending : stepEnd s with
        | none =>
          rw [runTrace_of_continue busy step ending, runTrace_of_continue busy' step' (ends.trans ending), observed,
            ih (related ending) (later t t' step step')]
        | some e => rw [runTrace_of_end busy step ending, runTrace_of_end busy' step' (ends.trans ending), observed]
      · rw [runTrace_of_refused step, runTrace_of_refused step']

/-- Settles O42: a discreet step keeps its observation, its end and public equality, and the trace follows by induction on
the number of steps. -/
theorem constantTime : Obligations.ConstantTime :=
  ⟨fun _ _ _ h busy turn d => ⟨observe_publicEq h d, stepEnd_publicEq h d turn, staysPublicEq h d busy turn⟩,
    fun n _ _ _ h _ discreet => runTrace_publicEq n h discreet⟩

end Sys2Proof.Machine
end
